-- ==== Sys2Proof/Word.lean ====
section
/-! DEFINITION. The plain values HBS moves (00_scope.md R7, R8) and the fixed-size table that its symbol tables and tree
arena are made of. -/

namespace Sys2Proof

/-- A stream byte, `BYTE_W = 8` (R7). -/
abbrev Byte := BitVec 8

/-- One frequency counter, `CNT_W = 32`, unsigned (R7, R30). -/
abbrev Count := BitVec 32

/-- A tree-node weight, `WEIGHT_W = 64`, unsigned (R7, R31). -/
abbrev Weight := BitVec 64

/-- A node id: 0..512 name a slot of the arena, 0x3FF means none (R31). -/
abbrev NodeId := BitVec 10

/-- A symbol: a byte value 0..255 or the end-of-stream sentinel 256 (R12). -/
abbrev Symbol := Fin 257

/-- The sentinel, symbol 256 (R7, R12). -/
def sentinel : Symbol := 256

/-- A bit string in the order it is produced, first bit first (R9). -/
abbrev Bits := List Bool

/-- A table of exactly `n` cells, cell 0 first. It is a list with its length, so that two tables are equal exactly when
their cells are. -/
structure Table (α : Type) (n : Nat) where
  cells : List α
  size : cells.length = n
  deriving DecidableEq, Repr

/-- The table whose every cell holds `v`. -/
def Table.fill {α : Type} (n : Nat) (v : α) : Table α n :=
  ⟨List.replicate n v, List.length_replicate⟩

end Sys2Proof
end

