-- ==== Sys2Proof/Syntax.lean ====
section
/-! DEFINITION. The two units and the command set: one constructor of `Instr` per row of the opcode table
(30_encoding.md R83, R84), and the two pseudo-commands of R89. -/

namespace Sys2Proof

/-- The two units of HBS (00_scope.md R1, 60_exceptions.md R272): ENC is `U = 0`, DEC is `U = 1`. -/
inductive UnitId where
  | enc
  | dec
  deriving DecidableEq, Repr

/-- The commands of HBS. -/
inductive Instr where
  /-- EINIT 0x00: reset the encoder unit (R200). -/
  | einit
  /-- ECOUNT 0x08: count one source byte (R101). -/
  | ecount
  /-- ECOUNTALL 0x10: count the rest of the source (R102). -/
  | ecountall
  /-- EFINAL 0x18: set the sentinel's count and freeze the table (R103). -/
  | efinal
  /-- EBUILD 0x20: build the encoder's tree (R127). -/
  | ebuild
  /-- EDERIVE 0x28: derive the encoding table (R142). -/
  | ederive
  /-- EHDR 0x30: write the header (R203). -/
  | ehdr
  /-- EREWIND 0x38: rewind the source port (R202). -/
  | erewind
  /-- ESYM 0x40: read one source byte and emit its code (R205). -/
  | esym
  /-- ESYMALL 0x48: emit the codes of the rest of the source (R206). -/
  | esymall
  /-- EEOS 0x50: emit the sentinel's code (R207). -/
  | eeos
  /-- EWBIT b, 0x58 and 0x59: write one bit (R162). -/
  | ewbit (b : Bool)
  /-- ECLOSE 0x60: flush, pad and close (R163). -/
  | eclose
  /-- DINIT 0x80: reset the decoder unit (R230). -/
  | dinit
  /-- DHDR 0x88: read and check the header (R231). -/
  | dhdr
  /-- DBUILD 0x90: rebuild the decoder's tree (R128). -/
  | dbuild
  /-- DRBIT 0x98: read one payload bit into LASTBIT (R182). -/
  | drbit
  /-- DSTEP 0xA0: read one bit and move the walker one edge (R236). -/
  | dstep
  /-- DSYMBOL 0xA8: step until a leaf is reached (R237). -/
  | dsymbol
  /-- DRUN 0xB0: decode to the sentinel (R238). -/
  | drun
  /-- DCLOSE 0xB8: close the destination (R239). -/
  | dclose
  deriving DecidableEq, Repr

/-- The unit a command is addressed to (R83, R84). -/
def Instr.unit : Instr → UnitId
  | .einit | .ecount | .ecountall | .efinal | .ebuild | .ederive | .ehdr | .erewind | .esym | .esymall | .eeos
  | .ewbit _ | .eclose => .enc
  | .dinit | .dhdr | .dbuild | .drbit | .dstep | .dsymbol | .drun | .dclose => .dec

/-- What a word written to CMD decodes to (R87): a command, or ILLEGAL of the unit bit 7 names. -/
inductive Decoded where
  | command (i : Instr)
  | illegal (u : UnitId)
  deriving DecidableEq, Repr

/-- The pseudo-command ENCODE (R89). -/
def encodeExpansion : List Instr :=
  [.einit, .ecountall, .efinal, .ebuild, .ederive, .ehdr, .erewind, .esymall, .eeos, .eclose]

/-- The pseudo-command DECODE (R89). -/
def decodeExpansion : List Instr :=
  [.dinit, .dhdr, .dbuild, .drun, .dclose]

end Sys2Proof
end

