-- ==== Sys2Proof/WellFormed.lean ====
section
/-! DEFINITION. Which command words are legal (30_encoding.md R85), stated on the bits alone and apart from the decoder,
and which instructions are well formed. -/

namespace Sys2Proof

/-- R85, first ground: `OP` is a reserved value of its unit (ENC 13..15, DEC 8..15). -/
def opReserved (w : Byte) : Bool :=
  if w.getLsbD 7 then 8 ≤ (w.toNat / 8) % 16 else 13 ≤ (w.toNat / 8) % 16

/-- R85, second ground: `RES ≠ 0`. -/
def resNonzero (w : Byte) : Bool := w.getLsbD 1 || w.getLsbD 2

/-- R85, third ground: `B = 1` and the command is not EWBIT (`U = 0`, `OP = 11`). -/
def strayBit (w : Byte) : Bool :=
  w.getLsbD 0 && !(!w.getLsbD 7 && (w.toNat / 8) % 16 == 11)

/-- A word is legal when none of R85's three grounds holds. -/
def wordLegal (w : Byte) : Bool := !opReserved w && !resNonzero w && !strayBit w

/-- A command is well formed when every operand it carries fits its field. The one operand of the command set is the bit
of EWBIT (R82), and its type holds exactly the values of the field `B`, so every term of `Instr` passes; what can be ill
formed in HBS is a word (`wordLegal`). -/
def Instr.wellFormed : Instr → Bool
  | .ewbit b => b.toNat < 2
  | .einit | .ecount | .ecountall | .efinal | .ebuild | .ederive | .ehdr | .erewind | .esym | .esymall | .eeos
  | .eclose | .dinit | .dhdr | .dbuild | .drbit | .dstep | .dsymbol | .drun | .dclose => true

end Sys2Proof
end

