-- ==== Sys2Proof/Decode.lean ====
section
/-! DEFINITION. Decoding a word written to CMD (30_encoding.md R80 to R87), total on every byte, and after it the encoder
written from the same tables. -/

namespace Sys2Proof

/-- Field `U`, bit 7: the unit (R80). -/
def wordUnit (w : Byte) : UnitId := if w.getLsbD 7 then .dec else .enc

/-- Field `OP`, bits 6..3 (R80). -/
def wordOp (w : Byte) : BitVec 4 := w.extractLsb' 3 4

/-- Field `RES`, bits 2..1 (R80). -/
def wordRes (w : Byte) : BitVec 2 := w.extractLsb' 1 2

/-- Field `B`, bit 0 (R80). -/
def wordB (w : Byte) : Bool := w.getLsbD 0

/-- The encoder's opcode table but for EWBIT, whose word also carries `B` (R83). -/
def encTable : Nat → Option Instr
  | 0 => some .einit
  | 1 => some .ecount
  | 2 => some .ecountall
  | 3 => some .efinal
  | 4 => some .ebuild
  | 5 => some .ederive
  | 6 => some .ehdr
  | 7 => some .erewind
  | 8 => some .esym
  | 9 => some .esymall
  | 10 => some .eeos
  | 12 => some .eclose
  | _ => none

/-- The decoder's opcode table (R84). -/
def decTable : Nat → Option Instr
  | 0 => some .dinit
  | 1 => some .dhdr
  | 2 => some .dbuild
  | 3 => some .drbit
  | 4 => some .dstep
  | 5 => some .dsymbol
  | 6 => some .drun
  | 7 => some .dclose
  | _ => none

/-- The opcode table of a unit. -/
def opTable : UnitId → Nat → Option Instr
  | .enc => encTable
  | .dec => decTable

/-- The decoding function of R87: every byte is one command, or ILLEGAL of the unit bit 7 names. -/
def decode (w : Byte) : Decoded :=
  if wordUnit w = .enc ∧ wordOp w = 11 ∧ wordRes w = 0 then .command (.ewbit (wordB w))
  else if wordRes w ≠ 0 ∨ wordB w = true then .illegal (wordUnit w)
  else
    match opTable (wordUnit w) (wordOp w).toNat with
    | some i => .command i
    | none => .illegal (wordUnit w)

/-- The command a word stands for, and nothing for an illegal word. -/
def decodeWord (w : Byte) : Option Instr :=
  match decode w with
  | .command i => some i
  | .illegal _ => none

/-- The opcode of a command within its unit (R83, R84). -/
def Instr.opcode : Instr → BitVec 4
  | .einit => 0
  | .ecount => 1
  | .ecountall => 2
  | .efinal => 3
  | .ebuild => 4
  | .ederive => 5
  | .ehdr => 6
  | .erewind => 7
  | .esym => 8
  | .esymall => 9
  | .eeos => 10
  | .ewbit _ => 11
  | .eclose => 12
  | .dinit => 0
  | .dhdr => 1
  | .dbuild => 2
  | .drbit => 3
  | .dstep => 4
  | .dsymbol => 5
  | .drun => 6
  | .dclose => 7

/-- The field `B` of a command's word: EWBIT's bit, 0 in every other command (R80). -/
def Instr.bitField : Instr → Bool
  | .ewbit b => b
  | .einit | .ecount | .ecountall | .efinal | .ebuild | .ederive | .ehdr | .erewind | .esym | .esymall | .eeos
  | .eclose | .dinit | .dhdr | .dbuild | .drbit | .dstep | .dsymbol | .drun | .dclose => false

/-- Field `U` as a bit (R80). -/
def UnitId.bit : UnitId → Bool
  | .enc => false
  | .dec => true

/-- The word of a command: `U`, `OP`, `RES = 0`, `B` from bit 7 down (R80). -/
def encode (i : Instr) : Byte :=
  BitVec.ofBool i.unit.bit ++ i.opcode ++ (0#2) ++ BitVec.ofBool i.bitField

/-- The words of a command sequence, in the order they are written to CMD (R88). -/
def encodeWords (is : List Instr) : List Byte := is.map encode

/-- The command the decoder reads from a table row's word: a command is one byte long (R81), so the row's `nbits` are at
most 8 and the bits it does not give are 0. -/
def decodeTableWord (nbits w : Nat) : Option Instr :=
  if nbits ≤ 8 ∧ w < 2 ^ nbits then decodeWord (BitVec.ofNat 8 w) else none

end Sys2Proof
end

