-- ==== Sys2Proof/Config.lean ====
section
/-! DEFINITION. The parameters of HBS (00_scope.md R7): the fixed numbers, and the two OPEN ones as constants with no
body, so that nothing can be proved of their values. -/

namespace Sys2Proof

/-- The direction of a port access (20_memory.md R62, R63). -/
inductive Dir where
  | read
  | write
  deriving DecidableEq, Repr

namespace Config

/-- `CNT_MAX`, the largest count (R7). -/
def cntMax : Count := 0xFFFFFFFF

/-- `NODE_MAX`, the slots of a unit's tree arena (R7, R31). -/
def nodeMax : Nat := 513

/-- `CODE_MAX`, the longest code in bits (R7, R144). -/
def codeMax : Nat := 256

/-- `HDR_LEN`, the header's length in bytes (R7). -/
def hdrLen : Nat := 1028

/-- The no-symbol value of a slot that is not a LEAF (R31, D33). -/
def noSym : BitVec 9 := 0x1FF

/-- The node id that means no node (R31). -/
def noNode : NodeId := 0x3FF

/-- FREE VALUE (R7 `ioFault`, D17, I7; log 2): whether the port access numbered `draw` of unit `u`, in direction `d` at
offset `off`, fails. A fresh `draw` for each access makes it a draw per access. -/
opaque ioFault (u : UnitId) (d : Dir) (off draw : Nat) : Bool

/-- FREE VALUE (R7 `PORT_LEN_MAX`, D16, I8; log 3): the longest byte sequence a port holds. No rule of the spec uses it;
a claim about a platform's ports may name it (`Safety.portFits`). -/
opaque portLenMax : Nat

end Config

end Sys2Proof
end

