-- ==== Sys2Proof/Machine/State.lean ====
section
/-! DEFINITION. The architectural state of HBS as plain data (10_state.md R20 to R40), the reasons a step can stop, and the
state after reset (70_reset_and_hazards.md R300). -/

namespace Sys2Proof.Machine

/-- `ENC.PHASE` (10_state.md R26). The values 7..15 are never written and are not terms of the type. -/
inductive EncPhase where
  | count
  | final
  | built
  | ready
  | payload
  | ended
  | closed
  deriving DecidableEq, Repr

/-- `DEC.PHASE` (R27). The values 5..15 are never written and are not terms of the type. -/
inductive DecPhase where
  | empty
  | loaded
  | ready
  | done
  | closed
  deriving DecidableEq, Repr

/-- `U.ERR` (60_exceptions.md R261). The codes 9..15 are never written and are not terms of the type. -/
inductive ErrCode where
  | none
  | io
  | format
  | truncated
  | illegal
  | sequence
  | overflow
  | nocode
  | corrupt
  deriving DecidableEq, Repr

/-- The kind of an arena slot (R31); its 2-bit codes are `NodeKind.bits`. -/
inductive NodeKind where
  | empty
  | leaf
  | nullLeaf
  | internal
  deriving DecidableEq, Repr

/-- One slot of a tree arena, with the five fields of R31. -/
structure Node where
  kind : NodeKind
  sym : BitVec 9
  weight : Weight
  left : NodeId
  right : NodeId
  deriving DecidableEq, Repr

/-- An unused slot (R31). -/
def Node.unused : Node :=
  { kind := .empty, sym := Config.noSym, weight := 0, left := Config.noNode, right := Config.noNode }

/-- A unit's tree arena: `NODE[0..512]`, `NNODES` and `ROOT` (R31). -/
structure Arena where
  node : Table Node 513
  nnodes : BitVec 10
  root : NodeId
  deriving DecidableEq, Repr

/-- The cleared arena of reset and INIT (R31). -/
def Arena.clear : Arena :=
  { node := Table.fill 513 Node.unused, nnodes := 0, root := Config.noNode }

/-- What the outside world answers when a unit asks `ioFault` (60_exceptions.md R275; log 2). The MODEL's own field:
`answers` are the answers the host has fixed for the unit's next accesses, oldest first; past them the answer is the free
draw `Config.ioFault`, numbered by `draws`, the count of the unit's accesses so far. -/
structure IoInput where
  answers : List Bool
  draws : Nat
  deriving DecidableEq, Repr

/-- A unit's two ports (10_state.md R34, 20_memory.md R60): the source bytes, the offset of the next byte to read, and the
bytes written. -/
structure Port where
  src : List Byte
  rp : Nat
  dst : List Byte
  io : IoInput
  deriving DecidableEq, Repr

/-- The encoder unit (R20). -/
structure Enc where
  phase : EncPhase
  err : ErrCode
  eoi : Bool
  freq : Table Count 257
  arena : Arena
  code : Table (Option Bits) 257
  acc : BitVec 8
  nbits : BitVec 3
  port : Port
  deriving DecidableEq, Repr

/-- The decoder unit (R21). `cnt` is `DEC.CNT`, 0..8 (R23; log 8). -/
structure Dec where
  phase : DecPhase
  err : ErrCode
  eoi : Bool
  lastBit : Bool
  freq : Table Count 257
  arena : Arena
  cur : NodeId
  buf : Byte
  cnt : Fin 9
  port : Port
  deriving DecidableEq, Repr

/-- The machine: both units, and `cmd`, the words the host writes to CMD from now on, in its order (R22, R24; log 1). -/
structure State where
  enc : Enc
  dec : Dec
  cmd : List Byte
  deriving DecidableEq, Repr

/-- Why a step can stop. Nothing in the spec stops the machine: an error is latched and the machine goes on
(60_exceptions.md R260). Each constructor is raised only in states that no run from reset reaches (`Safety.Inv` rules them
out) and to which the spec gives no effect. All are SAFE: the model stops where nothing is known (log 6). -/
inductive Fault where
  /-- Raised by EBUILD and DBUILD when every count is 0, so that TreeBuild's last `extract-min` has nothing to extract; the
  spec says it cannot happen (41_tree.md R123). SAFE. -/
  | emptyTable
  /-- Raised by EDERIVE when the traversal leaves the tree: an EMPTY slot, a leaf symbol above 256, or a path longer than
  the arena (41_tree.md R129 says the arena holds a tree). SAFE. -/
  | notATree
  /-- Raised by EEOS when `CODE[256]` is NONE, for which EmitCode is not defined (45_encoder.md R204, R207). SAFE. -/
  | sentinelUncoded
  /-- Raised by DSTEP, DSYMBOL and DRUN when the walker stands on no INTERNAL node or meets an EMPTY slot, which has no case
  in R236 (46_decoder.md R235). SAFE. -/
  | walkerOffTree
  /-- Raised by no command in any state: the bound of the four bulk commands (R102, R206, R237, R238) is never used up
  (Laws: `repeatUntil` with enough fuel). SAFE. -/
  | loopBound
  deriving DecidableEq, Repr

/-- What the model does not accept. -/
inductive Refusal where
  /-- Raised by an arm of `exec` whose instruction has no meaning yet; no arm does. SAFE. -/
  | notModelled (mnemonic : String)
  /-- Raised by `hostStep` when the host sets the source port of a unit while an operation of that unit uses it; no command
  and no step raises it (20_memory.md R61, 60_exceptions.md R275, 93_implementation_defined.md I17: "refuse"). SAFE. -/
  | sourceInUse (u : UnitId)
  deriving DecidableEq, Repr

/-- No answers fixed, no access made (log 2). -/
def IoInput.reset : IoInput := { answers := [], draws := 0 }

/-- The ports after reset (R300). -/
def Port.reset : Port := { src := [], rp := 0, dst := [], io := IoInput.reset }

/-- The encoder after reset (R300). -/
def Enc.reset : Enc :=
  { phase := .count
    err := .none
    eoi := false
    freq := Table.fill 257 0
    arena := Arena.clear
    code := Table.fill 257 Option.none
    acc := 0x00
    nbits := 0
    port := Port.reset }

/-- The decoder after reset (R300). -/
def Dec.reset : Dec :=
  { phase := .empty
    err := .none
    eoi := false
    lastBit := false
    freq := Table.fill 257 0
    arena := Arena.clear
    cur := Config.noNode
    buf := 0x00
    cnt := 8
    port := Port.reset }

/-- The machine right after reset, with no word written to CMD (R300, R302). -/
def State.reset : State := { enc := Enc.reset, dec := Dec.reset, cmd := [] }

end Sys2Proof.Machine
end

