-- ==== Sys2Proof/Machine/Ops.lean ====
section
/-! DEFINITION. The named operations every command is made of: table cells, the port accesses of 20_memory.md, raising and
latching an error (60_exceptions.md R262), the checks before a command (R264), and the bulk commands' loop. -/

namespace Sys2Proof

/-- Cell `i` of a table. -/
def Table.get {α : Type} {n : Nat} (t : Table α n) (i : Fin n) : α :=
  t.cells[i.val]'(by rw [t.size]; exact i.isLt)

/-- The table with cell `i` holding `v`. -/
def Table.set {α : Type} {n : Nat} (t : Table α n) (i : Fin n) (v : α) : Table α n :=
  ⟨t.cells.set i.val v, by rw [List.length_set]; exact t.size⟩

/-- The table whose cell `i` holds `f i`. -/
def Table.ofFn {α : Type} {n : Nat} (f : Fin n → α) : Table α n :=
  ⟨List.ofFn f, List.length_ofFn⟩

end Sys2Proof

namespace Sys2Proof.Machine

/-- How a stretch of a command's pseudocode ends: it ran through with a result, it raised an error (R262; the state holds
every write made before), or it met a state to which the spec gives no effect. -/
inductive Ended (σ α : Type) where
  | ok (s : σ) (a : α)
  | raised (s : σ) (c : ErrCode)
  | stuck (f : Fault)
  deriving DecidableEq, Repr

/-- Go on with `k` where `x` ran through; a raise ends the command (00_scope.md R11). -/
def Ended.bind {σ α β : Type} (x : Ended σ α) (k : σ → α → Ended σ β) : Ended σ β :=
  match x with
  | .ok s a => k s a
  | .raised s c => .raised s c
  | .stuck f => .stuck f

/-- The same ending, with the state `x` worked on put back into its whole. -/
def Ended.into {σ τ α : Type} (put : σ → τ) (x : Ended σ α) : Ended τ α :=
  match x with
  | .ok s a => .ok (put s) a
  | .raised s c => .raised (put s) c
  | .stuck f => .stuck f

/-- Slot number `i` of the arena. A number at or past 513 names no slot and reads as an unused one (log 7). -/
def Arena.slotAt (a : Arena) (i : Nat) : Node := a.node.cells.getD i Node.unused

/-- `NODE[id]` (10_state.md R31). -/
def Arena.slot (a : Arena) (id : NodeId) : Node := a.slotAt id.toNat

/-- `NODE[NNODES] <- n; NNODES <- NNODES + 1` (41_tree.md R121). -/
def Arena.push (a : Arena) (n : Node) : Arena :=
  { a with
    node := ⟨a.node.cells.set a.nnodes.toNat n, by rw [List.length_set]; exact a.node.size⟩
    nnodes := a.nnodes + 1 }

/-- The answer to the unit's access number `j` from now, were it at offset `off` in direction `d`. -/
def IoInput.answerAt (io : IoInput) (u : UnitId) (d : Dir) (off j : Nat) : Bool :=
  (io.answers[j]?).getD (Config.ioFault u d off (io.draws + j))

/-- One access has been asked: the next access gets the next answer. -/
def IoInput.tick (io : IoInput) : IoInput :=
  { answers := io.answers.tail, draws := io.draws + 1 }

/-- `MemRead(U.RP, 1)` (20_memory.md R62): the byte at `RP`, or `none` for EOI. It does not move `RP`. At the end of the
source no access is made and the oracle is not asked. An `RP` past the end, where no command of a
unit reads unless the host breaks R61, finds no byte left either (log 13, log 14). -/
def memRead (u : UnitId) (p : Port) : Ended Port (Option Byte) :=
  match p.src[p.rp]? with
  | none => .ok p none
  | some b =>
    if p.io.answerAt u .read p.rp 0 then .raised { p with io := p.io.tick } .io
    else .ok { p with io := p.io.tick } (some b)

/-- `MemWrite(len(U.DST), 1, v)` (20_memory.md R63): append `v`, or append nothing and raise IO. -/
def memWrite (u : UnitId) (v : Byte) (p : Port) : Ended Port Unit :=
  if p.io.answerAt u .write p.dst.length 0 then .raised { p with io := p.io.tick } .io
  else .ok { p with dst := p.dst ++ [v], io := p.io.tick } ()

/-- `MemRead` followed by `U.RP <- U.RP + 1` when a byte came back, as every rule that reads does. -/
def takeByte (u : UnitId) (p : Port) : Ended Port (Option Byte) :=
  (memRead u p).bind fun p r =>
    match r with
    | none => .ok p none
    | some b => .ok { p with rp := p.rp + 1 } (some b)

/-- Append bytes to the destination one access at a time (R64); the first fault ends it. -/
def writeBytes (u : UnitId) : List Byte → Port → Ended Port Unit
  | [], p => .ok p ()
  | v :: vs, p => (memWrite u v p).bind fun p _ => writeBytes u vs p

/-- `repeat body until stop`, ended by the first raise. `fuel` bounds the repetitions; each bulk command gives a bound that
is never used up. -/
def repeatUntil {σ α : Type} (body : σ → Ended σ α) (stop : σ → α → Bool) : Nat → σ → Ended σ α
  | 0, _ => .stuck .loopBound
  | fuel + 1, s => (body s).bind fun s a => if stop s a then .ok s a else repeatUntil body stop fuel s

/-- `if ENC.ERR = NONE then ENC.ERR <- c` (60_exceptions.md R262): the first error is kept. -/
def Enc.latch (c : ErrCode) (e : Enc) : Enc := if e.err = .none then { e with err := c } else e

/-- `if DEC.ERR = NONE then DEC.ERR <- c` (R262). -/
def Dec.latch (c : ErrCode) (d : Dec) : Dec := if d.err = .none then { d with err := c } else d

/-- The machine with its encoder unit replaced; DEC and the host's words stay (20_memory.md R72). -/
def State.setEnc (s : State) (e : Enc) : State := { s with enc := e }

/-- The machine with its decoder unit replaced; ENC and the host's words stay (20_memory.md R72). -/
def State.setDec (s : State) (d : Dec) : State := { s with dec := d }

/-- How an encoder command ends: its writes stand, and a raise is latched (R262). -/
def encFinish {α : Type} (s : State) : Ended Enc α → Host.Outcome State Fault Refusal
  | .ok e _ => .next (s.setEnc e)
  | .raised e c => .next (s.setEnc (e.latch c))
  | .stuck f => .fault f

/-- How a decoder command ends. -/
def decFinish {α : Type} (s : State) : Ended Dec α → Host.Outcome State Fault Refusal
  | .ok d _ => .next (s.setDec d)
  | .raised d c => .next (s.setDec (d.latch c))
  | .stuck f => .fault f

/-- The phase condition of each command (30_encoding.md R86). -/
def phaseLegal (i : Instr) (s : State) : Bool :=
  match i with
  | .einit => true
  | .ecount => s.enc.phase = .count
  | .ecountall => s.enc.phase = .count
  | .efinal => s.enc.phase = .count
  | .ebuild => s.enc.phase = .final
  | .ederive => s.enc.phase = .built
  | .ehdr => s.enc.phase = .ready ∧ s.enc.nbits = 0
  | .erewind => s.enc.phase ≠ .closed
  | .esym => s.enc.phase = .payload
  | .esymall => s.enc.phase = .payload
  | .eeos => s.enc.phase = .payload
  | .ewbit _ => s.enc.phase ≠ .closed
  | .eclose => s.enc.phase ≠ .closed
  | .dinit => true
  | .dhdr => s.dec.phase = .empty
  | .dbuild => s.dec.phase = .loaded
  | .drbit => s.dec.phase = .ready
  | .dstep => s.dec.phase = .ready
  | .dsymbol => s.dec.phase = .ready
  | .drun => s.dec.phase = .ready
  | .dclose => s.dec.phase ≠ .closed

/-- Steps 3 to 6 of R264 for an ENC command that is neither INIT nor CLOSE: no effect under a latched error (R263),
SEQUENCE outside its phases (R86), else its pseudocode. -/
def encGate (i : Instr) (body : Enc → Ended Enc Unit) (s : State) : Host.Outcome State Fault Refusal :=
  if s.enc.err ≠ .none then .next s
  else if phaseLegal i s then encFinish s (body s.enc)
  else .next (s.setEnc (s.enc.latch .sequence))

/-- Steps 3 to 6 of R264 for a DEC command that is neither INIT nor CLOSE. -/
def decGate (i : Instr) (body : Dec → Ended Dec Unit) (s : State) : Host.Outcome State Fault Refusal :=
  if s.dec.err ≠ .none then .next s
  else if phaseLegal i s then decFinish s (body s.dec)
  else .next (s.setDec (s.dec.latch .sequence))

/-- R263 and R264 for ECLOSE: it runs in its phases also under a latched error, which it keeps; in CLOSED it raises
SEQUENCE, or has no effect under a latched error (the latch keeps the first error). -/
def encCloseGate (i : Instr) (body : Enc → Ended Enc Unit) (s : State) : Host.Outcome State Fault Refusal :=
  if phaseLegal i s then encFinish s (body s.enc)
  else .next (s.setEnc (s.enc.latch .sequence))

/-- R263 and R264 for DCLOSE. -/
def decCloseGate (i : Instr) (body : Dec → Ended Dec Unit) (s : State) : Host.Outcome State Fault Refusal :=
  if phaseLegal i s then decFinish s (body s.dec)
  else .next (s.setDec (s.dec.latch .sequence))

/-- An illegal word of unit `u` (R264 steps 3 and 4): ILLEGAL is latched, or nothing happens under a latched error (R263,
R85). Nothing else changes. -/
def illegalWord (u : UnitId) (s : State) : State :=
  match u with
  | .enc => s.setEnc (s.enc.latch .illegal)
  | .dec => s.setDec (s.dec.latch .illegal)

/-- The next word the host writes to CMD, and the machine with that word taken (10_state.md R22, R24; log 1). -/
def nextWord (s : State) : Option (Byte × State) :=
  match s.cmd with
  | [] => none
  | w :: rest => some (w, { s with cmd := rest })

/-- The machine with a word placed so that the next step takes it. -/
def putWord (w : Byte) (s : State) : State := { s with cmd := w :: s.cmd }

end Sys2Proof.Machine
end

