-- ==== Sys2Proof/Machine/Flags.lean ====
section
/-! DEFINITION. The flags: reading a source byte with its EOI flag (10_state.md R28), the numbers of the coded fields (R26,
R27, R31, 60_exceptions.md R261), and the two status registers assembled from the units' fields (R25). -/

namespace Sys2Proof.Machine

/-- The number of an encoder phase (10_state.md R26). -/
def EncPhase.bits : EncPhase → BitVec 4
  | .count => 0
  | .final => 1
  | .built => 2
  | .ready => 3
  | .payload => 4
  | .ended => 5
  | .closed => 6

/-- The number of a decoder phase (R27). -/
def DecPhase.bits : DecPhase → BitVec 4
  | .empty => 0
  | .loaded => 1
  | .ready => 2
  | .done => 3
  | .closed => 4

/-- The error codes (60_exceptions.md R261). -/
def ErrCode.bits : ErrCode → BitVec 4
  | .none => 0
  | .io => 1
  | .format => 2
  | .truncated => 3
  | .illegal => 4
  | .sequence => 5
  | .overflow => 6
  | .nocode => 7
  | .corrupt => 8

/-- The codes of a slot's `kind` field (10_state.md R31). -/
def NodeKind.bits : NodeKind → BitVec 2
  | .empty => 0
  | .leaf => 1
  | .nullLeaf => 2
  | .internal => 3

/-- `STATUS.BUSY` reads 0 whenever the host can read it (R35). -/
def busy : Bool := false

/-- A status register from its fields (R25): reserved [15:12], ERR [11:8], reserved [7], BUSY [6], LASTBIT [5], EOI [4],
PHASE [3:0]. -/
def statusWord (phase : BitVec 4) (eoi lastBit : Bool) (err : BitVec 4) : BitVec 16 :=
  (0#4) ++ err ++ (0#1) ++ BitVec.ofBool busy ++ BitVec.ofBool lastBit ++ BitVec.ofBool eoi ++ phase

/-- `ENC.STATUS` (R25); its LASTBIT reads 0. -/
def Enc.status (e : Enc) : BitVec 16 := statusWord e.phase.bits e.eoi false e.err.bits

/-- `DEC.STATUS` (R25). -/
def Dec.status (d : Dec) : BitVec 16 := statusWord d.phase.bits d.eoi d.lastBit d.err.bits

/-- ENC asks its source for a byte: `RP` moves past a byte that comes back, and EOI sets `ENC.EOI` (R28). -/
def Enc.nextByte (e : Enc) : Ended Enc (Option Byte) :=
  ((takeByte .enc e.port).into fun p => { e with port := p }).bind fun e r =>
    match r with
    | none => .ok { e with eoi := true } none
    | some b => .ok e (some b)

/-- DEC asks its source for a byte: `RP` moves past a byte that comes back, and EOI sets `DEC.EOI` (R28). -/
def Dec.nextByte (d : Dec) : Ended Dec (Option Byte) :=
  ((takeByte .dec d.port).into fun p => { d with port := p }).bind fun d r =>
    match r with
    | none => .ok { d with eoi := true } none
    | some b => .ok d (some b)

end Sys2Proof.Machine
end

