-- ==== Sys2Proof/Machine/Operands.lean ====
section
/-! DEFINITION. The operand forms of HBS: EWBIT's bit, a source byte as a symbol, a symbol as a byte, and a header counter
as four bytes (30_encoding.md R82, 20_memory.md R66). -/

namespace Sys2Proof.Machine

/-- `acc[6:0] : b`, the accumulator shifted left one place with `b` in bit 0 (43_bitwriter.md R160). -/
def shiftIn (acc : BitVec 8) (b : Bool) : BitVec 8 := acc.extractLsb' 0 7 ++ BitVec.ofBool b

/-- `(acc << (8 - k))[7:0]`, the `k` held bits moved to the top (43_bitwriter.md R161). -/
def toTop (acc : BitVec 8) (k : Nat) : BitVec 8 := acc <<< (8 - k)

/-- Bit number `k` of a byte counting from the most significant, `byte[7 - k]` (44_bitreader.md R180). -/
def msbBit (b : Byte) (k : Nat) : Bool := b.getLsbD (7 - k)

/-- A byte value as a symbol, 0..255 (00_scope.md R12). -/
def byteSymbol (b : Byte) : Symbol := ⟨b.toNat, by have := b.isLt; omega⟩

/-- A symbol as the 9-bit field of a LEAF slot (10_state.md R31). -/
def symbolField (s : Symbol) : BitVec 9 := BitVec.ofNat 9 s.val

/-- `sym[7:0]`, the byte a LEAF decodes to (46_decoder.md R236). -/
def fieldByte (f : BitVec 9) : Byte := f.extractLsb' 0 8

/-- Byte `k` of a counter, `FREQ[s][31-8k : 24-8k]` (20_memory.md R66). -/
def countByte (c : Count) (k : Nat) : Byte := c.extractLsb' (24 - 8 * k) 8

/-- The four bytes of a counter, most significant first (R66). -/
def countBytes (c : Count) : List Byte := [countByte c 0, countByte c 1, countByte c 2, countByte c 3]

/-- `b0 << 24 | b1 << 16 | b2 << 8 | b3` (46_decoder.md R232). -/
def countOf (b0 b1 b2 b3 : Byte) : Count :=
  b0.setWidth 32 <<< 24 ||| b1.setWidth 32 <<< 16 ||| b2.setWidth 32 <<< 8 ||| b3.setWidth 32

/-- The header of a table: the 257 counters in symbol order, four bytes each (20_memory.md R69, 45_encoder.md R203). -/
def headerBytes (f : Table Count 257) : List Byte := f.cells.flatMap countBytes

/-- `ParseHeader(h)` for a 1028-byte sequence (46_decoder.md R232). -/
def parseHeader (h : List Byte) : Table Count 257 :=
  Table.ofFn fun s : Symbol =>
    countOf (h.getD (4 * s.val) 0) (h.getD (4 * s.val + 1) 0) (h.getD (4 * s.val + 2) 0) (h.getD (4 * s.val + 3) 0)

end Sys2Proof.Machine
end

