-- ==== Sys2Proof/Machine/BitReader.lean ====
section
/-! DEFINITION. The bit-unpacker (44_bitreader.md): ReadBit and DRBIT. -/

namespace Sys2Proof.Machine

/-- `ReadBit()` (R180): the next bit of the source, most significant first, or `none` for EOI. A used-up buffer
(`CNT = 8`) is refilled first. -/
def readBit (d : Dec) : Ended Dec (Option Bool) :=
  if h : d.cnt.val < 8 then .ok { d with cnt := ⟨d.cnt.val + 1, by omega⟩ } (some (msbBit d.buf d.cnt.val))
  else
    d.nextByte.bind fun d r =>
      match r with
      | none => .ok d none
      | some b => .ok { d with buf := b, cnt := 1 } (some (msbBit b 0))

/-- The pseudocode of R182: end of input leaves LASTBIT and is no error. -/
def readBitBody (d : Dec) : Ended Dec Unit :=
  (readBit d).bind fun d r =>
    match r with
    | none => .ok d ()
    | some b => .ok { d with lastBit := b } ()

/-- DRBIT (R182). -/
def execDrbit (s : State) : Host.Outcome State Fault Refusal := decGate .drbit readBitBody s

end Sys2Proof.Machine
end

