-- ==== Sys2Proof/Machine/BitWriter.lean ====
section
/-! DEFINITION. The bit-packer (43_bitwriter.md): WriteBit and Flush, EWBIT and ECLOSE. -/

namespace Sys2Proof.Machine

/-- ENC appends bytes to its destination. -/
def Enc.write (vs : List Byte) (e : Enc) : Ended Enc Unit :=
  (writeBytes .enc vs e.port).into fun p => { e with port := p }

/-- `WriteBit(b)` (R160): the eighth bit clears the registers and then writes the byte, which a fault loses (D30). -/
def writeBit (b : Bool) (e : Enc) : Ended Enc Unit :=
  let v := shiftIn e.acc b
  if e.nbits.toNat + 1 = 8 then { e with acc := 0x00, nbits := 0 }.write [v]
  else .ok { e with acc := v, nbits := e.nbits + 1 } ()

/-- `Flush()` (R161). -/
def flush (e : Enc) : Ended Enc Unit :=
  if e.nbits = 0 then .ok e ()
  else { e with acc := 0x00, nbits := 0 }.write [toTop e.acc e.nbits.toNat]

/-- Pack the bits of a code, its first bit first; a raise ends it (45_encoder.md R204). -/
def emitBits : Bits → Enc → Ended Enc Unit
  | [], e => .ok e ()
  | b :: bs, e => (writeBit b e).bind fun e _ => emitBits bs e

/-- The pseudocode of R163: an error of Flush is recorded, and the unit is CLOSED all the same (R262). -/
def closeBody (e : Enc) : Ended Enc Unit :=
  match flush e with
  | .ok e _ => .ok { e with phase := .closed } ()
  | .raised e c => .ok { e.latch c with phase := .closed } ()
  | .stuck f => .stuck f

/-- EWBIT b (R162). -/
def execEwbit (b : Bool) (s : State) : Host.Outcome State Fault Refusal := encGate (.ewbit b) (writeBit b) s

/-- ECLOSE (R163). -/
def execEclose (s : State) : Host.Outcome State Fault Refusal := encCloseGate .eclose closeBody s

end Sys2Proof.Machine
end

