-- ==== Sys2Proof/Machine/CodeTable.lean ====
section
/-! DEFINITION. The path-to-code traverser (42_codetable.md): Derive and EDERIVE. -/

namespace Sys2Proof.Machine

/-- The table with no code (R140, first line). -/
def noCodes : Table (Option Bits) 257 := Table.fill 257 none

/-- Visit the subtree at `n` with the path `p` from the root (R140): a LEAF's symbol gets the path, a null leaf nothing, an
INTERNAL node's left subtree is visited with 0 appended and then its right one with 1. It is the traversal R140's stack
makes, written as the recursion that R140 quotes (log 9). `depth` bounds the path; a tree in the arena never uses it up, and
what is no tree is no case of R140. -/
def derivePaths (a : Arena) : Nat → NodeId → Bits → Table (Option Bits) 257 → Option (Table (Option Bits) 257)
  | 0, _, _, _ => none
  | depth + 1, n, p, codes =>
    match (a.slot n).kind with
    | .empty => none
    | .leaf => if h : (a.slot n).sym.toNat < 257 then some (codes.set ⟨(a.slot n).sym.toNat, h⟩ (some p)) else none
    | .nullLeaf => some codes
    | .internal =>
      match derivePaths a depth (a.slot n).left (p ++ [false]) codes with
      | none => none
      | some codes => derivePaths a depth (a.slot n).right (p ++ [true]) codes

/-- `Derive(ROOT)` (R140). -/
def derive (a : Arena) : Option (Table (Option Bits) 257) := derivePaths a Config.nodeMax a.root [] noCodes

/-- The pseudocode of R142. -/
def deriveBody (e : Enc) : Ended Enc Unit :=
  match derive e.arena with
  | none => .stuck .notATree
  | some codes => .ok { e with code := codes, phase := .ready } ()

/-- EDERIVE (R142). -/
def execEderive (s : State) : Host.Outcome State Fault Refusal := encGate .ederive deriveBody s

end Sys2Proof.Machine
end

