-- ==== Sys2Proof/Machine/Frequency.lean ====
section
/-! DEFINITION. Frequency counting (40_frequency.md): ECOUNT, ECOUNTALL, EFINAL. -/

namespace Sys2Proof.Machine

/-- The pseudocode of R101: count one source byte; at the end of the source only EOI is set. -/
def countBody (e : Enc) : Ended Enc Unit :=
  e.nextByte.bind fun e r =>
    match r with
    | none => .ok e ()
    | some b =>
      let s := byteSymbol b
      if e.freq.get s = Config.cntMax then .raised e .overflow
      else .ok { e with freq := e.freq.set s (e.freq.get s + 1) } ()

/-- R102's bound on the iterations of the bulk ENC commands: `len(SRC) - RP + 1`. -/
def sourceFuel (p : Port) : Nat := p.src.length - p.rp + 1

/-- The pseudocode of R102: R101's body until EOI is 1 or a raise. -/
def countAllBody (e : Enc) : Ended Enc Unit :=
  repeatUntil countBody (fun e _ => e.eoi) (sourceFuel e.port) e

/-- The pseudocode of R103. -/
def finalBody (e : Enc) : Ended Enc Unit :=
  .ok { e with freq := e.freq.set sentinel 1, phase := .final } ()

/-- ECOUNT (R101). -/
def execEcount (s : State) : Host.Outcome State Fault Refusal := encGate .ecount countBody s

/-- ECOUNTALL (R102). -/
def execEcountall (s : State) : Host.Outcome State Fault Refusal := encGate .ecountall countAllBody s

/-- EFINAL (R103). -/
def execEfinal (s : State) : Host.Outcome State Fault Refusal := encGate .efinal finalBody s

end Sys2Proof.Machine
end

