-- ==== Sys2Proof/Machine/Encoder.lean ====
section
/-! DEFINITION. Encoder orchestration (45_encoder.md): EINIT, EREWIND, EHDR, ESYM, ESYMALL, EEOS. -/

namespace Sys2Proof.Machine

/-- The ports after INIT: `RP <- 0`, `DST <- []`; SRC stays (R200, R230). The outside world's answers are no state of the
unit and stay too (log 2). -/
def Port.init (p : Port) : Port := { p with rp := 0, dst := [] }

/-- The encoder after EINIT (R200): the reset state but for SRC (R301). -/
def Enc.init (e : Enc) : Enc := { Enc.reset with port := e.port.init }

/-- The pseudocode of R202. -/
def rewindBody (e : Enc) : Ended Enc Unit :=
  .ok { e with port := { e.port with rp := 0 }, eoi := false } ()

/-- The pseudocode of R203: the header goes to the port directly, a fault leaves the bytes written before it. -/
def headerBody (e : Enc) : Ended Enc Unit :=
  (e.write (headerBytes e.freq)).bind fun e _ => .ok { e with phase := .payload } ()

/-- The pseudocode of R205: a byte without a code is consumed and raises NOCODE. -/
def symBody (e : Enc) : Ended Enc Unit :=
  e.nextByte.bind fun e r =>
    match r with
    | none => .ok e ()
    | some b =>
      match e.code.get (byteSymbol b) with
      | none => .raised e .nocode
      | some p => emitBits p e

/-- The pseudocode of R206: R205's body until EOI is 1 or a raise. -/
def symAllBody (e : Enc) : Ended Enc Unit :=
  repeatUntil symBody (fun e _ => e.eoi) (sourceFuel e.port) e

/-- The pseudocode of R207. EmitCode is defined only for a code that is not NONE (R204). -/
def eosBody (e : Enc) : Ended Enc Unit :=
  match e.code.get sentinel with
  | none => .stuck .sentinelUncoded
  | some p => (emitBits p e).bind fun e _ => .ok { e with phase := .ended } ()

/-- EINIT (R200): legal always, also under a latched error (R263, R264 step 2). -/
def execEinit (s : State) : Host.Outcome State Fault Refusal := .next (s.setEnc s.enc.init)

/-- EREWIND (R202). -/
def execErewind (s : State) : Host.Outcome State Fault Refusal := encGate .erewind rewindBody s

/-- EHDR (R203). -/
def execEhdr (s : State) : Host.Outcome State Fault Refusal := encGate .ehdr headerBody s

/-- ESYM (R205). -/
def execEsym (s : State) : Host.Outcome State Fault Refusal := encGate .esym symBody s

/-- ESYMALL (R206). -/
def execEsymall (s : State) : Host.Outcome State Fault Refusal := encGate .esymall symAllBody s

/-- EEOS (R207). -/
def execEeos (s : State) : Host.Outcome State Fault Refusal := encGate .eeos eosBody s

end Sys2Proof.Machine
end

