-- ==== Sys2Proof/Machine/Decoder.lean ====
section
/-! DEFINITION. Decoder orchestration and the symbol walker (46_decoder.md): DINIT, DHDR, DSTEP, DSYMBOL, DRUN, DCLOSE. -/

namespace Sys2Proof.Machine

/-- The decoder after DINIT (R230): the reset state but for SRC (R301). -/
def Dec.init (d : Dec) : Dec := { Dec.reset with port := d.port.init }

/-- Read `n` header bytes; the end of the source sets EOI and raises FORMAT (R231). -/
def readHeader : Nat → Dec → Ended Dec (List Byte)
  | 0, d => .ok d []
  | n + 1, d =>
    d.nextByte.bind fun d r =>
      match r with
      | none => .raised d .format
      | some b => (readHeader n d).bind fun d h => .ok d (b :: h)

/-- The pseudocode of R231. -/
def dhdrBody (d : Dec) : Ended Dec Unit :=
  (readHeader Config.hdrLen d).bind fun d h =>
    let f := parseHeader h
    if f.get sentinel = 1 then .ok { d with freq := f, phase := .loaded } () else .raised d .format

/-- DEC appends a byte to its destination. -/
def Dec.write (v : Byte) (d : Dec) : Ended Dec Unit :=
  (memWrite .dec v d.port).into fun p => { d with port := p }

/-- The walker's new position after bit `b`: left on 0, right on 1 (R236). -/
def childOf (a : Arena) (n : NodeId) (b : Bool) : NodeId := if b then (a.slot n).right else (a.slot n).left

/-- What R236 does at the node the walker has moved to; the result says whether it is a leaf. -/
def arrive (d : Dec) : Ended Dec Bool :=
  match (d.arena.slot d.cur).kind with
  | .internal => .ok d false
  | .leaf =>
    if (d.arena.slot d.cur).sym = symbolField sentinel then .ok { d with phase := .done } true
    else (d.write (fieldByte (d.arena.slot d.cur).sym)).bind fun d _ => .ok { d with cur := d.arena.root } true
  | .nullLeaf => .raised d .corrupt
  | .empty => .stuck .walkerOffTree

/-- The pseudocode of R236; the result says whether the body reached a leaf, which R237 asks. -/
def stepBody (d : Dec) : Ended Dec Bool :=
  (readBit d).bind fun d r =>
    match r with
    | none => .raised d .truncated
    | some b => arrive { d with cur := childOf d.arena d.cur b }

/-- R238's bound on the iterations of DSYMBOL and DRUN: `8 × (len(SRC) - RP) + 8 - CNT + 1`. -/
def walkFuel (d : Dec) : Nat := 8 * (d.port.src.length - d.port.rp) + (8 - d.cnt.val) + 1

/-- The pseudocode of R237: R236's body until it reached a leaf or a raise. -/
def symbolBody (d : Dec) : Ended Dec Bool := repeatUntil stepBody (fun _ leaf => leaf) (walkFuel d) d

/-- The pseudocode of R238: R236's body until the phase is DONE or a raise. -/
def runBody (d : Dec) : Ended Dec Bool := repeatUntil stepBody (fun d _ => d.phase = .done) (walkFuel d) d

/-- Forget a body's result. -/
def Ended.unit {σ α : Type} (x : Ended σ α) : Ended σ Unit := x.bind fun s _ => .ok s ()

/-- DINIT (R230): legal always, also under a latched error (60_exceptions.md R263, R264 step 2). -/
def execDinit (s : State) : Host.Outcome State Fault Refusal := .next (s.setDec s.dec.init)

/-- DHDR (R231). -/
def execDhdr (s : State) : Host.Outcome State Fault Refusal := decGate .dhdr dhdrBody s

/-- DSTEP (R236). -/
def execDstep (s : State) : Host.Outcome State Fault Refusal := decGate .dstep (fun d => (stepBody d).unit) s

/-- DSYMBOL (R237). -/
def execDsymbol (s : State) : Host.Outcome State Fault Refusal := decGate .dsymbol (fun d => (symbolBody d).unit) s

/-- DRUN (R238). -/
def execDrun (s : State) : Host.Outcome State Fault Refusal := decGate .drun (fun d => (runBody d).unit) s

/-- DCLOSE (R239): no port access. -/
def execDclose (s : State) : Host.Outcome State Fault Refusal :=
  decCloseGate .dclose (fun d => .ok { d with phase := .closed } ()) s

end Sys2Proof.Machine
end

