-- ==== Sys2Proof/Machine/Tree.lean ====
section
/-! DEFINITION. The priority-queue tree builder (41_tree.md R120 to R126), and EBUILD and DBUILD. -/

namespace Sys2Proof.Machine

/-- A LEAF slot: its weight is the count widened to 64 bits (R121, R124). -/
def leafNode (s : Symbol) (c : Count) : Node :=
  { kind := .leaf, sym := symbolField s, weight := c.setWidth 64, left := Config.noNode, right := Config.noNode }

/-- The null leaf (R123). -/
def nullLeafNode : Node :=
  { kind := .nullLeaf, sym := Config.noSym, weight := 0, left := Config.noNode, right := Config.noNode }

/-- An INTERNAL slot over the first node extracted, `x`, and the second, `y` (R121, R125). -/
def internalNode (a : Arena) (x y : NodeId) : Node :=
  { kind := .internal
    sym := Config.noSym
    weight := (a.slot x).weight + (a.slot y).weight
    left := x
    right := y }

/-- A build in progress: the arena and the queue `Q` of node ids, in no particular order (R121, R36). -/
structure Build where
  arena : Arena
  queue : List NodeId
  deriving DecidableEq, Repr

/-- Create a node with the next id and insert the id into `Q` (R121). -/
def Build.add (b : Build) (n : Node) : Build :=
  { arena := b.arena.push n, queue := b.arena.nnodes :: b.queue }

/-- The queue's order: by `(weight, id)`, compared lexicographically (R122). -/
def keyLess (a : Arena) (x y : NodeId) : Bool :=
  (a.slot x).weight < (a.slot y).weight || ((a.slot x).weight == (a.slot y).weight && x < y)

/-- The least of `m` and the ids of a list (R122). -/
def leastOf (a : Arena) : NodeId → List NodeId → NodeId
  | m, [] => m
  | m, x :: xs => leastOf a (if keyLess a x m then x else m) xs

/-- `extract-min`: the id with the least key, and the queue without it (R122). -/
def extractMin (a : Arena) : List NodeId → Option (NodeId × List NodeId)
  | [] => none
  | x :: xs => some (leastOf a x xs, (x :: xs).erase (leastOf a x xs))

/-- One leaf per symbol with a nonzero count, in ascending symbol order (R124). -/
def addLeaves (f : Table Count 257) : Build :=
  (List.finRange 257).foldl
    (fun b s => if f.get s = 0 then b else b.add (leafNode s (f.get s)))
    { arena := Arena.clear, queue := [] }

/-- The null leaf is added when exactly one node is queued (R123). -/
def addNullLeaf (b : Build) : Build := if b.queue.length = 1 then b.add nullLeafNode else b

/-- `while |Q| ≥ 2` (R121, R125): each round takes two ids out of `Q` and puts one in, so `|Q|` rounds are enough. -/
def mergeAll : Nat → Build → Build
  | 0, b => b
  | n + 1, b =>
    match extractMin b.arena b.queue with
    | none => b
    | some (x, q1) =>
      match extractMin b.arena q1 with
      | none => b
      | some (y, q2) => mergeAll n ({ arena := b.arena, queue := q2 : Build }.add (internalNode b.arena x y))

/-- `ROOT <- extract-min(Q)` (R121, R126). -/
def takeRoot (b : Build) : Option Arena :=
  match extractMin b.arena b.queue with
  | none => none
  | some (r, _) => some { b.arena with root := r }

/-- `TreeBuild(F)` (R121): the arena as a function of the table alone (R120). It gives none only for the table with no
nonzero count, which no build meets (R123). -/
def treeBuild (f : Table Count 257) : Option Arena :=
  let b := addNullLeaf (addLeaves f)
  takeRoot (mergeAll b.queue.length b)

/-- The pseudocode of R127. -/
def ebuildBody (e : Enc) : Ended Enc Unit :=
  match treeBuild e.freq with
  | none => .stuck .emptyTable
  | some a => .ok { e with arena := a, phase := .built } ()

/-- The pseudocode of R128. -/
def dbuildBody (d : Dec) : Ended Dec Unit :=
  match treeBuild d.freq with
  | none => .stuck .emptyTable
  | some a => .ok { d with arena := a, cur := a.root, phase := .ready } ()

/-- EBUILD (R127). -/
def execEbuild (s : State) : Host.Outcome State Fault Refusal := encGate .ebuild ebuildBody s

/-- DBUILD (R128). -/
def execDbuild (s : State) : Host.Outcome State Fault Refusal := decGate .dbuild dbuildBody s

end Sys2Proof.Machine
end

