-- ==== Sys2Proof/Machine/Dispatch.lean ====
section
/-! DEFINITION. What each command does, with the checks of 60_exceptions.md R264 that come before it: one arm per
constructor of Instr. -/

namespace Sys2Proof.Machine

def exec (i : Instr) (s : State) : Host.Outcome State Fault Refusal :=
  match i with
  | .einit => Sys2Proof.Machine.execEinit s
  | .ecount => Sys2Proof.Machine.execEcount s
  | .ecountall => Sys2Proof.Machine.execEcountall s
  | .efinal => Sys2Proof.Machine.execEfinal s
  | .ebuild => Sys2Proof.Machine.execEbuild s
  | .ederive => Sys2Proof.Machine.execEderive s
  | .ehdr => Sys2Proof.Machine.execEhdr s
  | .erewind => Sys2Proof.Machine.execErewind s
  | .esym => Sys2Proof.Machine.execEsym s
  | .esymall => Sys2Proof.Machine.execEsymall s
  | .eeos => Sys2Proof.Machine.execEeos s
  | .ewbit b => Sys2Proof.Machine.execEwbit b s
  | .eclose => Sys2Proof.Machine.execEclose s
  | .dinit => Sys2Proof.Machine.execDinit s
  | .dhdr => Sys2Proof.Machine.execDhdr s
  | .dbuild => Sys2Proof.Machine.execDbuild s
  | .drbit => Sys2Proof.Machine.execDrbit s
  | .dstep => Sys2Proof.Machine.execDstep s
  | .dsymbol => Sys2Proof.Machine.execDsymbol s
  | .drun => Sys2Proof.Machine.execDrun s
  | .dclose => Sys2Proof.Machine.execDclose s

end Sys2Proof.Machine
end

