-- ==== Sys2Proof/Machine/Step.lean ====
section
/-! DEFINITION. One step: HBS takes the next word the host writes to CMD and handles it whole (60_exceptions.md R264,
00_scope.md R11). -/

namespace Sys2Proof.Machine

/-- Take the next word of CMD, decode it and run it; an illegal word is ILLEGAL of its unit (R264). With no word written
the machine does nothing and every field keeps its value (60_exceptions.md R274). -/
def step (s : State) : Host.Outcome State Fault Refusal :=
  match nextWord s with
  | none => .next s
  | some (w, s) =>
    match decode w with
    | .command i => exec i s
    | .illegal u => .next (illegalWord u s)

/-- `s` with a table row's word as the next word the host writes to CMD (log 1). -/
def State.withFetchWord (s : State) (nbits w : Nat) : State := putWord (BitVec.ofNat 8 (w % 2 ^ nbits)) s

end Sys2Proof.Machine
end

