-- ==== Sys2Proof/Machine/Assembler.lean ====
section
/-! DEFINITION. The assembly syntax of HBS (30_encoding.md R88) and its pseudo-commands (R89): text to command words (log 12). -/

namespace Sys2Proof.Machine

/-- The mnemonic of a command (R83, R84). -/
def mnemonic : Instr → String
  | .einit => "EINIT"
  | .ecount => "ECOUNT"
  | .ecountall => "ECOUNTALL"
  | .efinal => "EFINAL"
  | .ebuild => "EBUILD"
  | .ederive => "EDERIVE"
  | .ehdr => "EHDR"
  | .erewind => "EREWIND"
  | .esym => "ESYM"
  | .esymall => "ESYMALL"
  | .eeos => "EEOS"
  | .ewbit _ => "EWBIT"
  | .eclose => "ECLOSE"
  | .dinit => "DINIT"
  | .dhdr => "DHDR"
  | .dbuild => "DBUILD"
  | .drbit => "DRBIT"
  | .dstep => "DSTEP"
  | .dsymbol => "DSYMBOL"
  | .drun => "DRUN"
  | .dclose => "DCLOSE"

/-- The commands that take no operand. -/
def plainCommands : List Instr :=
  [.einit, .ecount, .ecountall, .efinal, .ebuild, .ederive, .ehdr, .erewind, .esym, .esymall, .eeos, .eclose, .dinit,
    .dhdr, .dbuild, .drbit, .dstep, .dsymbol, .drun, .dclose]

/-- A line without its comment: `;` starts one that runs to the end of the line (R88). -/
def dropComment (l : List Char) : List Char := l.takeWhile (· != ';')

/-- A line without its label: a line may begin with `name:` (R88). -/
def dropLabel (l : List Char) : List Char := if l.contains ':' then (l.dropWhile (· != ':')).drop 1 else l

/-- The words of a line, parted by blanks; `cur` is the word being read. -/
def fieldsFrom : List Char → List Char → List (List Char)
  | cur, [] => if cur.isEmpty then [] else [cur]
  | cur, c :: cs =>
    if c == ' ' || c == '\t' then (if cur.isEmpty then fieldsFrom [] cs else cur :: fieldsFrom [] cs)
    else fieldsFrom (cur ++ [c]) cs

/-- The commands a line's words stand for: none for an empty line, the expansion for a pseudo-command (R89), and no answer
for a line that is no command. -/
def asmFields (ws : List (List Char)) : Option (List Instr) :=
  match ws with
  | [] => some []
  | [m] =>
    if m == "ENCODE".toList then some encodeExpansion
    else if m == "DECODE".toList then some decodeExpansion
    else (plainCommands.find? fun i => m == (mnemonic i).toList).map fun i => [i]
  | [m, b] =>
    if m == "EWBIT".toList then
      if b == ['0'] then some [.ewbit false] else if b == ['1'] then some [.ewbit true] else none
    else none
  | _ :: _ :: _ :: _ => none

/-- One line of assembly text. -/
def asmLine (l : List Char) : Option (List Instr) := asmFields (fieldsFrom [] (dropLabel (dropComment l)))

/-- A program's lines: the words to write to CMD, in order (R88). -/
def assemble : List (List Char) → Option (List Byte)
  | [] => some []
  | l :: ls =>
    match asmLine l, assemble ls with
    | some is, some ws => some (encodeWords is ++ ws)
    | _, _ => none

end Sys2Proof.Machine
end

