-- ==== Sys2Proof/Machine/HostPort.lean ====
section
/-! DEFINITION. What the host does to HBS (60_exceptions.md R271, R275): it loads a source port, writes CMD, reads the
inspection port, answers `ioFault`, moves an artifact and drives the reset input. A model has no step for it (R275), so these
are functions on State beside the step. A source set in the middle of an operation is refused (20_memory.md R61; log 11). -/

namespace Sys2Proof.Machine

/-- A field of ENC that the inspection port shows (10_state.md R20, R38). -/
inductive EncField where
  | phase
  | err
  | eoi
  | freq (s : Symbol)
  | node (i : Fin 513)
  | nnodes
  | root
  | code (s : Symbol)
  | acc
  | nbits
  | src
  | rp
  | dst
  deriving DecidableEq, Repr

/-- A field of DEC that the inspection port shows (R21, R38). -/
inductive DecField where
  | phase
  | err
  | eoi
  | lastBit
  | freq (s : Symbol)
  | node (i : Fin 513)
  | nnodes
  | root
  | cur
  | buf
  | cnt
  | src
  | rp
  | dst
  deriving DecidableEq, Repr

/-- A readable register of HBS: the two status registers (R25) and the inspection port (R38). CMD cannot be read (R24). -/
inductive HostReg where
  | encStatus
  | decStatus
  | enc (f : EncField)
  | dec (f : DecField)
  deriving DecidableEq, Repr

/-- What a read shows: a field of so many bits, an arena slot, a code or NONE, a port's bytes, a port offset. -/
inductive FieldValue where
  | bits (width value : Nat)
  | slot (kind sym weight left right : Nat)
  | code (c : Option Bits)
  | bytes (l : List Byte)
  | offset (n : Nat)
  deriving DecidableEq, Repr

/-- An arena slot as the inspection port shows it, its five fields as numbers (R31). -/
def slotValue (n : Node) : FieldValue := .slot n.kind.bits.toNat n.sym.toNat n.weight.toNat n.left.toNat n.right.toNat

/-- The inspection port on ENC. -/
def inspectEnc (f : EncField) (e : Enc) : FieldValue :=
  match f with
  | .phase => .bits 4 e.phase.bits.toNat
  | .err => .bits 4 e.err.bits.toNat
  | .eoi => .bits 1 e.eoi.toNat
  | .freq s => .bits 32 (e.freq.get s).toNat
  | .node i => slotValue (e.arena.node.get i)
  | .nnodes => .bits 10 e.arena.nnodes.toNat
  | .root => .bits 10 e.arena.root.toNat
  | .code s => .code (e.code.get s)
  | .acc => .bits 8 e.acc.toNat
  | .nbits => .bits 3 e.nbits.toNat
  | .src => .bytes e.port.src
  | .rp => .offset e.port.rp
  | .dst => .bytes e.port.dst

/-- The inspection port on DEC. -/
def inspectDec (f : DecField) (d : Dec) : FieldValue :=
  match f with
  | .phase => .bits 4 d.phase.bits.toNat
  | .err => .bits 4 d.err.bits.toNat
  | .eoi => .bits 1 d.eoi.toNat
  | .lastBit => .bits 1 d.lastBit.toNat
  | .freq s => .bits 32 (d.freq.get s).toNat
  | .node i => slotValue (d.arena.node.get i)
  | .nnodes => .bits 10 d.arena.nnodes.toNat
  | .root => .bits 10 d.arena.root.toNat
  | .cur => .bits 10 d.cur.toNat
  | .buf => .bits 8 d.buf.toNat
  | .cnt => .bits 4 d.cnt.val
  | .src => .bytes d.port.src
  | .rp => .offset d.port.rp
  | .dst => .bytes d.port.dst

/-- A read by the host: the value, and the machine, which a read does not change (R38). -/
def hostRead (r : HostReg) (s : State) : FieldValue × State :=
  match r with
  | .encStatus => (.bits 16 s.enc.status.toNat, s)
  | .decStatus => (.bits 16 s.dec.status.toNat, s)
  | .enc f => (inspectEnc f s.enc, s)
  | .dec f => (inspectDec f s.dec, s)

/-- What the host does (R275), and the reset input (70_reset_and_hazards.md R300). -/
inductive HostEvent where
  /-- Set `U.SRC` to a finite byte sequence; `hostStep` refuses it in the middle of an operation. -/
  | load (u : UnitId) (bytes : List Byte)
  /-- Write a byte to CMD. -/
  | write (w : Byte)
  /-- Fix the answer to one more of the unit's coming port accesses. -/
  | answer (u : UnitId) (fails : Bool)
  /-- Copy `ENC.DST` into `DEC.SRC`. -/
  | moveArtifact
  /-- Drive the reset input, which resets both units at once. -/
  | reset
  deriving DecidableEq, Repr

/-- The port with its source set by the host. Its `RP` stays, also where the new source is shorter: the model's choice (DESIGN
CHOICE, log 14), since R34 and R39 bound `RP` and no rule moves it when a source is set. -/
def Port.load (bytes : List Byte) (p : Port) : Port := { p with src := bytes }

/-- The port with one more answer fixed by the host. -/
def Port.answer (fails : Bool) (p : Port) : Port :=
  { p with io := { p.io with answers := p.io.answers ++ [fails] } }

/-- The reset input (R300): every field of both units takes its reset value; what the outside world has yet to say (its
words, its answers) is no field of a unit and stays (log 2). -/
def resetUnits (s : State) : State :=
  { enc := { Enc.reset with port := { Port.reset with io := s.enc.port.io } }
    dec := { Dec.reset with port := { Port.reset with io := s.dec.port.io } }
    cmd := s.cmd }

/-- What the host does, before HBS answers a word. Setting the source of a CLOSED unit leaves its `RP` and EOI as they are
until the next INIT (DESIGN CHOICE, log 14). -/
def hostAct (ev : HostEvent) (s : State) : State :=
  match ev with
  | .load .enc bytes => s.setEnc { s.enc with port := s.enc.port.load bytes }
  | .load .dec bytes => s.setDec { s.dec with port := s.dec.port.load bytes }
  | .write w => putWord w s
  | .answer .enc fails => s.setEnc { s.enc with port := s.enc.port.answer fails }
  | .answer .dec fails => s.setDec { s.dec with port := s.dec.port.answer fails }
  | .moveArtifact => s.setDec { s.dec with port := s.dec.port.load s.enc.port.dst }
  | .reset => resetUnits s

/-- Whether a unit's operation uses its source port, which the host must then leave alone (20_memory.md R61,
60_exceptions.md R275; log 11). An operation is the unit's INIT and the commands after it (70_reset_and_hazards.md R303). -/
inductive SourceUse where
  /-- No operation is under way: after reset, after the host has set the source, once the unit is CLOSED. -/
  | idle
  /-- No INIT has been written since, but the unit has run a command: an operation begun from the reset state (40_frequency.md
  R105 "reset or EINIT") or on a source with no INIT of its own. -/
  | begun
  /-- The unit's INIT has begun an operation. -/
  | held
  /-- A further INIT has ended that operation, and the unit has run no command since. -/
  | renewed
  deriving DecidableEq, Repr

/-- Whether the source must be left alone. -/
def SourceUse.inUse : SourceUse → Bool
  | .idle => false
  | .begun => true
  | .held => true
  | .renewed => false

/-- The use of a source after a word to its unit: `init` says that the word was the unit's INIT, `ran` that it was another
command that ran, `closed` that the unit is now CLOSED. A word that runs no command leaves the use as it was. -/
def SourceUse.afterWord (use : SourceUse) (init ran closed : Bool) : SourceUse :=
  if closed then .idle
  else if init then
    match use with
    | .idle => .held
    | .begun => .held
    | .held => .renewed
    | .renewed => .renewed
  else if ran then
    match use with
    | .idle => .begun
    | .begun => .begun
    | .held => .held
    | .renewed => .held
  else use

/-- Whether a word is a command that gets past the checks of its unit (60_exceptions.md R264 steps 3 to 5): no error latched,
a legal word, a legal phase. -/
def wordRuns (w : Byte) (s : State) : Bool :=
  match decode w with
  | .illegal _ => false
  | .command i =>
    match i.unit with
    | .enc => s.enc.err = .none && phaseLegal i s
    | .dec => s.dec.err = .none && phaseLegal i s

/-- The use of both sources. -/
structure SourceUses where
  enc : SourceUse
  dec : SourceUse
  deriving DecidableEq, Repr

/-- No source is in use: how a session begins. -/
def SourceUses.idle : SourceUses := { enc := .idle, dec := .idle }

/-- The use of both sources after something the host did, `s` being the machine before and `t` the machine afterwards. -/
def SourceUses.next (use : SourceUses) (ev : HostEvent) (s t : State) : SourceUses :=
  match ev with
  | .load .enc _ => { use with enc := .idle }
  | .load .dec _ => { use with dec := .idle }
  | .moveArtifact => { use with dec := .idle }
  | .write w =>
    match wordUnit w with
    | .enc =>
      { use with enc := use.enc.afterWord (decode w = .command .einit) (wordRuns w s) (t.enc.phase = .closed) }
    | .dec =>
      { use with dec := use.dec.afterWord (decode w = .command .dinit) (wordRuns w s) (t.dec.phase = .closed) }
  | .answer _ _ => use
  | .reset => .idle

/-- Setting a source port: refused while an operation uses it, as 93_implementation_defined.md I17 says ("`refuse`: the model
has no such step, and a run that does it is outside the model"). -/
def setSource (u : UnitId) (use : SourceUse) (t : State) : Host.Outcome State Fault Refusal :=
  if use.inUse then .refused (.sourceInUse u) else .next t

/-- One thing the host does, with what HBS then does: a word written to CMD is handled before the host goes on (R275
"wait for the previous command", 70_reset_and_hazards.md R310); nothing else takes a step. -/
def hostStep (use : SourceUses) (ev : HostEvent) (s : State) : Host.Outcome State Fault Refusal :=
  match ev with
  | .write w => step (putWord w s)
  | .load .enc _ => setSource .enc use.enc (hostAct ev s)
  | .load .dec _ => setSource .dec use.dec (hostAct ev s)
  | .moveArtifact => setSource .dec use.dec (hostAct ev s)
  | .answer _ _ => .next (hostAct ev s)
  | .reset => .next (hostAct ev s)

/-- A session of the host, going on from a use of the sources. -/
def hostRunFrom (use : SourceUses) : List HostEvent → State → Host.Outcome State Fault Refusal
  | [], s => .next s
  | ev :: evs, s =>
    match hostStep use ev s with
    | .next t => hostRunFrom (use.next ev s t) evs t
    | .fault f => .fault f
    | .refused r => .refused r

/-- A whole session of the host, begun with no source in use. -/
def hostRun (evs : List HostEvent) (s : State) : Host.Outcome State Fault Refusal := hostRunFrom .idle evs s

/-- The host writes a command sequence, word by word (30_encoding.md R88). -/
def writeProgram (is : List Instr) : List HostEvent := (encodeWords is).map .write

end Sys2Proof.Machine
end

