-- ==== Sys2Proof/Safety.lean ====
section
/-! DEFINITION. The words claims are made in: the end of a run and its outcome (60_exceptions.md R276), the host's duties
(20_memory.md R61), accesses that do not fail, and the invariant of the machine between commands (10_state.md R39). -/

namespace Sys2Proof.Safety

open Sys2Proof.Machine

/-- A run of ENC has ended (R276). -/
def encEnded (s : State) : Bool := s.enc.phase = .closed

/-- A run of DEC has ended (R276). -/
def decEnded (s : State) : Bool := s.dec.phase = .closed

/-- The outcome of a run of ENC, the pair (`ENC.ERR`, `ENC.DST`) (R276). -/
def encOutcome (s : State) : ErrCode × List Byte := (s.enc.err, s.enc.port.dst)

/-- The outcome of a run of DEC (R276). -/
def decOutcome (s : State) : ErrCode × List Byte := (s.dec.err, s.dec.port.dst)

/-- Both ports hold no more than the platform's `PORT_LEN_MAX` (00_scope.md R7; log 3). -/
def portFits (p : Port) : Prop := p.src.length ≤ Config.portLenMax ∧ p.dst.length ≤ Config.portLenMax

/-- After a unit's source port is set, the first command the host writes to that unit is its INIT (70_reset_and_hazards.md
R303: the source, the INIT, then the operation's commands; an illegal word is no command). `e` and `d` say whether ENC and
DEC wait for their INIT. -/
def initFirstFrom (e d : Bool) : List HostEvent → Bool
  | [] => true
  | .load .enc _ :: evs => initFirstFrom true d evs
  | .load .dec _ :: evs => initFirstFrom e true evs
  | .moveArtifact :: evs => initFirstFrom e true evs
  | .answer _ _ :: evs => initFirstFrom e d evs
  | .reset :: evs => initFirstFrom false false evs
  | .write w :: evs =>
    match decode w with
    | .illegal _ => initFirstFrom e d evs
    | .command i =>
      match i.unit with
      | .enc => (!e || i = .einit) && initFirstFrom false d evs
      | .dec => (!d || i = .dinit) && initFirstFrom e false evs

/-- The host keeps its duties about source ports in a session on the machine `s`: it sets none in the middle of an operation,
which `hostStep` refuses, and INIT is the first command it writes after it has set one. -/
def Dutiful (s : State) (evs : List HostEvent) : Prop :=
  (∃ t, hostRun evs s = .next t) ∧ initFirstFrom false false evs = true

/-- None of the unit's next `n` port accesses fails, wherever they go (92_eei_decisions.md D17: "a claim of success must
assume no fault"). -/
def Calm (u : UnitId) (n : Nat) (io : IoInput) : Prop :=
  ∀ j, j < n → ∀ (d : Dir) (off : Nat), io.answerAt u d off j = false

/-- The answers after `n` more accesses. -/
def ioAfter (n : Nat) (io : IoInput) : IoInput := { answers := io.answers.drop n, draws := io.draws + n }

/-- The number a bit string writes, its first bit the most significant. -/
def bitsValue (c : Bits) : Nat := c.foldl (fun n b => 2 * n + b.toNat) 0

/-- Up to eight bits in bits 7 down to 0 of a byte, the missing bits 0 (43_bitwriter.md R164). -/
def byteOfBits (c : Bits) : Byte := BitVec.ofNat 8 (bitsValue c * 2 ^ (8 - c.length))

/-- Byte `j` of the packing of a bit string: it holds `c[8j] .. c[8j+7]` (R164). -/
def packedByte (c : Bits) (j : Nat) : Byte := byteOfBits ((c.drop (8 * j)).take 8)

/-- The bytes a bit string fills completely. -/
def wholeBytes (c : Bits) : List Byte := (List.range (c.length / 8)).map (packedByte c)

/-- The bits past the last byte a bit string fills completely. -/
def leftBits (c : Bits) : Bits := c.drop (8 * (c.length / 8))

/-- `Pack`: the `ceil(m/8)` bytes of a bit string of `m` bits (R164, 45_encoder.md R201). -/
def packBytes (c : Bits) : List Byte := (List.range ((c.length + 7) / 8)).map (packedByte c)

/-- The `k` bits held in an accumulator, the earliest first: it is in bit `k - 1` (R161). -/
def heldBits (acc : BitVec 8) (k : Nat) : Bits := (List.range k).map fun j => acc.getLsbD (k - 1 - j)

/-- The eight bits of a byte in the order the reader returns them, bit 7 first (20_memory.md R65, 44_bitreader.md R180). -/
def byteBits (b : Byte) : Bits := (List.range 8).map fun j => b.getLsbD (7 - j)

/-- The bits DEC has still to return: what is left of its buffered byte, then the rest of its source (10_state.md R37). -/
def unread (d : Dec) : Bits := (byteBits d.buf).drop d.cnt.val ++ (d.port.src.drop d.port.rp).flatMap byteBits

/-- ReadBit returns the bit `b` and leaves `d'` (44_bitreader.md R180): bit `7 - CNT` of `BUF` while `CNT < 8`, and when
`CNT = 8` bit 7 of the byte at `RP`, which refills `BUF`, its read not failing. -/
def ReadsBit (d d' : Dec) (b : Bool) : Prop :=
  (∃ h : d.cnt.val < 8, b = d.buf.getLsbD (7 - d.cnt.val) ∧ d' = { d with cnt := ⟨d.cnt.val + 1, by omega⟩ }) ∨
  ∃ v : Byte, d.cnt = 8 ∧ d.port.src[d.port.rp]? = some v ∧ d.port.io.answerAt .dec .read d.port.rp 0 = false ∧
    b = v.getLsbD 7 ∧
    d' = { d with buf := v, cnt := 1, port := { d.port with rp := d.port.rp + 1, io := d.port.io.tick } }

/-- `n` calls of ReadBit, and the bits they return; the end of the source ends them early, with fewer bits. -/
def readBits : Nat → Dec → Ended Dec Bits
  | 0, d => .ok d []
  | n + 1, d =>
    (readBit d).bind fun d r =>
      match r with
      | none => .ok d []
      | some b => (readBits n d).bind fun d bs => .ok d (b :: bs)

/-- How far DEC has read, in bits: each bit read moves it by one. -/
def bitPos (d : Dec) : Nat := 8 * d.port.rp + d.cnt.val

/-- The number of LEAF and NULLLEAF slots of an arena (R39). -/
def leafCount (a : Arena) : Nat := a.node.cells.countP fun n => n.kind = .leaf ∨ n.kind = .nullLeaf

/-- `j` is an INTERNAL slot with child `i`. -/
def IsParent (a : Arena) (j i : Nat) : Prop :=
  (a.slotAt j).kind = .internal ∧ ((a.slotAt j).left.toNat = i ∨ (a.slotAt j).right.toNat = i)

/-- The arena holds a full binary tree over the symbols of `f` with a nonzero count (10_state.md R39, 41_tree.md R123 to
R129). -/
structure TreeOf (f : Table Count 257) (a : Arena) : Prop where
  root_last : a.root.toNat + 1 = a.nnodes.toNat
  root_internal : (a.slot a.root).kind = .internal
  leaves_ge : 2 ≤ leafCount a
  leaves_le : leafCount a ≤ 257
  size_eq : a.nnodes.toNat + 1 = 2 * leafCount a
  leaves_first : ∀ i, i < a.nnodes.toNat → ((a.slotAt i).kind = .internal ↔ leafCount a ≤ i)
  unused_above : ∀ i, a.nnodes.toNat ≤ i → a.slotAt i = Node.unused
  used_below : ∀ i, i < a.nnodes.toNat → (a.slotAt i).kind ≠ .empty
  internal_node : ∀ i, i < a.nnodes.toNat → (a.slotAt i).kind = .internal →
    (a.slotAt i).left.toNat < i ∧ (a.slotAt i).right.toNat < i ∧ (a.slotAt i).left ≠ (a.slotAt i).right ∧
      (a.slotAt i).weight = (a.slot (a.slotAt i).left).weight + (a.slot (a.slotAt i).right).weight ∧
      (a.slotAt i).sym = Config.noSym
  leaf_node : ∀ i, i < a.nnodes.toNat → (a.slotAt i).kind = .leaf →
    ∃ s, f.get s ≠ 0 ∧ a.slotAt i = leafNode s (f.get s)
  null_node : ∀ i, i < a.nnodes.toNat → (a.slotAt i).kind = .nullLeaf → a.slotAt i = nullLeafNode
  leaf_of : ∀ s, f.get s ≠ 0 → ∃ i, i < a.nnodes.toNat ∧ a.slotAt i = leafNode s (f.get s)
  leaf_unique : ∀ i j, (a.slotAt i).kind = .leaf → a.slotAt i = a.slotAt j → i = j
  parent : ∀ i, i < a.root.toNat → ∃ j, j ≤ a.root.toNat ∧ IsParent a j i
  parent_unique : ∀ i j k, IsParent a j i → IsParent a k i → j = k

/-- Slot `j` was in the queue when node `i` was made: it existed, and no earlier node had it as a child (R121). -/
def Waiting (a : Arena) (i j : Nat) : Prop := j < i ∧ ∀ k, k < i → ¬ IsParent a k j

/-- The queue's order on slots: by weight, then by id (41_tree.md R122). -/
def KeyBefore (a : Arena) (j k : Nat) : Prop :=
  (a.slotAt j).weight.toNat < (a.slotAt k).weight.toNat ∨
    ((a.slotAt j).weight.toNat = (a.slotAt k).weight.toNat ∧ j < k)

/-- Node `i` was merged from the two least nodes in the queue, the least as its left child and the next as its right
(R125). -/
structure MergedLeast (a : Arena) (i : Nat) : Prop where
  left_waits : Waiting a i (a.slotAt i).left.toNat
  right_waits : Waiting a i (a.slotAt i).right.toNat
  left_least : ∀ j, Waiting a i j → j ≠ (a.slotAt i).left.toNat → KeyBefore a (a.slotAt i).left.toNat j
  right_next : ∀ j, Waiting a i j → j ≠ (a.slotAt i).left.toNat → j ≠ (a.slotAt i).right.toNat →
    KeyBefore a (a.slotAt i).right.toNat j

/-- The arena is the one R121 makes from `f`: its leaves are in ascending symbol order (R124), it has a null leaf exactly
when the sentinel's is the only nonzero count, made right after the sentinel's leaf (R121, R123), and every INTERNAL node is
the merge of the two least nodes of the queue it was made from (R125). -/
structure BuiltFrom (f : Table Count 257) (a : Arena) : Prop where
  leaves_sorted : ∀ i j, i < j → (a.slotAt i).kind = .leaf → (a.slotAt j).kind = .leaf →
    (a.slotAt i).sym.toNat < (a.slotAt j).sym.toNat
  null_iff : (∃ i, (a.slotAt i).kind = .nullLeaf) ↔ ∀ s, f.get s ≠ 0 → s = sentinel
  null_second : ∀ i, (a.slotAt i).kind = .nullLeaf → i = 1
  merged : ∀ i, (a.slotAt i).kind = .internal → MergedLeast a i

/-- The path `p` leads from node `n` to node `m`: each bit of it leaves an INTERNAL node, by the left child on 0 and the right
child on 1 (42_codetable.md R141, 46_decoder.md R234). -/
def LeadsTo (a : Arena) : NodeId → Bits → NodeId → Prop
  | n, [], m => n = m
  | n, b :: bs, m => (a.slot n).kind = .internal ∧ LeadsTo a (childOf a n b) bs m

/-- Every code is of length 1 to 256, and a symbol has a code exactly when its count is not 0 (10_state.md R39, R33). -/
def Coded (f : Table Count 257) (c : Table (Option Bits) 257) : Prop :=
  ∀ s, ((c.get s).isSome = true ↔ f.get s ≠ 0) ∧ ∀ p, c.get s = some p → 1 ≤ p.length ∧ p.length ≤ 256

/-- The tables of ENC while the frequency table is open: no tree, no code, the sentinel not counted (R39). -/
def EncOpen (e : Enc) : Prop := e.freq.get sentinel = 0 ∧ e.arena = Arena.clear ∧ e.code = noCodes

/-- The tables of ENC between EFINAL and EBUILD. -/
def EncFrozen (e : Enc) : Prop := e.freq.get sentinel = 1 ∧ e.arena = Arena.clear ∧ e.code = noCodes

/-- The tables of ENC between EBUILD and EDERIVE. -/
def EncTreed (e : Enc) : Prop := e.freq.get sentinel = 1 ∧ TreeOf e.freq e.arena ∧ e.code = noCodes

/-- The tables of ENC once EDERIVE has completed. -/
def EncCoded (e : Enc) : Prop := e.freq.get sentinel = 1 ∧ TreeOf e.freq e.arena ∧ Coded e.freq e.code

/-- What the tables of ENC hold in each phase (R39). -/
def EncTables (e : Enc) : Prop :=
  match e.phase with
  | .count => EncOpen e
  | .final => EncFrozen e
  | .built => EncTreed e
  | .ready | .payload | .ended => EncCoded e
  | .closed => EncOpen e ∨ EncFrozen e ∨ EncTreed e ∨ EncCoded e

/-- The errors a command of ENC can latch (60_exceptions.md R261). -/
def encErrors : List ErrCode := [.none, .io, .illegal, .sequence, .overflow, .nocode]

/-- The errors a command of DEC can latch (60_exceptions.md R261). -/
def decErrors : List ErrCode := [.none, .io, .format, .truncated, .illegal, .sequence, .corrupt]

/-- ENC between two commands (10_state.md R39): `RP` is inside the source and at its end once EOI is set, the bits of `ACC`
that are not held are 0 (43_bitwriter.md R161), no bit is held once CLOSED, and the tables are those of the phase. -/
structure EncInv (e : Enc) : Prop where
  rp_le : e.port.rp ≤ e.port.src.length
  eoi_end : e.eoi = true → e.port.rp = e.port.src.length
  err_own : e.err ∈ encErrors
  acc_held : e.acc.toNat < 2 ^ e.nbits.toNat
  closed_flushed : e.phase = .closed → e.nbits = 0
  tables : EncTables e

/-- DEC before DBUILD: no tree, no position, no bit read, nothing written (R37, R39, 46_decoder.md R233). -/
def DecBare (d : Dec) : Prop :=
  d.arena = Arena.clear ∧ d.cur = Config.noNode ∧ d.cnt = 8 ∧ d.port.dst = []

/-- DEC once DBUILD has completed: the walker stands on a slot of the tree (R32). -/
def DecTreed (d : Dec) : Prop :=
  d.freq.get sentinel = 1 ∧ TreeOf d.freq d.arena ∧ d.cur.toNat < d.arena.nnodes.toNat

/-- What the tables of DEC hold in each phase (R39), and where the walker stands (46_decoder.md R235). -/
def DecTables (d : Dec) : Prop :=
  match d.phase with
  | .empty => (∀ s, d.freq.get s = 0) ∧ DecBare d
  | .loaded => d.freq.get sentinel = 1 ∧ DecBare d
  | .ready => DecTreed d ∧ (d.err = .none → (d.arena.slot d.cur).kind = .internal)
  | .done => DecTreed d ∧ d.arena.slot d.cur = leafNode sentinel 1
  | .closed => DecBare d ∨ DecTreed d

/-- DEC between two commands (10_state.md R39). -/
structure DecInv (d : Dec) : Prop where
  rp_le : d.port.rp ≤ d.port.src.length
  eoi_end : d.eoi = true → d.port.rp = d.port.src.length
  err_own : d.err ∈ decErrors
  tables : DecTables d

/-- The machine between two commands (10_state.md R39). -/
structure Inv (s : State) : Prop where
  enc : EncInv s.enc
  dec : DecInv s.dec

end Sys2Proof.Safety
end

