-- ==== Sys2Proof/Certificates/Slice0/Obligations.lean ====
section
/-! DEFINITION. The statements about HBS that the provers are to settle. Each says which rule of spec/ it formalises. -/

open Sys2Proof Sys2Proof.Machine Sys2Proof.Safety

/-! ### Encoding -/

/-- 30_encoding.md R80 to R87: a word decodes to a command exactly when it is the word of that command, so the decoder and
the encoder agree in both directions and no bit of a word is dropped. -/
def Obligations.DecodeInvertsEncode : Prop :=
  ∀ (w : Byte) (i : Instr), decode w = .command i ↔ encode i = w

/-- 30_encoding.md R83, R84: the words of the two opcode tables decode to their commands, and the reserved opcodes to
ILLEGAL of their unit. -/
def Obligations.OpcodeTableWordsDecode : Prop :=
  (decode 0x00 = .command .einit ∧ decode 0x08 = .command .ecount ∧ decode 0x10 = .command .ecountall ∧
    decode 0x18 = .command .efinal ∧ decode 0x20 = .command .ebuild ∧ decode 0x28 = .command .ederive ∧
    decode 0x30 = .command .ehdr ∧ decode 0x38 = .command .erewind ∧ decode 0x40 = .command .esym ∧
    decode 0x48 = .command .esymall ∧ decode 0x50 = .command .eeos ∧ decode 0x58 = .command (.ewbit false) ∧
    decode 0x59 = .command (.ewbit true) ∧ decode 0x60 = .command .eclose) ∧
  (decode 0x80 = .command .dinit ∧ decode 0x88 = .command .dhdr ∧ decode 0x90 = .command .dbuild ∧
    decode 0x98 = .command .drbit ∧ decode 0xA0 = .command .dstep ∧ decode 0xA8 = .command .dsymbol ∧
    decode 0xB0 = .command .drun ∧ decode 0xB8 = .command .dclose) ∧
  (decode 0x68 = .illegal .enc ∧ decode 0x70 = .illegal .enc ∧ decode 0x78 = .illegal .enc ∧
    decode 0xC0 = .illegal .dec ∧ decode 0xC8 = .illegal .dec ∧ decode 0xD0 = .illegal .dec ∧
    decode 0xD8 = .illegal .dec ∧ decode 0xE0 = .illegal .dec ∧ decode 0xE8 = .illegal .dec ∧
    decode 0xF0 = .illegal .dec ∧ decode 0xF8 = .illegal .dec)

/-- 30_encoding.md R85: a word is a command exactly when its opcode is not reserved, `RES` is 0 and `B` is 0 outside EWBIT;
exactly 22 words are; and the step that takes an illegal word changes nothing but `U.ERR` of the unit bit 7 names, which
becomes ILLEGAL if no error is latched (60_exceptions.md R264). -/
def Obligations.IllegalWordsOnlyLatchIllegal : Prop :=
  (∀ w : Byte, (∃ i, decode w = .command i) ↔
    ((w.getLsbD 7 = false → (w.toNat / 8) % 16 < 13) ∧ (w.getLsbD 7 = true → (w.toNat / 8) % 16 < 8) ∧
      w.getLsbD 1 = false ∧ w.getLsbD 2 = false ∧
      (w.getLsbD 0 = true → w.getLsbD 7 = false ∧ (w.toNat / 8) % 16 = 11))) ∧
  ((List.range 256).filter fun n => (decodeWord (BitVec.ofNat 8 n)).isSome).length = 22 ∧
  ∀ (w : Byte) (s : State), (∀ i, decode w ≠ .command i) →
    step (putWord w s) = .next
      (if w.getLsbD 7 then
        { s with dec := { s.dec with err := if s.dec.err = .none then .illegal else s.dec.err } }
      else { s with enc := { s.enc with err := if s.enc.err = .none then .illegal else s.enc.err } })

/-- 30_encoding.md R88, R89: the assembly text `ECOUNTALL` is the word 0x10, `EWBIT 1` is 0x59, `DRUN` is 0xB0; the
pseudo-commands expand to their word sequences; a label and a comment add no word; and every command's own text gives its word.
That leading and doubled blanks only part a line's words, and that a line with nothing but a comment gives no word, is the
model's choice where R88 does not say (log 12). -/
def Obligations.AssemblyGivesTheCommandWords : Prop :=
  assemble ["ECOUNTALL".toList] = some [0x10] ∧ assemble ["EWBIT 1".toList] = some [0x59] ∧
  assemble ["DRUN".toList] = some [0xB0] ∧
  assemble ["ENCODE".toList] = some [0x00, 0x10, 0x18, 0x20, 0x28, 0x30, 0x38, 0x48, 0x50, 0x60] ∧
  assemble ["DECODE".toList] = some [0x80, 0x88, 0x90, 0xB0, 0xB8] ∧
  assemble ["loop: ECOUNT ; count".toList, "; nothing".toList, "  EWBIT  0".toList] = some [0x08, 0x58] ∧
  assemble ["EWBIT 2".toList] = none ∧ assemble ["ecount".toList] = none ∧
  ∀ i : Instr, (∀ b, i ≠ .ewbit b) → assemble [(mnemonic i).toList] = some [encode i]

/-! ### The step, the status registers, reset -/

/-- 60_exceptions.md R264, 00_scope.md R11: when the next word the host writes decodes to a command, the step is that
command, whole, on the machine with the word taken from the host's words (the model's field `cmd`, log 1). -/
def Obligations.StepRunsTheDecodedCommand : Prop :=
  ∀ (s : State) (w : Byte) (rest : List Byte) (i : Instr), s.cmd = w :: rest → decode w = .command i →
    step s = exec i { s with cmd := rest }

/-- 60_exceptions.md R274: with no word written, a step changes nothing (the model's choice of what an idle step is, log 1). -/
def Obligations.StepWithoutWordChangesNothing : Prop :=
  ∀ s : State, s.cmd = [] → step s = .next s

/-- 10_state.md R25: the two status registers hold PHASE in [3:0], EOI in [4], LASTBIT in [5] (0 for ENC), 0 for BUSY in [6],
0 in [7], ERR in [11:8] and 0 in [15:12]; the phases of ENC are numbered 0 COUNT to 6 CLOSED (R26), those of DEC 0 EMPTY to
4 CLOSED (R27), and the errors 0 NONE to 8 CORRUPT (60_exceptions.md R261). -/
def Obligations.StatusRegistersShowTheFields : Prop :=
  (∀ e : Enc, e.status.extractLsb' 0 4 = e.phase.bits ∧ e.status.getLsbD 4 = e.eoi ∧ e.status.getLsbD 5 = false ∧
    e.status.getLsbD 6 = false ∧ e.status.getLsbD 7 = false ∧ e.status.extractLsb' 8 4 = e.err.bits ∧
    e.status.extractLsb' 12 4 = 0) ∧
  (∀ d : Dec, d.status.extractLsb' 0 4 = d.phase.bits ∧ d.status.getLsbD 4 = d.eoi ∧ d.status.getLsbD 5 = d.lastBit ∧
    d.status.getLsbD 6 = false ∧ d.status.getLsbD 7 = false ∧ d.status.extractLsb' 8 4 = d.err.bits ∧
    d.status.extractLsb' 12 4 = 0) ∧
  (EncPhase.count.bits = 0 ∧ EncPhase.final.bits = 1 ∧ EncPhase.built.bits = 2 ∧ EncPhase.ready.bits = 3 ∧
    EncPhase.payload.bits = 4 ∧ EncPhase.ended.bits = 5 ∧ EncPhase.closed.bits = 6) ∧
  (DecPhase.empty.bits = 0 ∧ DecPhase.loaded.bits = 1 ∧ DecPhase.ready.bits = 2 ∧ DecPhase.done.bits = 3 ∧
    DecPhase.closed.bits = 4) ∧
  (ErrCode.none.bits = 0 ∧ ErrCode.io.bits = 1 ∧ ErrCode.format.bits = 2 ∧ ErrCode.truncated.bits = 3 ∧
    ErrCode.illegal.bits = 4 ∧ ErrCode.sequence.bits = 5 ∧ ErrCode.overflow.bits = 6 ∧ ErrCode.nocode.bits = 7 ∧
    ErrCode.corrupt.bits = 8) ∧
  State.reset.enc.status = 0x0000 ∧ State.reset.dec.status = 0x0000

/-- 70_reset_and_hazards.md R300: the value of every field of both units after reset, and the reset input brings every field
of both units to it at once (the outside world's answers, the model's field `io`, are no field of a unit, log 2). -/
def Obligations.ResetGivesEveryFieldItsValue : Prop :=
  let e := State.reset.enc
  let d := State.reset.dec
  let slot : Node := { kind := .empty, sym := 0x1FF, weight := 0, left := 0x3FF, right := 0x3FF }
  (e.phase = .count ∧ d.phase = .empty ∧ e.err = .none ∧ d.err = .none ∧ e.eoi = false ∧ d.eoi = false ∧
    d.lastBit = false ∧ e.status = 0x0000 ∧ d.status = 0x0000) ∧
  (∀ s : Symbol, e.freq.get s = 0 ∧ d.freq.get s = 0 ∧ e.code.get s = none) ∧
  (∀ i : Fin 513, e.arena.node.get i = slot ∧ d.arena.node.get i = slot) ∧
  (e.arena.nnodes = 0 ∧ d.arena.nnodes = 0 ∧ e.arena.root = 0x3FF ∧ d.arena.root = 0x3FF ∧ d.cur = 0x3FF) ∧
  (e.acc = 0x00 ∧ e.nbits = 0 ∧ d.buf = 0x00 ∧ d.cnt = 8) ∧
  (e.port.rp = 0 ∧ d.port.rp = 0 ∧ e.port.dst = [] ∧ d.port.dst = [] ∧ e.port.src = [] ∧ d.port.src = []) ∧
  ∀ (use : SourceUses) (s : State), ∃ t, hostStep use .reset s = .next t ∧
    { t.enc with port := { t.enc.port with io := e.port.io } } = e ∧
    { t.dec with port := { t.dec.port with io := d.port.io } } = d

/-- 45_encoder.md R200, 46_decoder.md R230, 70_reset_and_hazards.md R301: EINIT and DINIT complete in every state; each puts
its unit, and only its unit, in the reset state, but for the source the host loaded (and for the outside world's answers,
the model's field `io`, log 2). -/
def Obligations.InitRestoresTheResetState : Prop :=
  ∀ s : State,
    exec .einit s = .next { s with
      enc := { State.reset.enc with
        port := { State.reset.enc.port with src := s.enc.port.src, io := s.enc.port.io } } } ∧
    exec .dinit s = .next { s with
      dec := { State.reset.dec with
        port := { State.reset.dec.port with src := s.dec.port.src, io := s.dec.port.io } } }

/-! ### Errors -/

/-- 60_exceptions.md R263: while an error is latched in a unit, its INIT runs and clears the error, its CLOSE runs unless the
unit is CLOSED and keeps the error, and every other word, legal or illegal, has no effect at all. -/
def Obligations.LatchedErrorLeavesOnlyInitAndClose : Prop :=
  ∀ s : State,
    (s.enc.err ≠ .none →
      (∀ i : Instr, i.unit = .enc → i ≠ .einit → i ≠ .eclose → exec i s = .next s) ∧
      (∀ w : Byte, decode w = .illegal .enc → step (putWord w s) = .next s) ∧
      (s.enc.phase = .closed → exec .eclose s = .next s) ∧
      (s.enc.phase ≠ .closed →
        ∃ t, exec .eclose s = .next t ∧ t.enc.phase = .closed ∧ t.enc.err = s.enc.err) ∧
      ∃ t, exec .einit s = .next t ∧ t.enc.err = .none) ∧
    (s.dec.err ≠ .none →
      (∀ i : Instr, i.unit = .dec → i ≠ .dinit → i ≠ .dclose → exec i s = .next s) ∧
      (∀ w : Byte, decode w = .illegal .dec → step (putWord w s) = .next s) ∧
      (s.dec.phase = .closed → exec .dclose s = .next s) ∧
      (s.dec.phase ≠ .closed →
        ∃ t, exec .dclose s = .next t ∧ t.dec.phase = .closed ∧ t.dec.err = s.dec.err) ∧
      ∃ t, exec .dinit s = .next t ∧ t.dec.err = .none)

/-- 30_encoding.md R86: outside its phases, and with no error latched, a command latches SEQUENCE and has no other effect;
EINIT and DINIT are legal always. -/
def Obligations.OutOfPhaseCommandsRaiseSequence : Prop :=
  ∀ s : State,
    (s.enc.err = .none →
      ∀ out : Host.Outcome State Fault Refusal, out = .next { s with enc := { s.enc with err := .sequence } } →
        (s.enc.phase ≠ .count → exec .ecount s = out ∧ exec .ecountall s = out ∧ exec .efinal s = out) ∧
        (s.enc.phase ≠ .final → exec .ebuild s = out) ∧
        (s.enc.phase ≠ .built → exec .ederive s = out) ∧
        (s.enc.phase ≠ .ready ∨ s.enc.nbits ≠ 0 → exec .ehdr s = out) ∧
        (s.enc.phase = .closed → exec .erewind s = out ∧ (∀ b, exec (.ewbit b) s = out) ∧ exec .eclose s = out) ∧
        (s.enc.phase ≠ .payload → exec .esym s = out ∧ exec .esymall s = out ∧ exec .eeos s = out)) ∧
    (s.dec.err = .none →
      ∀ out : Host.Outcome State Fault Refusal, out = .next { s with dec := { s.dec with err := .sequence } } →
        (s.dec.phase ≠ .empty → exec .dhdr s = out) ∧
        (s.dec.phase ≠ .loaded → exec .dbuild s = out) ∧
        (s.dec.phase ≠ .ready →
          exec .drbit s = out ∧ exec .dstep s = out ∧ exec .dsymbol s = out ∧ exec .drun s = out) ∧
        (s.dec.phase = .closed → exec .dclose s = out)) ∧
    (∃ t, exec .einit s = .next t ∧ t.enc.err = .none) ∧ ∃ t, exec .dinit s = .next t ∧ t.dec.err = .none

/-- 60_exceptions.md R262, R266: the first error is kept: no command but the unit's INIT changes a latched error. -/
def Obligations.FirstErrorIsKept : Prop :=
  ∀ (i : Instr) (s t : State), exec i s = .next t →
    (s.enc.err ≠ .none → i ≠ .einit → t.enc.err = s.enc.err) ∧
    (s.dec.err ≠ .none → i ≠ .dinit → t.dec.err = s.dec.err)

/-! ### Frames -/

/-- 20_memory.md R72, 60_exceptions.md R272: a command changes only the unit it is addressed to and none of the host's words,
and what it does to that unit depends on nothing of the other unit. -/
def Obligations.CommandsStayInTheirUnit : Prop :=
  ∀ (i : Instr) (s t : State), exec i s = .next t →
    t.cmd = s.cmd ∧
    (i.unit = .enc → t.dec = s.dec ∧
      ∀ s' : State, s'.enc = s.enc → exec i s' = .next { s' with enc := t.enc }) ∧
    (i.unit = .dec → t.enc = s.enc ∧
      ∀ s' : State, s'.dec = s.dec → exec i s' = .next { s' with dec := t.dec })

/-- 20_memory.md R72: commands to the two units may be interleaved in any order: after any words written to CMD, each unit
stands where the words addressed to it alone would have brought it. -/
def Obligations.InterleavingDoesNotMatter : Prop :=
  ∀ (ws : List Byte) (s t : State), hostRun (ws.map .write) s = .next t →
    hostRun ((ws.filter fun w => !w.getLsbD 7).map .write) s = .next { s with enc := t.enc } ∧
    hostRun ((ws.filter fun w => w.getLsbD 7).map .write) s = .next { s with dec := t.dec }

/-- 10_state.md R34, 20_memory.md R60, R61, R68, 46_decoder.md R233: no command changes a source; a destination is only
appended to, and only by EHDR, ESYM, ESYMALL, EEOS, EWBIT and ECLOSE in ENC and by DSTEP, DSYMBOL and DRUN in phase READY in
DEC; only INIT empties one. -/
def Obligations.PortsAreReadInPlaceAndAppendedTo : Prop :=
  ∀ (i : Instr) (s t : State), exec i s = .next t →
    (t.enc.port.src = s.enc.port.src ∧ t.dec.port.src = s.dec.port.src) ∧
    (i ≠ .einit → ∃ l, t.enc.port.dst = s.enc.port.dst ++ l ∧
      (l ≠ [] → i = .ehdr ∨ i = .esym ∨ i = .esymall ∨ i = .eeos ∨ i = .eclose ∨ ∃ b, i = .ewbit b)) ∧
    (i = .einit → t.enc.port.dst = []) ∧
    (i ≠ .dinit → ∃ l, t.dec.port.dst = s.dec.port.dst ++ l ∧
      (l ≠ [] → (i = .dstep ∨ i = .dsymbol ∨ i = .drun) ∧ s.dec.phase = .ready)) ∧
    (i = .dinit → t.dec.port.dst = [])

/-- 10_state.md R30: once the phase has left COUNT (ENC) or EMPTY (DEC), no command but INIT writes the frequency table. -/
def Obligations.FrequencyTableIsFrozenAfterCounting : Prop :=
  ∀ (i : Instr) (s t : State), exec i s = .next t →
    (s.enc.phase ≠ .count → i ≠ .einit → t.enc.freq = s.enc.freq) ∧
    (s.dec.phase ≠ .empty → i ≠ .dinit → t.dec.freq = s.dec.freq)

/-- 10_state.md R23, R26 to R34: what each ENC command may change, everything else of the machine staying as it was: ECOUNT
and ECOUNTALL the counts of byte values, EOI, ERR and the source offset; EFINAL the sentinel's count, PHASE and ERR; EBUILD
the arena, PHASE and ERR; EDERIVE the codes, PHASE and ERR; EHDR the destination, PHASE and ERR; EREWIND the source offset,
EOI and ERR; ESYM and ESYMALL the bit-writer's registers, the ports, EOI and ERR; EEOS, EWBIT and ECLOSE the bit-writer's
registers, the destination and ERR, and EEOS and ECLOSE also PHASE. -/
def Obligations.EncoderCommandsChangeOnlyTheirFields : Prop :=
  ∀ s t : State,
    (exec .ecount s = .next t ∨ exec .ecountall s = .next t →
      t = { s with
        enc := { s.enc with
          err := t.enc.err, eoi := t.enc.eoi, freq := t.enc.freq,
          port := { s.enc.port with rp := t.enc.port.rp, io := t.enc.port.io } } } ∧
      t.enc.freq.get sentinel = s.enc.freq.get sentinel) ∧
    (exec .efinal s = .next t →
      t = { s with enc := { s.enc with err := t.enc.err, phase := t.enc.phase, freq := t.enc.freq } } ∧
      ∀ x, x ≠ sentinel → t.enc.freq.get x = s.enc.freq.get x) ∧
    (exec .ebuild s = .next t →
      t = { s with enc := { s.enc with err := t.enc.err, phase := t.enc.phase, arena := t.enc.arena } }) ∧
    (exec .ederive s = .next t →
      t = { s with enc := { s.enc with err := t.enc.err, phase := t.enc.phase, code := t.enc.code } }) ∧
    (exec .ehdr s = .next t →
      t = { s with
        enc := { s.enc with
          err := t.enc.err, phase := t.enc.phase,
          port := { s.enc.port with dst := t.enc.port.dst, io := t.enc.port.io } } }) ∧
    (exec .erewind s = .next t →
      t = { s with
        enc := { s.enc with err := t.enc.err, eoi := t.enc.eoi, port := { s.enc.port with rp := t.enc.port.rp } } }) ∧
    (exec .esym s = .next t ∨ exec .esymall s = .next t →
      t = { s with
        enc := { s.enc with
          err := t.enc.err, eoi := t.enc.eoi, acc := t.enc.acc, nbits := t.enc.nbits,
          port := { s.enc.port with rp := t.enc.port.rp, dst := t.enc.port.dst, io := t.enc.port.io } } }) ∧
    (exec .eeos s = .next t ∨ exec .eclose s = .next t →
      t = { s with
        enc := { s.enc with
          err := t.enc.err, phase := t.enc.phase, acc := t.enc.acc, nbits := t.enc.nbits,
          port := { s.enc.port with dst := t.enc.port.dst, io := t.enc.port.io } } }) ∧
    ∀ b, exec (.ewbit b) s = .next t →
      t = { s with
        enc := { s.enc with
          err := t.enc.err, acc := t.enc.acc, nbits := t.enc.nbits,
          port := { s.enc.port with dst := t.enc.port.dst, io := t.enc.port.io } } }

/-- 10_state.md R23, R27 to R34: what each DEC command may change, everything else of the machine staying as it was: DHDR the
counts, EOI, PHASE, ERR and the source offset; DBUILD the arena, CUR, PHASE and ERR; DRBIT LASTBIT, EOI, ERR and the
bit-reader's registers and offset; DSTEP, DSYMBOL and DRUN PHASE, ERR, EOI, CUR, the bit-reader's registers and the ports,
but not LASTBIT (R29); DCLOSE PHASE and ERR. -/
def Obligations.DecoderCommandsChangeOnlyTheirFields : Prop :=
  ∀ s t : State,
    (exec .dhdr s = .next t →
      t = { s with
        dec := { s.dec with
          err := t.dec.err, phase := t.dec.phase, eoi := t.dec.eoi, freq := t.dec.freq,
          port := { s.dec.port with rp := t.dec.port.rp, io := t.dec.port.io } } }) ∧
    (exec .dbuild s = .next t →
      t = { s with
        dec := { s.dec with err := t.dec.err, phase := t.dec.phase, arena := t.dec.arena, cur := t.dec.cur } }) ∧
    (exec .drbit s = .next t →
      t = { s with
        dec := { s.dec with
          err := t.dec.err, eoi := t.dec.eoi, lastBit := t.dec.lastBit, buf := t.dec.buf, cnt := t.dec.cnt,
          port := { s.dec.port with rp := t.dec.port.rp, io := t.dec.port.io } } }) ∧
    (exec .dstep s = .next t ∨ exec .dsymbol s = .next t ∨ exec .drun s = .next t →
      t = { s with
        dec := { s.dec with
          err := t.dec.err, phase := t.dec.phase, eoi := t.dec.eoi, cur := t.dec.cur, buf := t.dec.buf, cnt := t.dec.cnt,
          port := { s.dec.port with rp := t.dec.port.rp, dst := t.dec.port.dst, io := t.dec.port.io } } }) ∧
    (exec .dclose s = .next t → t = { s with dec := { s.dec with err := t.dec.err, phase := t.dec.phase } })

/-! ### Frequency counting -/

/-- 40_frequency.md R101: ECOUNT in phase COUNT counts the byte at `RP`; at the end of the source it only sets EOI; a failing
read moves nothing and raises IO; a full counter raises OVERFLOW with the byte consumed and the counter kept. -/
def Obligations.EcountCountsOneByte : Prop :=
  decode 0x08 = .command .ecount ∧
  ∀ s : State, s.enc.err = .none → s.enc.phase = .count →
    (s.enc.port.rp = s.enc.port.src.length → exec .ecount s = .next { s with enc := { s.enc with eoi := true } }) ∧
    ∀ b : Byte, s.enc.port.src[s.enc.port.rp]? = some b →
      (s.enc.port.io.answerAt .enc .read s.enc.port.rp 0 = true →
        exec .ecount s = .next { s with
          enc := { s.enc with err := .io, port := { s.enc.port with io := s.enc.port.io.tick } } }) ∧
      (s.enc.port.io.answerAt .enc .read s.enc.port.rp 0 = false →
        (s.enc.freq.get (byteSymbol b) = 0xFFFFFFFF →
          exec .ecount s = .next { s with
            enc := { s.enc with
              err := .overflow,
              port := { s.enc.port with rp := s.enc.port.rp + 1, io := s.enc.port.io.tick } } }) ∧
        (s.enc.freq.get (byteSymbol b) ≠ 0xFFFFFFFF →
          exec .ecount s = .next { s with
            enc := { s.enc with
              freq := s.enc.freq.set (byteSymbol b) (s.enc.freq.get (byteSymbol b) + 1),
              port := { s.enc.port with rp := s.enc.port.rp + 1, io := s.enc.port.io.tick } } }))

/-- 40_frequency.md R102, 45_encoder.md R206, 46_decoder.md R237, R238: each bulk command is its single command repeated:
ECOUNTALL and ESYMALL until EOI is 1 or a raise, DSYMBOL until a leaf is reached (a byte is written, or the phase is DONE) or
a raise, DRUN until the phase is DONE or a raise. -/
def Obligations.BulkCommandsRepeatTheirSingleCommand : Prop :=
  ∀ s t : State,
    (s.enc.err = .none → s.enc.phase = .count → exec .ecount s = .next t →
      exec .ecountall s =
        if t.enc.err ≠ .none ∨ t.enc.eoi = true then .next t else exec .ecountall t) ∧
    (s.enc.err = .none → s.enc.phase = .payload → exec .esym s = .next t →
      exec .esymall s =
        if t.enc.err ≠ .none ∨ t.enc.eoi = true then .next t else exec .esymall t) ∧
    (s.dec.err = .none → s.dec.phase = .ready → exec .dstep s = .next t →
      exec .dsymbol s =
        if t.dec.err ≠ .none ∨ t.dec.phase = .done ∨ t.dec.port.dst ≠ s.dec.port.dst then .next t
        else exec .dsymbol t) ∧
    (s.dec.err = .none → s.dec.phase = .ready → exec .dstep s = .next t →
      exec .drun s =
        if t.dec.err ≠ .none ∨ t.dec.phase = .done then .next t else exec .drun t)

/-- 40_frequency.md R102, R104: with no failing read and no counter that would pass 0xFFFFFFFF, ECOUNTALL adds to every
counter the number of times its byte value occurs in the rest of the source, and ends at the end of the source with EOI
set. -/
def Obligations.EcountallCountsTheRestOfTheSource : Prop :=
  ∀ s : State, s.enc.err = .none → s.enc.phase = .count → s.enc.port.rp ≤ s.enc.port.src.length →
    (s.enc.eoi = true → s.enc.port.rp = s.enc.port.src.length) →
    Calm .enc (s.enc.port.src.length - s.enc.port.rp) s.enc.port.io →
    (∀ b : Byte, (s.enc.freq.get (byteSymbol b)).toNat + (s.enc.port.src.drop s.enc.port.rp).count b ≤ 0xFFFFFFFF) →
    exec .ecountall s = .next { s with
      enc := { s.enc with
        eoi := true,
        freq := Table.ofFn fun x =>
          s.enc.freq.get x + BitVec.ofNat 32 ((s.enc.port.src.drop s.enc.port.rp).countP fun b => b.toNat == x.val),
        port := { s.enc.port with
          rp := s.enc.port.src.length,
          io := ioAfter (s.enc.port.src.length - s.enc.port.rp) s.enc.port.io } } }

/-- 40_frequency.md R105: from a fresh unit, ECOUNTALL then EFINAL, with no fault, leave each counter equal to the number of
bytes of its value in the source and the sentinel's equal to 1, provided no byte value occurs more than 0xFFFFFFFF times; the
sum of the 257 counters is then the source's length plus 1. -/
def Obligations.CountingGivesTheHistogram : Prop :=
  ∀ s : State, s.enc.err = .none → s.enc.phase = .count → s.enc.eoi = false → s.enc.port.rp = 0 →
    (∀ x, s.enc.freq.get x = 0) → Calm .enc s.enc.port.src.length s.enc.port.io →
    (∀ b : Byte, s.enc.port.src.count b ≤ 0xFFFFFFFF) →
    ∃ t u, exec .ecountall s = .next t ∧ exec .efinal t = .next u ∧ u.enc.err = .none ∧ u.enc.phase = .final ∧
      (∀ b : Byte, (u.enc.freq.get (byteSymbol b)).toNat = s.enc.port.src.count b) ∧
      u.enc.freq.get sentinel = 1 ∧
      (u.enc.freq.cells.map BitVec.toNat).sum = s.enc.port.src.length + 1

/-- 40_frequency.md R103: EFINAL in phase COUNT sets the sentinel's count to 1, whatever was counted and whether or not EOI is
set, and enters FINAL. -/
def Obligations.EfinalSetsTheSentinelsCount : Prop :=
  decode 0x18 = .command .efinal ∧
  ∀ s : State, s.enc.err = .none → s.enc.phase = .count →
    exec .efinal s = .next { s with enc := { s.enc with freq := s.enc.freq.set sentinel 1, phase := .final } }

/-! ### The tree and the codes -/

/-- 41_tree.md R121 to R127, R129: EBUILD in phase FINAL builds a full binary tree over the nonzero counts: leaves in
ascending symbol order, a null leaf exactly when only the sentinel is counted, every INTERNAL node the merge of the two least
of the nodes not yet merged (the least its left child), weights summing, the root last and weighing the sum of all counts;
and it enters BUILT. -/
def Obligations.EbuildMergesTheTwoLeastNodes : Prop :=
  ∀ s : State, s.enc.err = .none → s.enc.phase = .final → s.enc.freq.get sentinel ≠ 0 →
    ∃ a, exec .ebuild s = .next { s with enc := { s.enc with arena := a, phase := .built } } ∧
      TreeOf s.enc.freq a ∧ BuiltFrom s.enc.freq a ∧
      (a.slot a.root).weight.toNat = (s.enc.freq.cells.map BitVec.toNat).sum

/-- 41_tree.md R120, R128: DBUILD in phase LOADED builds the tree of its table and puts the walker at the root; an encoder
with the same table builds node for node the same arena. -/
def Obligations.DbuildRebuildsTheEncodersTree : Prop :=
  ∀ s : State, s.dec.err = .none → s.dec.phase = .loaded → s.dec.freq.get sentinel ≠ 0 →
    ∃ a, exec .dbuild s = .next { s with dec := { s.dec with arena := a, cur := a.root, phase := .ready } } ∧
      TreeOf s.dec.freq a ∧ BuiltFrom s.dec.freq a ∧
      ∀ s' : State, s'.enc.err = .none → s'.enc.phase = .final → s'.enc.freq = s.dec.freq →
        exec .ebuild s' = .next { s' with enc := { s'.enc with arena := a, phase := .built } }

/-- 41_tree.md R121 to R125: the rules fix the tree: two arenas built from one table by merging the two least nodes are
equal. -/
def Obligations.TheMergeRulesFixTheTree : Prop :=
  ∀ (f : Table Count 257) (a a' : Arena), TreeOf f a → BuiltFrom f a → TreeOf f a' → BuiltFrom f a' → a = a'

/-- 42_codetable.md R141, R142: EDERIVE in phase BUILT, on a tree, gives each symbol the path from the root to its leaf, and
no code exactly to the symbols with count 0; and it enters READY. -/
def Obligations.EderiveRecordsTheRootToLeafPaths : Prop :=
  ∀ s : State, s.enc.err = .none → s.enc.phase = .built → TreeOf s.enc.freq s.enc.arena →
    ∃ c, exec .ederive s = .next { s with enc := { s.enc with code := c, phase := .ready } } ∧
      (∀ x p, c.get x = some p ↔
        ∃ m, LeadsTo s.enc.arena s.enc.arena.root p m ∧ (s.enc.arena.slot m).kind = .leaf ∧
          (s.enc.arena.slot m).sym.toNat = x.val) ∧
      ∀ x, (c.get x).isSome = true ↔ s.enc.freq.get x ≠ 0

/-- 42_codetable.md R143, R144, 41_tree.md R123: the codes EDERIVE gives a tree are 1 to 256 bits long, none is the beginning
of another, and their Kraft sum is 1; with a null leaf the only code is the sentinel's, the one bit 1, and the sum is 1/2. -/
def Obligations.CodesArePrefixFreeAndComplete : Prop :=
  ∀ (s t : State) (kraft : Nat), s.enc.err = .none → s.enc.phase = .built → TreeOf s.enc.freq s.enc.arena →
    exec .ederive s = .next t →
    kraft = ((List.finRange 257).map fun x => match t.enc.code.get x with
      | none => 0
      | some p => 2 ^ (256 - p.length)).sum →
    (∀ x p, t.enc.code.get x = some p → 1 ≤ p.length ∧ p.length ≤ 256) ∧
    (∀ x y p q, t.enc.code.get x = some p → t.enc.code.get y = some q → x ≠ y → ¬ p <+: q) ∧
    ((∀ i, (s.enc.arena.slotAt i).kind ≠ .nullLeaf) → kraft = 2 ^ 256) ∧
    (BuiltFrom s.enc.freq s.enc.arena → (∃ i, (s.enc.arena.slotAt i).kind = .nullLeaf) →
      kraft = 2 ^ 255 ∧ t.enc.code.get sentinel = some [true] ∧ ∀ x, x ≠ sentinel → t.enc.code.get x = none)

/-! ### The bit-packer and the encoder -/

/-- 43_bitwriter.md R160, R162: EWBIT in any phase but CLOSED shifts its bit into ACC; the eighth bit clears the registers and
appends the byte, or loses it and raises IO when the write fails. -/
def Obligations.EwbitPacksOneBit : Prop :=
  decode 0x58 = .command (.ewbit false) ∧ decode 0x59 = .command (.ewbit true) ∧
  ∀ (s : State) (b : Bool), s.enc.err = .none → s.enc.phase ≠ .closed →
    (s.enc.nbits ≠ 7 → exec (.ewbit b) s = .next { s with
      enc := { s.enc with acc := s.enc.acc <<< 1 ||| (BitVec.ofBool b).setWidth 8, nbits := s.enc.nbits + 1 } }) ∧
    (s.enc.nbits = 7 → s.enc.port.io.answerAt .enc .write s.enc.port.dst.length 0 = false →
      exec (.ewbit b) s = .next { s with
        enc := { s.enc with
          acc := 0, nbits := 0,
          port := { s.enc.port with
            dst := s.enc.port.dst ++ [s.enc.acc <<< 1 ||| (BitVec.ofBool b).setWidth 8],
            io := s.enc.port.io.tick } } }) ∧
    (s.enc.nbits = 7 → s.enc.port.io.answerAt .enc .write s.enc.port.dst.length 0 = true →
      exec (.ewbit b) s = .next { s with
        enc := { s.enc with
          err := .io, acc := 0, nbits := 0, port := { s.enc.port with io := s.enc.port.io.tick } } })

/-- 43_bitwriter.md R161, R163, 60_exceptions.md R262: ECLOSE in any phase but CLOSED, also under a latched error, appends the
held bits at the top of a byte, if any, and is CLOSED; a failing write appends nothing and records IO unless an error is
latched; a second ECLOSE raises SEQUENCE, or does nothing under a latched error; in CLOSED no command but EINIT changes the
destination. -/
def Obligations.EcloseFlushesAndCloses : Prop :=
  decode 0x60 = .command .eclose ∧
  (∀ s : State, s.enc.phase = .closed →
    exec .eclose s = .next (if s.enc.err = .none then { s with enc := { s.enc with err := .sequence } } else s) ∧
    ∀ (i : Instr) (t : State), i ≠ .einit → exec i s = .next t → t.enc.port.dst = s.enc.port.dst) ∧
  ∀ s : State, s.enc.phase ≠ .closed →
    (s.enc.nbits = 0 → exec .eclose s = .next { s with enc := { s.enc with phase := .closed } }) ∧
    (s.enc.nbits ≠ 0 → s.enc.port.io.answerAt .enc .write s.enc.port.dst.length 0 = false →
      exec .eclose s = .next { s with
        enc := { s.enc with
          phase := .closed, acc := 0, nbits := 0,
          port := { s.enc.port with
            dst := s.enc.port.dst ++ [s.enc.acc <<< (8 - s.enc.nbits.toNat)], io := s.enc.port.io.tick } } }) ∧
    (s.enc.nbits ≠ 0 → s.enc.port.io.answerAt .enc .write s.enc.port.dst.length 0 = true →
      exec .eclose s = .next { s with
        enc := { s.enc with
          phase := .closed, err := if s.enc.err = .none then .io else s.enc.err, acc := 0, nbits := 0,
          port := { s.enc.port with io := s.enc.port.io.tick } } })

/-- 45_encoder.md R202: EREWIND in any phase but CLOSED puts the source port back to offset 0 and clears EOI. -/
def Obligations.ErewindRewindsTheSource : Prop :=
  decode 0x38 = .command .erewind ∧
  ∀ s : State, s.enc.err = .none → s.enc.phase ≠ .closed →
    exec .erewind s = .next { s with enc := { s.enc with eoi := false, port := { s.enc.port with rp := 0 } } }

/-- 45_encoder.md R203, 20_memory.md R66: EHDR in phase READY with no bit held appends the 1028 bytes of the 257 counters,
each most significant byte first, and enters PAYLOAD; when a write fails, the bytes written before it stay, the phase stays
READY and IO is raised. -/
def Obligations.EhdrWritesTheBigEndianHeader : Prop :=
  decode 0x30 = .command .ehdr ∧
  ∀ s : State, s.enc.err = .none → s.enc.phase = .ready → s.enc.nbits = 0 →
    ∃ h : List Byte, h.length = 1028 ∧
      (∀ (x : Symbol) (k : Nat), k < 4 →
        (h.getD (4 * x.val + k) 0).toNat = (s.enc.freq.get x).toNat / 256 ^ (3 - k) % 256) ∧
      (Calm .enc 1028 s.enc.port.io →
        exec .ehdr s = .next { s with
          enc := { s.enc with
            phase := .payload,
            port := { s.enc.port with dst := s.enc.port.dst ++ h, io := ioAfter 1028 s.enc.port.io } } }) ∧
      ∀ n, n < 1028 → Calm .enc n s.enc.port.io →
        s.enc.port.io.answerAt .enc .write (s.enc.port.dst.length + n) n = true →
        exec .ehdr s = .next { s with
          enc := { s.enc with
            err := .io,
            port := { s.enc.port with dst := s.enc.port.dst ++ h.take n, io := ioAfter (n + 1) s.enc.port.io } } }

/-- 45_encoder.md R204, R205: ESYM in phase PAYLOAD reads one source byte and packs its code, the code's first bit first; at
the end of the source it only sets EOI; a failing read moves nothing and raises IO; a byte with no code is consumed and
raises NOCODE; when the write of a byte the code completes fails, the bytes completed before it stay, the rest of the code is
lost with that byte, and IO is raised. -/
def Obligations.EsymEmitsOneCode : Prop :=
  decode 0x40 = .command .esym ∧
  ∀ s : State, s.enc.err = .none → s.enc.phase = .payload →
    (s.enc.port.rp = s.enc.port.src.length → exec .esym s = .next { s with enc := { s.enc with eoi := true } }) ∧
    ∀ b : Byte, s.enc.port.src[s.enc.port.rp]? = some b →
      (s.enc.port.io.answerAt .enc .read s.enc.port.rp 0 = true →
        exec .esym s = .next { s with
          enc := { s.enc with err := .io, port := { s.enc.port with io := s.enc.port.io.tick } } }) ∧
      (s.enc.port.io.answerAt .enc .read s.enc.port.rp 0 = false → s.enc.code.get (byteSymbol b) = none →
        exec .esym s = .next { s with
          enc := { s.enc with
            err := .nocode, port := { s.enc.port with rp := s.enc.port.rp + 1, io := s.enc.port.io.tick } } }) ∧
      ∀ p, s.enc.code.get (byteSymbol b) = some p →
        (∀ n, n < (s.enc.nbits.toNat + p.length) / 8 → Calm .enc (n + 1) s.enc.port.io →
          s.enc.port.io.answerAt .enc .write (s.enc.port.dst.length + n) (n + 1) = true →
          exec .esym s = .next { s with
            enc := { s.enc with
              err := .io, acc := 0, nbits := 0,
              port := { s.enc.port with
                rp := s.enc.port.rp + 1,
                dst := s.enc.port.dst ++ (wholeBytes (heldBits s.enc.acc s.enc.nbits.toNat ++ p)).take n,
                io := ioAfter (n + 2) s.enc.port.io } } }) ∧
        (Calm .enc ((s.enc.nbits.toNat + p.length) / 8 + 1) s.enc.port.io →
        ∃ acc', heldBits acc' ((s.enc.nbits.toNat + p.length) % 8) =
            leftBits (heldBits s.enc.acc s.enc.nbits.toNat ++ p) ∧
          exec .esym s = .next { s with
            enc := { s.enc with
              acc := acc', nbits := BitVec.ofNat 3 ((s.enc.nbits.toNat + p.length) % 8),
              port := { s.enc.port with
                rp := s.enc.port.rp + 1,
                dst := s.enc.port.dst ++ wholeBytes (heldBits s.enc.acc s.enc.nbits.toNat ++ p),
                io := ioAfter ((s.enc.nbits.toNat + p.length) / 8 + 1) s.enc.port.io } } })

/-- 45_encoder.md R206: with no failing access and a code for every byte of the rest of the source, ESYMALL packs those codes
in order and ends at the end of the source with EOI set. -/
def Obligations.EsymallEmitsTheRestOfTheSource : Prop :=
  ∀ (s : State) (bits : Bits), s.enc.err = .none → s.enc.phase = .payload → s.enc.port.rp ≤ s.enc.port.src.length →
    (s.enc.eoi = true → s.enc.port.rp = s.enc.port.src.length) →
    (∀ b ∈ s.enc.port.src.drop s.enc.port.rp, (s.enc.code.get (byteSymbol b)).isSome = true) →
    bits = (s.enc.port.src.drop s.enc.port.rp).flatMap (fun b => (s.enc.code.get (byteSymbol b)).getD []) →
    Calm .enc (s.enc.port.src.length - s.enc.port.rp + (s.enc.nbits.toNat + bits.length) / 8) s.enc.port.io →
    ∃ acc', heldBits acc' ((s.enc.nbits.toNat + bits.length) % 8) =
        leftBits (heldBits s.enc.acc s.enc.nbits.toNat ++ bits) ∧
      exec .esymall s = .next { s with
        enc := { s.enc with
          eoi := true, acc := acc', nbits := BitVec.ofNat 3 ((s.enc.nbits.toNat + bits.length) % 8),
          port := { s.enc.port with
            rp := s.enc.port.src.length,
            dst := s.enc.port.dst ++ wholeBytes (heldBits s.enc.acc s.enc.nbits.toNat ++ bits),
            io := ioAfter (s.enc.port.src.length - s.enc.port.rp + (s.enc.nbits.toNat + bits.length) / 8)
              s.enc.port.io } } }

/-- 45_encoder.md R207: EEOS in phase PAYLOAD packs the sentinel's code and enters ENDED, whether or not EOI is set; when the
write of a byte the code completes fails, IO is raised and the phase stays PAYLOAD. -/
def Obligations.EeosEmitsTheSentinelsCode : Prop :=
  decode 0x50 = .command .eeos ∧
  ∀ (s : State) (p : Bits), s.enc.err = .none → s.enc.phase = .payload → s.enc.code.get sentinel = some p →
    (∀ n, n < (s.enc.nbits.toNat + p.length) / 8 → Calm .enc n s.enc.port.io →
      s.enc.port.io.answerAt .enc .write (s.enc.port.dst.length + n) n = true →
      exec .eeos s = .next { s with
        enc := { s.enc with
          err := .io, acc := 0, nbits := 0,
          port := { s.enc.port with
            dst := s.enc.port.dst ++ (wholeBytes (heldBits s.enc.acc s.enc.nbits.toNat ++ p)).take n,
            io := ioAfter (n + 1) s.enc.port.io } } }) ∧
    (Calm .enc ((s.enc.nbits.toNat + p.length) / 8) s.enc.port.io →
    ∃ acc', heldBits acc' ((s.enc.nbits.toNat + p.length) % 8) =
        leftBits (heldBits s.enc.acc s.enc.nbits.toNat ++ p) ∧
      exec .eeos s = .next { s with
        enc := { s.enc with
          phase := .ended, acc := acc', nbits := BitVec.ofNat 3 ((s.enc.nbits.toNat + p.length) % 8),
          port := { s.enc.port with
            dst := s.enc.port.dst ++ wholeBytes (heldBits s.enc.acc s.enc.nbits.toNat ++ p),
            io := ioAfter ((s.enc.nbits.toNat + p.length) / 8) s.enc.port.io } } })

/-! ### The decoder -/

/-- 46_decoder.md R231, R232: DHDR in phase EMPTY reads 1028 bytes as 257 big-endian counters and enters LOADED; a header that
is short, or whose sentinel's count is not 1, raises FORMAT with the table and the phase kept and the bytes read consumed, a
short one also setting EOI; a failing read raises IO after the bytes before it. -/
def Obligations.DhdrReadsAndChecksTheHeader : Prop :=
  decode 0x88 = .command .dhdr ∧
  ∀ s : State, s.dec.err = .none → s.dec.phase = .empty → s.dec.port.rp ≤ s.dec.port.src.length →
    (∀ f : Table Count 257, s.dec.port.rp + 1028 ≤ s.dec.port.src.length → Calm .dec 1028 s.dec.port.io →
      (∀ x : Symbol, (f.get x).toNat =
        (s.dec.port.src.getD (s.dec.port.rp + 4 * x.val) 0).toNat * 2 ^ 24 +
        (s.dec.port.src.getD (s.dec.port.rp + 4 * x.val + 1) 0).toNat * 2 ^ 16 +
        (s.dec.port.src.getD (s.dec.port.rp + 4 * x.val + 2) 0).toNat * 2 ^ 8 +
        (s.dec.port.src.getD (s.dec.port.rp + 4 * x.val + 3) 0).toNat) →
      (f.get sentinel = 1 → exec .dhdr s = .next { s with
        dec := { s.dec with
          freq := f, phase := .loaded,
          port := { s.dec.port with rp := s.dec.port.rp + 1028, io := ioAfter 1028 s.dec.port.io } } }) ∧
      (f.get sentinel ≠ 1 → exec .dhdr s = .next { s with
        dec := { s.dec with
          err := .format,
          port := { s.dec.port with rp := s.dec.port.rp + 1028, io := ioAfter 1028 s.dec.port.io } } })) ∧
    (s.dec.port.src.length < s.dec.port.rp + 1028 →
      Calm .dec (s.dec.port.src.length - s.dec.port.rp) s.dec.port.io →
      exec .dhdr s = .next { s with
        dec := { s.dec with
          err := .format, eoi := true,
          port := { s.dec.port with
            rp := s.dec.port.src.length,
            io := ioAfter (s.dec.port.src.length - s.dec.port.rp) s.dec.port.io } } }) ∧
    ∀ n, n < 1028 → s.dec.port.rp + n < s.dec.port.src.length → Calm .dec n s.dec.port.io →
      s.dec.port.io.answerAt .dec .read (s.dec.port.rp + n) n = true →
      exec .dhdr s = .next { s with
        dec := { s.dec with
          err := .io, port := { s.dec.port with rp := s.dec.port.rp + n, io := ioAfter (n + 1) s.dec.port.io } } }

/-- 46_decoder.md R232, 45_encoder.md R203: reading back the header of a table gives the table. -/
def Obligations.HeaderRoundTrips : Prop :=
  ∀ f : Table Count 257, (headerBytes f).length = 1028 ∧ parseHeader (headerBytes f) = f

/-- 44_bitreader.md R180, R182: DRBIT in phase READY puts the next bit into LASTBIT: bit `7 - CNT` of `BUF` while `CNT < 8`,
and when `CNT = 8` bit 7 of the byte it refills `BUF` with; at the end of the source it only sets EOI; a failing refill
changes nothing but ERR; so the bits come in the order of the unread bits, each byte's bit 7 first. -/
def Obligations.DrbitReadsTheNextBit : Prop :=
  decode 0x98 = .command .drbit ∧
  ∀ s : State, s.dec.err = .none → s.dec.phase = .ready →
    (∀ h : s.dec.cnt.val < 8, exec .drbit s = .next { s with
      dec := { s.dec with lastBit := s.dec.buf.getLsbD (7 - s.dec.cnt.val), cnt := ⟨s.dec.cnt.val + 1, by omega⟩ } }) ∧
    (s.dec.cnt = 8 → s.dec.port.rp = s.dec.port.src.length →
      exec .drbit s = .next { s with dec := { s.dec with eoi := true } }) ∧
    (∀ b : Byte, s.dec.cnt = 8 → s.dec.port.src[s.dec.port.rp]? = some b →
      (s.dec.port.io.answerAt .dec .read s.dec.port.rp 0 = false →
        exec .drbit s = .next { s with
          dec := { s.dec with
            lastBit := b.getLsbD 7, buf := b, cnt := 1,
            port := { s.dec.port with rp := s.dec.port.rp + 1, io := s.dec.port.io.tick } } }) ∧
      (s.dec.port.io.answerAt .dec .read s.dec.port.rp 0 = true →
        exec .drbit s = .next { s with
          dec := { s.dec with err := .io, port := { s.dec.port with io := s.dec.port.io.tick } } })) ∧
    ∀ b rest, unread s.dec = b :: rest →
      (s.dec.cnt = 8 → s.dec.port.io.answerAt .dec .read s.dec.port.rp 0 = false) →
      ∃ t, exec .drbit s = .next t ∧ t.dec.lastBit = b ∧ unread t.dec = rest

/-- 46_decoder.md R236: DSTEP in phase READY reads one bit and moves the walker to the left child on 0 and the right child on
1; inside a code it does no more; the sentinel's leaf makes the phase DONE, with the walker on it; a byte's leaf appends the
byte and puts the walker back at the root, or raises IO, with the walker on the leaf, when the write fails; the null leaf
raises CORRUPT, with the walker on it; the end of the source raises TRUNCATED with EOI set; a failing refill raises IO and
moves nothing. The bit is the next unread one, and there is one to read whenever a bit is unread and the refill it may need
does not fail. -/
def Obligations.DstepMovesTheWalkerOneEdge : Prop :=
  decode 0xA0 = .command .dstep ∧
  ∀ s : State, s.dec.err = .none → s.dec.phase = .ready →
    (s.dec.cnt = 8 → s.dec.port.rp = s.dec.port.src.length →
      exec .dstep s = .next { s with dec := { s.dec with eoi := true, err := .truncated } }) ∧
    (s.dec.cnt = 8 → s.dec.port.rp < s.dec.port.src.length →
      s.dec.port.io.answerAt .dec .read s.dec.port.rp 0 = true →
      exec .dstep s = .next { s with
        dec := { s.dec with err := .io, port := { s.dec.port with io := s.dec.port.io.tick } } }) ∧
    (∀ (b : Bool) (rest : Bits), unread s.dec = b :: rest →
      (s.dec.cnt = 8 → s.dec.port.io.answerAt .dec .read s.dec.port.rp 0 = false) →
      ∃ d, ReadsBit s.dec d b ∧ unread d = rest ∧ bitPos d = bitPos s.dec + 1) ∧
    ∀ (b : Bool) (d : Dec) (m : NodeId) (v : Node), ReadsBit s.dec d b →
      m = (if b then (s.dec.arena.slot s.dec.cur).right else (s.dec.arena.slot s.dec.cur).left) →
      v = s.dec.arena.slot m →
      (v.kind = .internal → exec .dstep s = .next { s with dec := { d with cur := m } }) ∧
      (v.kind = .leaf → v.sym.toNat = 256 →
        exec .dstep s = .next { s with dec := { d with cur := m, phase := .done } }) ∧
      (v.kind = .leaf → v.sym.toNat ≠ 256 → d.port.io.answerAt .dec .write d.port.dst.length 0 = false →
        exec .dstep s = .next { s with
          dec := { d with
            cur := s.dec.arena.root,
            port := { d.port with dst := d.port.dst ++ [v.sym.extractLsb' 0 8], io := d.port.io.tick } } }) ∧
      (v.kind = .leaf → v.sym.toNat ≠ 256 → d.port.io.answerAt .dec .write d.port.dst.length 0 = true →
        exec .dstep s = .next { s with
          dec := { d with cur := m, err := .io, port := { d.port with io := d.port.io.tick } } }) ∧
      (v.kind = .nullLeaf → exec .dstep s = .next { s with dec := { d with cur := m, err := .corrupt } })

/-- 46_decoder.md R237: when the unread bits begin with a path from the walker's position to a leaf, and no access fails,
DSYMBOL reads exactly that path: at the sentinel's leaf the phase is DONE and nothing is written, at a byte's leaf that byte
is written and the walker is back at the root. -/
def Obligations.DsymbolDecodesOneSymbol : Prop :=
  ∀ (s : State) (p rest : Bits) (m : NodeId), s.dec.err = .none → s.dec.phase = .ready →
    unread s.dec = p ++ rest → p ≠ [] → LeadsTo s.dec.arena s.dec.cur p m → (s.dec.arena.slot m).kind = .leaf →
    Calm .dec (p.length + 1) s.dec.port.io →
    ∃ t, exec .dsymbol s = .next t ∧ t.dec.err = .none ∧ unread t.dec = rest ∧
      bitPos t.dec = bitPos s.dec + p.length ∧
      ((s.dec.arena.slot m).sym.toNat = 256 →
        t.dec.phase = .done ∧ t.dec.cur = m ∧ t.dec.port.dst = s.dec.port.dst) ∧
      ((s.dec.arena.slot m).sym.toNat ≠ 256 →
        t.dec.phase = .ready ∧ t.dec.cur = s.dec.arena.root ∧
          t.dec.port.dst = s.dec.port.dst ++ [(s.dec.arena.slot m).sym.extractLsb' 0 8])

/-- 46_decoder.md R234, R238, R241: from the root, and with no failing access, DRUN on the codes of a byte sequence followed
by the sentinel's code writes exactly those bytes, ends in phase DONE and reads not one bit further; when the source ends
inside a code instead, it writes the bytes before and raises TRUNCATED. That a source whose `RP` stands past its end, where R62
says nothing, has ended too is the model's reading (log 13): no premise here puts `RP` inside the source. -/
def Obligations.DrunDecodesToTheSentinel : Prop :=
  ∀ (s : State) (code : Symbol → Bits) (msg : List Byte) (rest : Bits) (m : NodeId),
    s.dec.err = .none → s.dec.phase = .ready → s.dec.cur = s.dec.arena.root →
    (s.dec.arena.slot s.dec.arena.root).kind = .internal →
    (∀ b ∈ msg, ∃ k, LeadsTo s.dec.arena s.dec.arena.root (code (byteSymbol b)) k ∧
      (s.dec.arena.slot k).kind = .leaf ∧ (s.dec.arena.slot k).sym.toNat = b.toNat) →
    unread s.dec = (msg.flatMap fun b => code (byteSymbol b)) ++ rest →
    (∀ more, rest = code sentinel ++ more → LeadsTo s.dec.arena s.dec.arena.root (code sentinel) m →
      (s.dec.arena.slot m).kind = .leaf → (s.dec.arena.slot m).sym.toNat = 256 →
      Calm .dec ((unread s.dec).length - more.length + msg.length) s.dec.port.io →
      ∃ t, exec .drun s = .next t ∧ t.dec.err = .none ∧ t.dec.phase = .done ∧ t.dec.cur = m ∧
        t.dec.port.dst = s.dec.port.dst ++ msg ∧ unread t.dec = more) ∧
    (LeadsTo s.dec.arena s.dec.arena.root rest m → (s.dec.arena.slot m).kind = .internal →
      Calm .dec ((unread s.dec).length + msg.length) s.dec.port.io →
      ∃ t, exec .drun s = .next t ∧ t.dec.err = .truncated ∧ t.dec.eoi = true ∧ t.dec.cur = m ∧
        t.dec.port.dst = s.dec.port.dst ++ msg ∧ unread t.dec = [])

/-- 46_decoder.md R239: DCLOSE in any phase but CLOSED, also under a latched error, makes the phase CLOSED and changes nothing
else; in CLOSED it raises SEQUENCE, or does nothing under a latched error, and no command but DINIT changes the
destination. -/
def Obligations.DcloseCloses : Prop :=
  decode 0xB8 = .command .dclose ∧
  (∀ s : State, s.dec.phase = .closed →
    exec .dclose s = .next (if s.dec.err = .none then { s with dec := { s.dec with err := .sequence } } else s) ∧
    ∀ (i : Instr) (t : State), i ≠ .dinit → exec i s = .next t → t.dec.port.dst = s.dec.port.dst) ∧
  ∀ s : State, s.dec.phase ≠ .closed → exec .dclose s = .next { s with dec := { s.dec with phase := .closed } }

/-- 44_bitreader.md R181: when WriteBit for each bit of `c`, from an empty accumulator, and then Flush have appended the bytes
`l`, and DEC's source goes on with them, as many calls of ReadBit as `l` has bits return the bits of `c` in order followed by
the zero pad bits, and the next call answers EOI if no byte follows. -/
def Obligations.ReaderMirrorsThePacker : Prop :=
  ∀ (e e1 e2 : Enc) (c : Bits) (l tail : List Byte) (d : Dec), e.nbits = 0 → emitBits c e = .ok e1 () →
    flush e1 = .ok e2 () → e2.port.dst = e.port.dst ++ l →
    d.cnt = 8 → d.port.rp ≤ d.port.src.length → d.port.src.drop d.port.rp = l ++ tail → Calm .dec l.length d.port.io →
    l.length = (c.length + 7) / 8 ∧
    ∃ d', readBits (8 * l.length) d = .ok d' (c ++ List.replicate (8 * l.length - c.length) false) ∧
      d'.port.rp = d.port.rp + l.length ∧ (tail = [] → readBit d' = .ok { d' with eoi := true } none)

/-! ### The machine as a whole -/

/-- 10_state.md R39: the machine right after reset meets the invariant. -/
def Obligations.ResetMeetsTheInvariant : Prop := Inv State.reset

/-- 10_state.md R39, R33, R37, 46_decoder.md R233, R235, 60_exceptions.md R261: every step from a state that meets the
invariant leads to one that meets it: the offsets stay inside the sources, the bit registers in their ranges, no tree and no
code before they are built, a full binary tree and 1 to 256 bit codes after, the sentinel's count 1, no decoded byte before
READY, the walker on an INTERNAL node whenever DSTEP may run, and only errors the unit's commands can raise. -/
def Obligations.EveryStepKeepsTheInvariant : Prop :=
  ∀ s t : State, Inv s → step s = .next t → Inv t

/-- 60_exceptions.md R260, 46_decoder.md R235: from a state that meets the invariant no step stops the machine: whatever word
the host writes and whatever access fails, there is a next state (the model's Fault constructors, log 6, are never reached). -/
def Obligations.NoStepStopsTheMachine : Prop :=
  ∀ s : State, Inv s → ∃ t, step s = .next t

/-- 45_encoder.md R201: from any state, with no failing access and no byte value occurring more than 0xFFFFFFFF times, ENCODE
ends CLOSED with no error, EOI set and the whole source read, and the destination holds the header of the source's histogram
followed by the packing of the bytes' codes in order and the sentinel's code, the codes being the paths of the tree of that
histogram. -/
def Obligations.EncodeWritesTheArtifact : Prop :=
  ∀ s : State, (∀ b : Byte, s.enc.port.src.count b ≤ 0xFFFFFFFF) →
    Calm .enc (34 * s.enc.port.src.length + 1060) s.enc.port.io →
    ∃ (t : State) (f : Table Count 257) (a : Arena) (code : Symbol → Bits),
      hostRun (writeProgram encodeExpansion) s = .next t ∧
      (∀ b : Byte, (f.get (byteSymbol b)).toNat = s.enc.port.src.count b) ∧ f.get sentinel = 1 ∧
      TreeOf f a ∧ BuiltFrom f a ∧
      (∀ x, f.get x ≠ 0 → ∃ m, LeadsTo a a.root (code x) m ∧ a.slot m = leafNode x (f.get x)) ∧
      t.enc.phase = .closed ∧ t.enc.err = .none ∧ t.enc.eoi = true ∧ t.enc.port.rp = s.enc.port.src.length ∧
      t.enc.port.src = s.enc.port.src ∧ t.dec = s.dec ∧
      t.enc.port.dst = headerBytes f ++
        packBytes ((s.enc.port.src.flatMap fun b => code (byteSymbol b)) ++ code sentinel)

/-- 45_encoder.md R208, R201: two runs of ENCODE on the same source, of which no byte value occurs more than 0xFFFFFFFF times (as
R201 asks), from any two states and with no failing access, leave the same destination. -/
def Obligations.EncodeIsAFunctionOfTheSource : Prop :=
  ∀ s s' : State, s'.enc.port.src = s.enc.port.src → (∀ b : Byte, s.enc.port.src.count b ≤ 0xFFFFFFFF) →
    Calm .enc (34 * s.enc.port.src.length + 1060) s.enc.port.io →
    Calm .enc (34 * s.enc.port.src.length + 1060) s'.enc.port.io →
    ∃ t t', hostRun (writeProgram encodeExpansion) s = .next t ∧
      hostRun (writeProgram encodeExpansion) s' = .next t' ∧ t'.enc.port.dst = t.enc.port.dst

/-- 46_decoder.md R240: the round trip: when ENCODE has run on any source and the host loads the artifact into DEC, followed
by any bytes, DECODE ends CLOSED with no error and the destination holds the source, the empty one included (no access
failing, and no byte value occurring more than 0xFFFFFFFF times, as R201 asks). -/
def Obligations.DecodeOfEncodeIsTheSource : Prop :=
  ∀ (s : State) (tail : List Byte), (∀ b : Byte, s.enc.port.src.count b ≤ 0xFFFFFFFF) →
    Calm .enc (34 * s.enc.port.src.length + 1060) s.enc.port.io →
    Calm .dec (257 * s.enc.port.src.length + 1284) s.dec.port.io →
    ∃ t u, hostRun (writeProgram encodeExpansion) s = .next t ∧
      hostRun (.load .dec (t.enc.port.dst ++ tail) :: writeProgram decodeExpansion) t = .next u ∧
      u.dec.phase = .closed ∧ u.dec.err = .none ∧ u.dec.port.dst = s.enc.port.src

/-! ### Beside the statements above -/

/-- 43_bitwriter.md R164, 20_memory.md R65: WriteBit for each bit of `c`, from an empty accumulator, and then Flush append
`ceil(m/8)` bytes, no write failing: byte `j` holds `c[8j] .. c[8j+7]` in bits 7 down to 0, the missing bits of the last byte
0; and no bit is held any more. -/
def Obligations.PackerWritesTheBitsMsbFirst : Prop :=
  ∀ (e : Enc) (c : Bits), e.nbits = 0 → Calm .enc ((c.length + 7) / 8) e.port.io →
    ∃ (e1 e2 : Enc) (l : List Byte), emitBits c e = .ok e1 () ∧ flush e1 = .ok e2 () ∧
      e2.port.dst = e.port.dst ++ l ∧ e2.nbits = 0 ∧ l.length = (c.length + 7) / 8 ∧
      ∀ j k, j < l.length → k < 8 → (l.getD j 0).getLsbD (7 - k) = c.getD (8 * j + k) false

/-- 46_decoder.md R235, R236: in phase READY, with the walker on an INTERNAL node of a tree, a bit to read, no failing access
and a child that is not the null leaf, DSTEP completes with no error: it uses up the bit, keeps the tree, and leaves the walker
on an INTERNAL node, or ends the walk, DONE, on the sentinel's leaf. -/
def Obligations.DstepKeepsTheWalkerInTheTree : Prop :=
  ∀ (s : State) (f : Table Count 257) (b : Bool) (rest : Bits), s.dec.err = .none → s.dec.phase = .ready →
    TreeOf f s.dec.arena → (s.dec.arena.slot s.dec.cur).kind = .internal →
    unread s.dec = b :: rest → Calm .dec 2 s.dec.port.io →
    (s.dec.arena.slot (childOf s.dec.arena s.dec.cur b)).kind ≠ .nullLeaf →
    ∃ t, exec .dstep s = .next t ∧ t.dec.err = .none ∧ unread t.dec = rest ∧ t.dec.arena = s.dec.arena ∧
      ((t.dec.phase = .ready ∧ (t.dec.arena.slot t.dec.cur).kind = .internal) ∨
        (t.dec.phase = .done ∧ (t.dec.arena.slot t.dec.cur).kind = .leaf ∧
          (t.dec.arena.slot t.dec.cur).sym.toNat = 256))

/-- 10_state.md R31, R38: the inspection port shows a slot of either arena by its five fields, `kind` as 0 EMPTY, 1 LEAF,
2 NULLLEAF or 3 INTERNAL, and the read changes nothing. -/
def Obligations.InspectionShowsTheArenaSlots : Prop :=
  ∀ (s : State) (i : Fin 513) (n : Node) (kind : Nat),
    kind = (match n.kind with
      | .empty => 0
      | .leaf => 1
      | .nullLeaf => 2
      | .internal => 3) →
    (s.enc.arena.node.get i = n → hostRead (.enc (.node i)) s =
      (.slot kind n.sym.toNat n.weight.toNat n.left.toNat n.right.toNat, s)) ∧
    (s.dec.arena.node.get i = n → hostRead (.dec (.node i)) s =
      (.slot kind n.sym.toNat n.weight.toNat n.left.toNat n.right.toNat, s))

/-- 20_memory.md R61, 60_exceptions.md R275, 93_implementation_defined.md I17: the host may set a source before the unit's INIT,
also when an illegal word comes first, and from that INIT on only once the unit is CLOSED or initialised again; in between,
setting it is refused. That setting it moves nothing but the source, `RP` least of all, is the model's choice (log 14); that it
is refused as well after a command run with no INIT before it, which `SourceUse.inUse` says of
`begun`, is another (log 11). -/
def Obligations.SourcesAreSetBetweenOperations : Prop :=
  (∀ (use : SourceUses) (bytes : List Byte) (s : State),
    (use.enc.inUse = true → hostStep use (.load .enc bytes) s = .refused (.sourceInUse .enc)) ∧
    (use.enc.inUse = false → hostStep use (.load .enc bytes) s =
      .next { s with enc := { s.enc with port := { s.enc.port with src := bytes } } }) ∧
    (use.dec.inUse = true → hostStep use (.load .dec bytes) s = .refused (.sourceInUse .dec) ∧
      hostStep use .moveArtifact s = .refused (.sourceInUse .dec)) ∧
    (use.dec.inUse = false →
      hostStep use (.load .dec bytes) s =
        .next { s with dec := { s.dec with port := { s.dec.port with src := bytes } } } ∧
      hostStep use .moveArtifact s =
        .next { s with dec := { s.dec with port := { s.dec.port with src := s.enc.port.dst } } })) ∧
  ∀ (s : State) (x y : List Byte) (evs : List HostEvent),
    hostRun (.load .enc x :: .write 0x00 :: .load .enc y :: evs) s = .refused (.sourceInUse .enc) ∧
    hostRun (.load .dec x :: .write 0x80 :: .load .dec y :: evs) s = .refused (.sourceInUse .dec) ∧
    hostRun (.load .dec x :: .write 0x80 :: .moveArtifact :: evs) s = .refused (.sourceInUse .dec) ∧
    hostRun (.load .enc x :: .write 0x68 :: .write 0x00 :: .load .enc y :: evs) s = .refused (.sourceInUse .enc) ∧
    hostRun (.load .dec x :: .write 0xC0 :: .write 0x80 :: .load .dec y :: evs) s = .refused (.sourceInUse .dec) ∧
    (∃ t, hostRun [.load .enc x, .write 0x68, .load .enc y] s = .next t ∧ t.enc.port.src = y) ∧
    (∃ t, hostRun [.load .dec x, .write 0xC0, .load .dec y] s = .next t ∧ t.dec.port.src = y) ∧
    (∃ t, hostRun [.load .enc x, .write 0x00, .write 0x60, .load .enc y] s = .next t ∧ t.enc.port.src = y) ∧
    (∃ t, hostRun [.load .dec x, .write 0x80, .write 0xB8, .load .dec y] s = .next t ∧ t.dec.port.src = y) ∧
    (∃ t, hostRun [.load .enc x, .write 0x00, .write 0x00, .load .enc y] s = .next t ∧ t.enc.port.src = y) ∧
    ∃ t, hostRun [.load .dec x, .write 0x80, .write 0x80, .load .dec y] s = .next t ∧ t.dec.port.src = y

/-- 20_memory.md R61, 60_exceptions.md R275, 93_implementation_defined.md I17: whatever words `before` come before the unit's
first INIT and whatever words `after` but INIT follow it, from that INIT on the source is left unchanged until the unit is
CLOSED: the host's setting it is refused until then, and is done once the unit is CLOSED, `RP` staying where it is by the
model's choice (log 14). -/
def Obligations.SourceIsLeftAloneFromInitUntilClosed : Prop :=
  ∀ (s t : State) (x y : List Byte) (before after : List Byte) (evs : List HostEvent),
    ((∀ w ∈ before ++ after, decode w ≠ .command .einit) →
      hostRun (.load .enc x :: (before ++ 0x00 :: after).map .write) s = .next t →
      t.enc.port.src = x ∧
      (t.enc.phase ≠ .closed →
        hostRun (.load .enc x :: (before ++ 0x00 :: after).map .write ++ .load .enc y :: evs) s =
          .refused (.sourceInUse .enc)) ∧
      (t.enc.phase = .closed →
        hostRun (.load .enc x :: (before ++ 0x00 :: after).map .write ++ [.load .enc y]) s =
          .next { t with enc := { t.enc with port := { t.enc.port with src := y } } })) ∧
    ((∀ w ∈ before ++ after, decode w ≠ .command .dinit) →
      hostRun (.load .dec x :: (before ++ 0x80 :: after).map .write) s = .next t →
      t.dec.port.src = x ∧
      (t.dec.phase ≠ .closed →
        hostRun (.load .dec x :: (before ++ 0x80 :: after).map .write ++ .load .dec y :: evs) s =
          .refused (.sourceInUse .dec) ∧
        hostRun (.load .dec x :: (before ++ 0x80 :: after).map .write ++ .moveArtifact :: evs) s =
          .refused (.sourceInUse .dec)) ∧
      (t.dec.phase = .closed →
        hostRun (.load .dec x :: (before ++ 0x80 :: after).map .write ++ [.load .dec y]) s =
          .next { t with dec := { t.dec with port := { t.dec.port with src := y } } }))
end

