-- ==== Sys2Proof/Laws/State.lean ====
section
/-! SUPPORT. What each update of the state leaves of each field: one lemma per field, true by unfolding once. -/

namespace Sys2Proof.Machine

section Machine

variable (s : State) (e : Enc) (d : Dec) (w : Byte)

@[simp] theorem State.setEnc_enc : (s.setEnc e).enc = e := rfl
@[simp] theorem State.setEnc_dec : (s.setEnc e).dec = s.dec := rfl
@[simp] theorem State.setEnc_cmd : (s.setEnc e).cmd = s.cmd := rfl
@[simp] theorem State.setDec_enc : (s.setDec d).enc = s.enc := rfl
@[simp] theorem State.setDec_dec : (s.setDec d).dec = d := rfl
@[simp] theorem State.setDec_cmd : (s.setDec d).cmd = s.cmd := rfl
@[simp] theorem putWord_enc : (putWord w s).enc = s.enc := rfl
@[simp] theorem putWord_dec : (putWord w s).dec = s.dec := rfl
@[simp] theorem putWord_cmd : (putWord w s).cmd = w :: s.cmd := rfl
@[simp] theorem nextWord_putWord : nextWord (putWord w s) = some (w, s) := rfl

end Machine

section Latch

variable (c : ErrCode) (e : Enc) (d : Dec)

@[simp] theorem Enc.latch_phase : (e.latch c).phase = e.phase := by unfold Enc.latch; split <;> rfl
@[simp] theorem Enc.latch_eoi : (e.latch c).eoi = e.eoi := by unfold Enc.latch; split <;> rfl
@[simp] theorem Enc.latch_freq : (e.latch c).freq = e.freq := by unfold Enc.latch; split <;> rfl
@[simp] theorem Enc.latch_arena : (e.latch c).arena = e.arena := by unfold Enc.latch; split <;> rfl
@[simp] theorem Enc.latch_code : (e.latch c).code = e.code := by unfold Enc.latch; split <;> rfl
@[simp] theorem Enc.latch_acc : (e.latch c).acc = e.acc := by unfold Enc.latch; split <;> rfl
@[simp] theorem Enc.latch_nbits : (e.latch c).nbits = e.nbits := by unfold Enc.latch; split <;> rfl
@[simp] theorem Enc.latch_port : (e.latch c).port = e.port := by unfold Enc.latch; split <;> rfl
theorem Enc.latch_err : (e.latch c).err = if e.err = .none then c else e.err := by
  unfold Enc.latch; split <;> rfl
theorem Enc.latch_of_none (h : e.err = .none) : e.latch c = { e with err := c } := if_pos h
theorem Enc.latch_of_ne (h : e.err ≠ .none) : e.latch c = e := if_neg h

@[simp] theorem Dec.latch_phase : (d.latch c).phase = d.phase := by unfold Dec.latch; split <;> rfl
@[simp] theorem Dec.latch_eoi : (d.latch c).eoi = d.eoi := by unfold Dec.latch; split <;> rfl
@[simp] theorem Dec.latch_lastBit : (d.latch c).lastBit = d.lastBit := by unfold Dec.latch; split <;> rfl
@[simp] theorem Dec.latch_freq : (d.latch c).freq = d.freq := by unfold Dec.latch; split <;> rfl
@[simp] theorem Dec.latch_arena : (d.latch c).arena = d.arena := by unfold Dec.latch; split <;> rfl
@[simp] theorem Dec.latch_cur : (d.latch c).cur = d.cur := by unfold Dec.latch; split <;> rfl
@[simp] theorem Dec.latch_buf : (d.latch c).buf = d.buf := by unfold Dec.latch; split <;> rfl
@[simp] theorem Dec.latch_cnt : (d.latch c).cnt = d.cnt := by unfold Dec.latch; split <;> rfl
@[simp] theorem Dec.latch_port : (d.latch c).port = d.port := by unfold Dec.latch; split <;> rfl
theorem Dec.latch_err : (d.latch c).err = if d.err = .none then c else d.err := by
  unfold Dec.latch; split <;> rfl
theorem Dec.latch_of_none (h : d.err = .none) : d.latch c = { d with err := c } := if_pos h
theorem Dec.latch_of_ne (h : d.err ≠ .none) : d.latch c = d := if_neg h

end Latch

section Io

variable (io : IoInput)

@[simp] theorem IoInput.tick_answers : io.tick.answers = io.answers.tail := rfl
@[simp] theorem IoInput.tick_draws : io.tick.draws = io.draws + 1 := rfl

/-- The answer to access `j` after one access is the answer to access `j + 1` before it. -/
@[simp] theorem IoInput.tick_answerAt (u : UnitId) (d : Dir) (off j : Nat) :
    io.tick.answerAt u d off j = io.answerAt u d off (j + 1) := by
  simp [IoInput.answerAt, Nat.add_assoc, Nat.add_comm 1 j]

end Io

section Host

variable (u : UnitId) (t : State)

@[simp] theorem SourceUse.inUse_idle : SourceUse.idle.inUse = false := rfl
@[simp] theorem SourceUse.inUse_begun : SourceUse.begun.inUse = true := rfl
@[simp] theorem SourceUse.inUse_held : SourceUse.held.inUse = true := rfl
@[simp] theorem SourceUse.inUse_renewed : SourceUse.renewed.inUse = false := rfl

/-- A source in use is not set (93_implementation_defined.md I17). -/
theorem setSource_inUse {use : SourceUse} (h : use.inUse = true) : setSource u use t = .refused (.sourceInUse u) := if_pos h

/-- A source that is not in use is set. -/
theorem setSource_free {use : SourceUse} (h : use.inUse = false) : setSource u use t = .next t := by simp [setSource, h]

/-- Once the unit is CLOSED no operation uses its source (20_memory.md R61). -/
@[simp] theorem SourceUse.afterWord_closed (use : SourceUse) (init ran : Bool) : use.afterWord init ran true = .idle := rfl

/-- A word that runs no command begins and ends no operation. -/
@[simp] theorem SourceUse.afterWord_none (use : SourceUse) : use.afterWord false false false = use := rfl

/-- An operation goes on, whatever word but INIT follows, until the unit is CLOSED. -/
@[simp] theorem SourceUse.afterWord_held (ran : Bool) : SourceUse.held.afterWord false ran false = .held := by
  cases ran <;> rfl

/-- Whatever words came before it, the first INIT after the source was set begins an operation. -/
theorem SourceUse.afterWord_init {use : SourceUse} (h : use = .idle ∨ use = .begun) (ran : Bool) :
    use.afterWord true ran false = .held := by
  rcases h with rfl | rfl <;> rfl

/-- The codes of a slot's kind are four different numbers (10_state.md R31). -/
theorem NodeKind.bits_inj {k k' : NodeKind} (h : k.bits = k'.bits) : k = k' := by
  revert h; cases k <;> cases k' <;> decide

end Host

end Sys2Proof.Machine

namespace Sys2Proof

section Table

variable {α : Type} {n : Nat}

theorem Table.ext_get {t t' : Table α n} (h : ∀ i, t.get i = t'.get i) : t = t' := by
  cases t with
  | mk l hl =>
    cases t' with
    | mk l' hl' =>
      congr
      refine List.ext_getElem (hl.trans hl'.symm) fun i h1 h2 => ?_
      exact h ⟨i, hl ▸ h1⟩

@[simp] theorem Table.get_fill (v : α) (i : Fin n) : (Table.fill n v).get i = v := by
  simp [Table.get, Table.fill]

@[simp] theorem Table.get_ofFn (f : Fin n → α) (i : Fin n) : (Table.ofFn f).get i = f i := by
  simp [Table.get, Table.ofFn]

theorem Table.get_set (t : Table α n) (i j : Fin n) (v : α) :
    (t.set i v).get j = if i = j then v else t.get j := by
  simp [Table.get, Table.set, List.getElem_set, Fin.ext_iff]

@[simp] theorem Table.get_set_self (t : Table α n) (i : Fin n) (v : α) : (t.set i v).get i = v := by
  simp [Table.get_set]

theorem Table.get_set_ne (t : Table α n) {i j : Fin n} (h : i ≠ j) (v : α) : (t.set i v).get j = t.get j := by
  simp [Table.get_set, h]

end Table

end Sys2Proof
end

