-- ==== Sys2Proof/Laws/Ops.lean ====
section
/-! SUPPORT. What each shared operation can do, said once: sequencing, the port accesses, the bulk commands' loop, and the
checks before a command. -/

namespace Sys2Proof.Machine

section Ended

variable {σ τ α β : Type}

@[simp] theorem Ended.bind_ok (s : σ) (a : α) (k : σ → α → Ended σ β) : (Ended.ok s a).bind k = k s a := rfl
@[simp] theorem Ended.bind_raised (s : σ) (c : ErrCode) (k : σ → α → Ended σ β) :
    (Ended.raised s c).bind k = .raised s c := rfl
@[simp] theorem Ended.bind_stuck (f : Fault) (k : σ → α → Ended σ β) :
    (Ended.stuck f : Ended σ α).bind k = .stuck f := rfl
@[simp] theorem Ended.into_ok (put : σ → τ) (s : σ) (a : α) : (Ended.ok s a).into put = .ok (put s) a := rfl
@[simp] theorem Ended.into_raised (put : σ → τ) (s : σ) (c : ErrCode) :
    (Ended.raised s c : Ended σ α).into put = .raised (put s) c := rfl
@[simp] theorem Ended.into_stuck (put : σ → τ) (f : Fault) :
    (Ended.stuck f : Ended σ α).into put = .stuck f := rfl

/-- A stretch of pseudocode keeps `P` when every state it ends in, by running through or by a raise, has `P`. -/
def Ended.Keeps (P : σ → Prop) : Ended σ α → Prop
  | .ok s _ => P s
  | .raised s _ => P s
  | .stuck _ => True

theorem Ended.Keeps.bind {P Q : σ → Prop} {x : Ended σ α} {k : σ → α → Ended σ β} (hx : x.Keeps P)
    (hPQ : ∀ s, P s → Q s) (hk : ∀ s a, P s → (k s a).Keeps Q) : (x.bind k).Keeps Q := by
  cases x with
  | ok s a => exact hk s a hx
  | raised s c => exact hPQ s hx
  | stuck f => trivial

theorem Ended.Keeps.into {P : σ → Prop} {Q : τ → Prop} {x : Ended σ α} {put : σ → τ} (hx : x.Keeps P)
    (h : ∀ s, P s → Q (put s)) : (x.into put).Keeps Q := by
  cases x with
  | ok s a => exact h s hx
  | raised s c => exact h s hx
  | stuck f => trivial

theorem Ended.Keeps.mono {P Q : σ → Prop} {x : Ended σ α} (hx : x.Keeps P) (h : ∀ s, P s → Q s) : x.Keeps Q := by
  cases x with
  | ok s a => exact h s hx
  | raised s c => exact h s hx
  | stuck f => trivial

end Ended

section Ports

variable (u : UnitId) (p : Port)

/-- At the end of the source a read answers EOI and touches nothing (20_memory.md R62). -/
theorem memRead_eoi (h : p.src.length ≤ p.rp) : memRead u p = .ok p none := by
  simp [memRead, List.getElem?_eq_none h]

/-- A read that does not fail answers the byte at `RP` (R62). -/
theorem memRead_byte {b : Byte} (hb : p.src[p.rp]? = some b) (h : p.io.answerAt u .read p.rp 0 = false) :
    memRead u p = .ok { p with io := p.io.tick } (some b) := by
  simp [memRead, hb, h]

/-- A read that fails raises IO and moves nothing (R62). -/
theorem memRead_fault {b : Byte} (hb : p.src[p.rp]? = some b) (h : p.io.answerAt u .read p.rp 0 = true) :
    memRead u p = .raised { p with io := p.io.tick } .io := by
  simp [memRead, hb, h]

theorem takeByte_eoi (h : p.src.length ≤ p.rp) : takeByte u p = .ok p none := by
  simp [takeByte, memRead_eoi u p h]

theorem takeByte_byte {b : Byte} (hb : p.src[p.rp]? = some b) (h : p.io.answerAt u .read p.rp 0 = false) :
    takeByte u p = .ok { p with rp := p.rp + 1, io := p.io.tick } (some b) := by
  simp [takeByte, memRead_byte u p hb h]

theorem takeByte_fault {b : Byte} (hb : p.src[p.rp]? = some b) (h : p.io.answerAt u .read p.rp 0 = true) :
    takeByte u p = .raised { p with io := p.io.tick } .io := by
  simp [takeByte, memRead_fault u p hb h]

/-- Everything asking the source for a byte can do: EOI at its end, a byte and `RP + 1`, or IO. -/
theorem takeByte_cases :
    (p.src.length ≤ p.rp ∧ takeByte u p = .ok p none) ∨
    (∃ b, p.src[p.rp]? = some b ∧ p.io.answerAt u .read p.rp 0 = false ∧
      takeByte u p = .ok { p with rp := p.rp + 1, io := p.io.tick } (some b)) ∨
    (∃ b, p.src[p.rp]? = some b ∧ p.io.answerAt u .read p.rp 0 = true ∧
      takeByte u p = .raised { p with io := p.io.tick } .io) := by
  rcases Nat.lt_or_ge p.rp p.src.length with h | h
  · cases ha : p.io.answerAt u .read p.rp 0 with
    | false => exact .inr (.inl ⟨_, List.getElem?_eq_getElem h, rfl, takeByte_byte u p (List.getElem?_eq_getElem h) ha⟩)
    | true => exact .inr (.inr ⟨_, List.getElem?_eq_getElem h, rfl, takeByte_fault u p (List.getElem?_eq_getElem h) ha⟩)
  · exact .inl ⟨h, takeByte_eoi u p h⟩

/-- A write that does not fail appends its byte (R63). -/
theorem memWrite_ok (v : Byte) (h : p.io.answerAt u .write p.dst.length 0 = false) :
    memWrite u v p = .ok { p with dst := p.dst ++ [v], io := p.io.tick } () := by
  simp [memWrite, h]

/-- A write that fails appends nothing and raises IO (R63). -/
theorem memWrite_fault (v : Byte) (h : p.io.answerAt u .write p.dst.length 0 = true) :
    memWrite u v p = .raised { p with io := p.io.tick } .io := by
  simp [memWrite, h]

end Ports

section Loop

variable {σ α : Type} {body : σ → Ended σ α} {stop : σ → α → Bool}

/-- What every repetition keeps, the loop keeps. -/
theorem repeatUntil_keeps {P : σ → Prop} (hbody : ∀ s, P s → (body s).Keeps P) (n : Nat) (s : σ) (hs : P s) :
    (repeatUntil body stop n s).Keeps P := by
  induction n generalizing s with
  | zero => trivial
  | succ n ih =>
    refine (hbody s hs).bind (fun _ h => h) fun s a h => ?_
    split
    · exact h
    · exact ih s h

/-- With a measure that every repetition which goes on makes smaller, the loop never uses its bound up: more fuel changes
nothing. So a bulk command is its `repeat`, not a bounded copy of it. -/
theorem repeatUntil_fuel (m : σ → Nat) (hm : ∀ s s' a, body s = .ok s' a → stop s' a = false → m s' < m s) :
    ∀ n k s, m s < n → n ≤ k → repeatUntil body stop k s = repeatUntil body stop n s := by
  intro n
  induction n with
  | zero => intro k s h; omega
  | succ n ih =>
    intro k s h hk
    obtain ⟨k, rfl⟩ : ∃ k', k = k' + 1 := ⟨k - 1, by omega⟩
    simp only [repeatUntil]
    cases hb : body s with
    | ok s' a =>
      simp only [Ended.bind_ok]
      split
      · rfl
      · rename_i hstop
        have := hm s s' a hb (by simpa using hstop)
        exact ih k s' (by omega) (by omega)
    | raised s' c => rfl
    | stuck f => rfl

/-- The loop's own equation: run the body once, stop if it says so, else start again. -/
theorem repeatUntil_unfold (m : σ → Nat) (hm : ∀ s s' a, body s = .ok s' a → stop s' a = false → m s' < m s) (s : σ) :
    repeatUntil body stop (m s + 1) s =
      (body s).bind fun s' a => if stop s' a then .ok s' a else repeatUntil body stop (m s' + 1) s' := by
  conv => lhs; unfold repeatUntil
  cases hb : body s with
  | ok s' a =>
    simp only [Ended.bind_ok]
    split
    · rfl
    · rename_i hstop
      have := hm s s' a hb (by simpa using hstop)
      exact repeatUntil_fuel m hm _ _ s' (Nat.lt_succ_self _) (by omega)
  | raised s' c => rfl
  | stuck f => rfl

/-- The loop stops the machine only where its body does. -/
theorem repeatUntil_ne_stuck {P : σ → Prop} (m : σ → Nat)
    (hm : ∀ s s' a, body s = .ok s' a → stop s' a = false → m s' < m s)
    (hP : ∀ s s' a, P s → body s = .ok s' a → stop s' a = false → P s')
    (hstuck : ∀ s f, P s → body s ≠ .stuck f) :
    ∀ n s, P s → m s < n → ∀ f, repeatUntil body stop n s ≠ .stuck f := by
  intro n
  induction n with
  | zero => intro s _ h; omega
  | succ n ih =>
    intro s hs h f
    simp only [repeatUntil]
    cases hb : body s with
    | ok s' a =>
      simp only [Ended.bind_ok]
      split
      · simp
      · rename_i hstop
        have hlt := hm s s' a hb (by simpa using hstop)
        exact ih s' (hP s s' a hs hb (by simpa using hstop)) (by omega) f
    | raised s' c => simp
    | stuck g => exact absurd hb (hstuck s g hs)

end Loop

section Gates

variable {α : Type} (i : Instr) (s t : State)

theorem encFinish_next {x : Ended Enc α} (h : encFinish s x = .next t) :
    (∃ e a, x = .ok e a ∧ t = s.setEnc e) ∨ ∃ e c, x = .raised e c ∧ t = s.setEnc (e.latch c) := by
  cases x with
  | ok e a => exact .inl ⟨e, a, rfl, by simpa [encFinish] using h.symm⟩
  | raised e c => exact .inr ⟨e, c, rfl, by simpa [encFinish] using h.symm⟩
  | stuck f => simp [encFinish] at h

theorem decFinish_next {x : Ended Dec α} (h : decFinish s x = .next t) :
    (∃ d a, x = .ok d a ∧ t = s.setDec d) ∨ ∃ d c, x = .raised d c ∧ t = s.setDec (d.latch c) := by
  cases x with
  | ok d a => exact .inl ⟨d, a, rfl, by simpa [decFinish] using h.symm⟩
  | raised d c => exact .inr ⟨d, c, rfl, by simpa [decFinish] using h.symm⟩
  | stuck f => simp [decFinish] at h

/-- Under a latched error a command has no effect (60_exceptions.md R263). -/
theorem encGate_latched {body : Enc → Ended Enc Unit} (h : s.enc.err ≠ .none) : encGate i body s = .next s := if_pos h

/-- Outside its phases a command raises SEQUENCE (30_encoding.md R86). -/
theorem encGate_sequence {body : Enc → Ended Enc Unit} (h : s.enc.err = .none) (hp : phaseLegal i s = false) :
    encGate i body s = .next (s.setEnc { s.enc with err := .sequence }) := by
  simp [encGate, h, hp, Enc.latch_of_none _ _ h]

/-- In its phases and with no error latched, a command is its pseudocode (R264 step 6). -/
theorem encGate_run {body : Enc → Ended Enc Unit} (h : s.enc.err = .none) (hp : phaseLegal i s = true) :
    encGate i body s = encFinish s (body s.enc) := by
  simp [encGate, h, hp]

theorem decGate_latched {body : Dec → Ended Dec Unit} (h : s.dec.err ≠ .none) : decGate i body s = .next s := if_pos h

theorem decGate_sequence {body : Dec → Ended Dec Unit} (h : s.dec.err = .none) (hp : phaseLegal i s = false) :
    decGate i body s = .next (s.setDec { s.dec with err := .sequence }) := by
  simp [decGate, h, hp, Dec.latch_of_none _ _ h]

theorem decGate_run {body : Dec → Ended Dec Unit} (h : s.dec.err = .none) (hp : phaseLegal i s = true) :
    decGate i body s = decFinish s (body s.dec) := by
  simp [decGate, h, hp]

/-- Everything a gated ENC command can do when it answers a next state: nothing under a latched error, SEQUENCE, or its
pseudocode to the end or to its first raise. -/
theorem encGate_next {body : Enc → Ended Enc Unit} (h : encGate i body s = .next t) :
    (s.enc.err ≠ .none ∧ t = s) ∨
    (s.enc.err = .none ∧ phaseLegal i s = false ∧ t = s.setEnc { s.enc with err := .sequence }) ∨
    (s.enc.err = .none ∧ phaseLegal i s = true ∧
      ((∃ e a, body s.enc = .ok e a ∧ t = s.setEnc e) ∨ ∃ e c, body s.enc = .raised e c ∧ t = s.setEnc (e.latch c))) := by
  by_cases he : s.enc.err = .none
  · cases hp : phaseLegal i s with
    | false =>
      rw [encGate_sequence i s he hp] at h
      exact .inr (.inl ⟨he, rfl, by simpa using h.symm⟩)
    | true =>
      rw [encGate_run i s he hp] at h
      exact .inr (.inr ⟨he, rfl, encFinish_next s t h⟩)
  · rw [encGate_latched i s he] at h
    exact .inl ⟨he, by simpa using h.symm⟩

/-- Everything a gated DEC command can do when it answers a next state. -/
theorem decGate_next {body : Dec → Ended Dec Unit} (h : decGate i body s = .next t) :
    (s.dec.err ≠ .none ∧ t = s) ∨
    (s.dec.err = .none ∧ phaseLegal i s = false ∧ t = s.setDec { s.dec with err := .sequence }) ∨
    (s.dec.err = .none ∧ phaseLegal i s = true ∧
      ((∃ d a, body s.dec = .ok d a ∧ t = s.setDec d) ∨ ∃ d c, body s.dec = .raised d c ∧ t = s.setDec (d.latch c))) := by
  by_cases he : s.dec.err = .none
  · cases hp : phaseLegal i s with
    | false =>
      rw [decGate_sequence i s he hp] at h
      exact .inr (.inl ⟨he, rfl, by simpa using h.symm⟩)
    | true =>
      rw [decGate_run i s he hp] at h
      exact .inr (.inr ⟨he, rfl, decFinish_next s t h⟩)
  · rw [decGate_latched i s he] at h
    exact .inl ⟨he, by simpa using h.symm⟩

/-- A gated ENC command stops the machine only where its pseudocode does. -/
theorem encGate_total {body : Enc → Ended Enc Unit}
    (h : s.enc.err = .none → phaseLegal i s = true → ∀ f, body s.enc ≠ .stuck f) : ∃ t, encGate i body s = .next t := by
  by_cases he : s.enc.err = .none
  · cases hp : phaseLegal i s with
    | false => exact ⟨_, encGate_sequence i s he hp⟩
    | true =>
      rw [encGate_run i s he hp]
      cases hb : body s.enc with
      | ok e a => exact ⟨_, rfl⟩
      | raised e c => exact ⟨_, rfl⟩
      | stuck f => exact absurd hb (h he hp f)
  · exact ⟨_, encGate_latched i s he⟩

/-- A gated DEC command stops the machine only where its pseudocode does. -/
theorem decGate_total {body : Dec → Ended Dec Unit}
    (h : s.dec.err = .none → phaseLegal i s = true → ∀ f, body s.dec ≠ .stuck f) : ∃ t, decGate i body s = .next t := by
  by_cases he : s.dec.err = .none
  · cases hp : phaseLegal i s with
    | false => exact ⟨_, decGate_sequence i s he hp⟩
    | true =>
      rw [decGate_run i s he hp]
      cases hb : body s.dec with
      | ok d a => exact ⟨_, rfl⟩
      | raised d c => exact ⟨_, rfl⟩
      | stuck f => exact absurd hb (h he hp f)
  · exact ⟨_, decGate_latched i s he⟩

/-- What a command's pseudocode and the latch keep, the command keeps, and it changes nothing but its unit. -/
theorem encGate_keeps {P : Enc → Prop} {i : Instr} {body : Enc → Ended Enc Unit} {s t : State}
    (h : encGate i body s = .next t) (hs : P s.enc) (hl : ∀ e c, P e → P (e.latch c))
    (hb : s.enc.err = .none → phaseLegal i s = true → (body s.enc).Keeps P) : t = s.setEnc t.enc ∧ P t.enc := by
  rcases encGate_next i s t h with ⟨_, rfl⟩ | ⟨he, _, rfl⟩ | ⟨he, hp, ⟨e, a, hk, rfl⟩ | ⟨e, c, hk, rfl⟩⟩
  · exact ⟨rfl, hs⟩
  · exact ⟨rfl, by have := hl s.enc .sequence hs; rwa [Enc.latch_of_none _ _ he] at this⟩
  · have := hb he hp; rw [hk] at this; exact ⟨rfl, this⟩
  · have := hb he hp; rw [hk] at this; exact ⟨rfl, hl _ _ this⟩

/-- What a command's pseudocode and the latch keep, the command keeps, and it changes nothing but its unit. -/
theorem decGate_keeps {P : Dec → Prop} {i : Instr} {body : Dec → Ended Dec Unit} {s t : State}
    (h : decGate i body s = .next t) (hs : P s.dec) (hl : ∀ e c, P e → P (e.latch c))
    (hb : s.dec.err = .none → phaseLegal i s = true → (body s.dec).Keeps P) : t = s.setDec t.dec ∧ P t.dec := by
  rcases decGate_next i s t h with ⟨_, rfl⟩ | ⟨he, _, rfl⟩ | ⟨he, hp, ⟨e, a, hk, rfl⟩ | ⟨e, c, hk, rfl⟩⟩
  · exact ⟨rfl, hs⟩
  · exact ⟨rfl, by have := hl s.dec .sequence hs; rwa [Dec.latch_of_none _ _ he] at this⟩
  · have := hb he hp; rw [hk] at this; exact ⟨rfl, this⟩
  · have := hb he hp; rw [hk] at this; exact ⟨rfl, hl _ _ this⟩

end Gates

end Sys2Proof.Machine
end

