-- ==== Sys2Proof/Laws/Bits.lean ====
section
/-! SUPPORT. The bit-packer and the bit-unpacker (43_bitwriter.md, 44_bitreader.md): what packing a bit string does to the
registers and the destination, and what reading bits does. -/

namespace Sys2Proof.Safety

open Sys2Proof.Machine

section Calm

variable {u : UnitId} {io : IoInput} {n : Nat}

theorem Calm.head (h : Calm u (n + 1) io) (d : Dir) (off : Nat) : io.answerAt u d off 0 = false :=
  h 0 (Nat.succ_pos n) d off

theorem Calm.tick (h : Calm u (n + 1) io) : Calm u n io.tick := fun j hj d off => by
  rw [IoInput.tick_answerAt]
  exact h (j + 1) (by omega) d off

theorem Calm.mono {m : Nat} (h : Calm u n io) (hm : m ≤ n) : Calm u m io := fun j hj d off => h j (by omega) d off

@[simp] theorem ioAfter_zero (io : IoInput) : ioAfter 0 io = io := rfl

@[simp] theorem ioAfter_tick (n : Nat) (io : IoInput) : ioAfter n io.tick = ioAfter (n + 1) io := by
  simp [ioAfter, IoInput.tick, Nat.add_comm 1 n, Nat.add_assoc]

theorem tick_eq_ioAfter (io : IoInput) : io.tick = ioAfter 1 io := by
  rw [← ioAfter_tick, ioAfter_zero]

@[simp] theorem ioAfter_ioAfter (m n : Nat) (io : IoInput) : ioAfter m (ioAfter n io) = ioAfter (n + m) io := by
  simp [ioAfter, Nat.add_assoc]

theorem Calm.after {m : Nat} (h : Calm u (m + n) io) : Calm u n (ioAfter m io) := fun j hj d off => by
  have := h (m + j) (by omega) d off
  simpa [IoInput.answerAt, ioAfter, List.getElem?_drop, Nat.add_assoc] using this

/-- Answers the host has fixed to "no fault" make the coming accesses calm, whatever the free draws after them. -/
theorem calm_of_answers {k : Nat} (h : io.answers.take n = List.replicate n false) (hk : k ≤ n) : Calm u k io := by
  intro j hj d off
  have hget : (io.answers.take n)[j]? = some false := by
    rw [h, List.getElem?_replicate, if_pos (by omega)]
  rw [List.getElem?_take, if_pos (by omega)] at hget
  simp [IoInput.answerAt, hget]

end Calm

section Packing

theorem wholeBytes_short {c : Bits} (h : c.length < 8) : wholeBytes c = [] := by
  simp [wholeBytes, Nat.div_eq_of_lt h]

theorem leftBits_short {c : Bits} (h : c.length < 8) : leftBits c = c := by
  simp [leftBits, Nat.div_eq_of_lt h]

theorem packedByte_drop (c : Bits) (j : Nat) : packedByte (c.drop 8) j = packedByte c (j + 1) := by
  simp only [packedByte, List.drop_drop]
  rw [show 8 + 8 * j = 8 * (j + 1) by omega]

theorem wholeBytes_long {c : Bits} (h : 8 ≤ c.length) :
    wholeBytes c = byteOfBits (c.take 8) :: wholeBytes (c.drop 8) := by
  have hd : c.length / 8 = (c.length - 8) / 8 + 1 := by omega
  simp only [wholeBytes, List.length_drop, hd, List.range_succ_eq_map, List.map_cons, List.map_map]
  refine congrArg₂ _ (by simp [packedByte]) (List.map_congr_left fun j _ => ?_)
  exact (packedByte_drop c j).symm

theorem leftBits_long {c : Bits} (h : 8 ≤ c.length) : leftBits c = leftBits (c.drop 8) := by
  have hd : c.length / 8 = (c.length - 8) / 8 + 1 := by omega
  simp only [leftBits, List.length_drop, hd, List.drop_drop]
  congr 1
  omega

theorem leftBits_length (c : Bits) : (leftBits c).length = c.length % 8 := by
  simp only [leftBits, List.length_drop]
  omega

/-- Packing goes on from the bits left over: whole bytes. -/
theorem wholeBytes_append : ∀ (k : Nat) (c d : Bits), c.length = k →
    wholeBytes (c ++ d) = wholeBytes c ++ wholeBytes (leftBits c ++ d) := by
  intro k
  induction k using Nat.strong_induction_on with
  | _ k ih =>
    intro c d hk
    by_cases h : c.length < 8
    · rw [wholeBytes_short h, leftBits_short h]; rfl
    · have h8 : 8 ≤ c.length := by omega
      rw [wholeBytes_long (c := c ++ d) (by simp; omega), wholeBytes_long h8, leftBits_long h8,
        List.take_append_of_le_length h8, List.drop_append_of_le_length h8,
        ih (k - 8) (by omega) (c.drop 8) d (by simp; omega)]
      rfl

/-- Packing goes on from the bits left over: the bits left. -/
theorem leftBits_append : ∀ (k : Nat) (c d : Bits), c.length = k → leftBits (c ++ d) = leftBits (leftBits c ++ d) := by
  intro k
  induction k using Nat.strong_induction_on with
  | _ k ih =>
    intro c d hk
    by_cases h : c.length < 8
    · rw [leftBits_short h]
    · have h8 : 8 ≤ c.length := by omega
      rw [leftBits_long (c := c ++ d) (by simp; omega), leftBits_long h8, List.drop_append_of_le_length h8,
        ih (k - 8) (by omega) (c.drop 8) d (by simp; omega)]

/-- The packing is the bytes filled completely and, if bits are left, one byte more. -/
theorem packBytes_eq (c : Bits) :
    packBytes c = wholeBytes c ++ if leftBits c = [] then [] else [byteOfBits (leftBits c)] := by
  have hl := leftBits_length c
  by_cases h : leftBits c = []
  · rw [h, List.length_nil] at hl
    rw [if_pos h, List.append_nil, packBytes, wholeBytes]
    congr 2
    omega
  · have hpos := List.length_pos_iff.2 h
    rw [if_neg h, packBytes, wholeBytes, show (c.length + 7) / 8 = c.length / 8 + 1 by omega, List.range_succ,
      List.map_append]
    congr 1
    simp only [List.map_cons, List.map_nil, packedByte, leftBits]
    rw [List.take_of_length_le (by rw [List.length_drop]; omega)]

@[simp] theorem heldBits_length (acc : BitVec 8) (k : Nat) : (heldBits acc k).length = k := by simp [heldBits]

@[simp] theorem heldBits_zero (acc : BitVec 8) : heldBits acc 0 = [] := rfl

theorem heldBits_getElem? (acc : BitVec 8) {k j : Nat} (h : j < k) :
    (heldBits acc k)[j]? = some (acc.getLsbD (k - 1 - j)) := by
  simp [heldBits, h]

theorem shiftIn_getLsbD (acc : BitVec 8) (b : Bool) {i : Nat} (h : i < 8) :
    (shiftIn acc b).getLsbD i = if i = 0 then b else acc.getLsbD (i - 1) := by
  unfold shiftIn
  rw [BitVec.getLsbD_append, BitVec.getLsbD_extractLsb', BitVec.getLsbD_ofBool]
  by_cases h0 : i = 0
  · simp [h0]
  · simp [h0, show ¬ i < 1 by omega, show i - 1 < 7 by omega]

theorem shiftIn_toNat (acc : BitVec 8) (b : Bool) : (shiftIn acc b).toNat = acc.toNat % 128 * 2 + b.toNat := by
  unfold shiftIn
  rw [BitVec.toNat_append, BitVec.extractLsb'_toNat, BitVec.toNat_ofBool,
    ← Nat.shiftLeft_add_eq_or_of_lt (by have := b.toNat_lt; simpa using this), Nat.shiftLeft_eq]
  simp

theorem heldBits_shiftIn {k : Nat} (hk : k < 8) (b : Bool) (acc : BitVec 8) :
    heldBits (shiftIn acc b) (k + 1) = heldBits acc k ++ [b] := by
  refine List.ext_getElem? fun j => ?_
  rcases Nat.lt_trichotomy j k with h | h | h
  · rw [heldBits_getElem? _ (by omega), List.getElem?_append_left (by simpa using h), heldBits_getElem? _ h,
      shiftIn_getLsbD _ _ (by omega), if_neg (by omega), show k + 1 - 1 - j - 1 = k - 1 - j by omega]
  · subst h
    rw [heldBits_getElem? _ (by omega), List.getElem?_append_right (by simp), shiftIn_getLsbD _ _ (by omega)]
    simp
  · rw [List.getElem?_eq_none (by simp; omega), List.getElem?_eq_none (by simp; omega)]

theorem shiftIn_lt {k : Nat} (b : Bool) (acc : BitVec 8) (h : acc.toNat < 2 ^ k) :
    (shiftIn acc b).toNat < 2 ^ (k + 1) := by
  rw [shiftIn_toNat, Nat.pow_succ]
  have := b.toNat_lt
  have := Nat.mod_le acc.toNat 128
  omega

/-- A byte is the byte of its eight bits. -/
theorem byteOfBits_heldBits : ∀ b : Byte, byteOfBits (heldBits b 8) = b := by
  decide +kernel

theorem byteOfBits_shiftIn (b : Bool) (acc : BitVec 8) : byteOfBits (heldBits acc 7 ++ [b]) = shiftIn acc b := by
  rw [← heldBits_shiftIn (by decide), byteOfBits_heldBits]

theorem bitsValue_pad (k : Nat) (c : Bits) : bitsValue (c ++ List.replicate k false) = bitsValue c * 2 ^ k := by
  induction k with
  | zero => simp
  | succ k ih =>
    rw [List.replicate_succ', ← List.append_assoc]
    unfold bitsValue at ih ⊢
    rw [List.foldl_append, ih]
    simp [Nat.pow_succ]
    ring

/-- The missing bits of a byte are 0 (43_bitwriter.md R164). -/
theorem byteOfBits_pad {c : Bits} {k : Nat} (h : c.length + k = 8) :
    byteOfBits (c ++ List.replicate k false) = byteOfBits c := by
  unfold byteOfBits
  rw [bitsValue_pad, List.length_append, List.length_replicate, h, Nat.sub_self, Nat.pow_zero, Nat.mul_one,
    show 8 - c.length = k by omega]

theorem toTop_eq {k : Nat} (hk : k ≤ 8) (acc : BitVec 8) : toTop acc k = byteOfBits (heldBits acc k) := by
  rw [← byteOfBits_pad (c := heldBits acc k) (k := 8 - k) (by simp; omega), ← byteOfBits_heldBits (toTop acc k)]
  congr 1
  refine List.ext_getElem? fun j => ?_
  by_cases h : j < 8
  · rw [heldBits_getElem? _ h, toTop, BitVec.getLsbD_shiftLeft]
    by_cases hjk : j < k
    · rw [List.getElem?_append_left (by simpa using hjk), heldBits_getElem? _ hjk,
        show 8 - 1 - j - (8 - k) = k - 1 - j by omega]
      simp [show ¬ 8 - 1 - j < 8 - k by omega, show 8 - 1 - j < 8 by omega]
    · rw [List.getElem?_append_right (by simpa using hjk), List.getElem?_replicate, if_pos (by simp; omega)]
      simp [show 8 - 1 - j < 8 - k by omega]
  · rw [List.getElem?_eq_none (by simp; omega), List.getElem?_eq_none (by simp; omega)]

end Packing

section Writer

/-- WriteBit with fewer than seven bits held packs the bit (43_bitwriter.md R160). -/
theorem writeBit_hold (b : Bool) (e : Enc) (h : e.nbits.toNat < 7) :
    writeBit b e = .ok { e with acc := shiftIn e.acc b, nbits := e.nbits + 1 } () := by
  simp [writeBit, show e.nbits.toNat + 1 ≠ 8 by omega]

/-- WriteBit with seven bits held writes the byte (R160). -/
theorem writeBit_full (b : Bool) (e : Enc) (h : e.nbits.toNat = 7)
    (hio : e.port.io.answerAt .enc .write e.port.dst.length 0 = false) :
    writeBit b e = .ok { e with
      acc := 0, nbits := 0,
      port := { e.port with dst := e.port.dst ++ [shiftIn e.acc b], io := e.port.io.tick } } () := by
  simp [writeBit, h, Enc.write, writeBytes, memWrite_ok _ _ _ hio]

/-- WriteBit whose byte's write fails has cleared the registers and lost the byte (R160, D30). -/
theorem writeBit_lost (b : Bool) (e : Enc) (h : e.nbits.toNat = 7)
    (hio : e.port.io.answerAt .enc .write e.port.dst.length 0 = true) :
    writeBit b e = .raised { e with acc := 0, nbits := 0, port := { e.port with io := e.port.io.tick } } .io := by
  simp [writeBit, h, Enc.write, writeBytes, memWrite_fault _ _ _ hio]

/-- Everything WriteBit can do. -/
theorem writeBit_cases (b : Bool) (e : Enc) :
    (e.nbits.toNat < 7 ∧ writeBit b e = .ok { e with acc := shiftIn e.acc b, nbits := e.nbits + 1 } ()) ∨
    (e.nbits.toNat = 7 ∧ e.port.io.answerAt .enc .write e.port.dst.length 0 = false ∧
      writeBit b e = .ok { e with
        acc := 0, nbits := 0,
        port := { e.port with dst := e.port.dst ++ [shiftIn e.acc b], io := e.port.io.tick } } ()) ∨
    (e.nbits.toNat = 7 ∧ e.port.io.answerAt .enc .write e.port.dst.length 0 = true ∧
      writeBit b e = .raised { e with acc := 0, nbits := 0, port := { e.port with io := e.port.io.tick } } .io) := by
  have hlt : e.nbits.toNat < 8 := e.nbits.isLt
  rcases Nat.lt_or_ge e.nbits.toNat 7 with h | h
  · exact .inl ⟨h, writeBit_hold b e h⟩
  · have h7 : e.nbits.toNat = 7 := by omega
    cases hio : e.port.io.answerAt .enc .write e.port.dst.length 0 with
    | false => exact .inr (.inl ⟨h7, rfl, writeBit_full b e h7 hio⟩)
    | true => exact .inr (.inr ⟨h7, rfl, writeBit_lost b e h7 hio⟩)

/-- The next register values after packing a bit string: which bits are held, and that the other bits of ACC stay 0. -/
structure Repacked (acc acc' : BitVec 8) (k : Nat) (p : Bits) : Prop where
  held : heldBits acc' ((k + p.length) % 8) = leftBits (heldBits acc k ++ p)
  clean : acc.toNat < 2 ^ k → acc'.toNat < 2 ^ ((k + p.length) % 8)

/-- Packing a bit string with no failing write: the bytes it completes are appended in order, and the rest is held (R160,
R164, 45_encoder.md R204). -/
theorem emitBits_ok (p : Bits) : ∀ e : Enc, Calm .enc ((e.nbits.toNat + p.length) / 8) e.port.io →
    ∃ acc', Repacked e.acc acc' e.nbits.toNat p ∧
      emitBits p e = .ok { e with
        acc := acc'
        nbits := BitVec.ofNat 3 ((e.nbits.toNat + p.length) % 8)
        port := { e.port with
          dst := e.port.dst ++ wholeBytes (heldBits e.acc e.nbits.toNat ++ p)
          io := ioAfter ((e.nbits.toNat + p.length) / 8) e.port.io } } () := by
  induction p with
  | nil =>
    intro e _
    have hlt : e.nbits.toNat < 8 := e.nbits.isLt
    refine ⟨e.acc, ⟨?_, ?_⟩, ?_⟩
    · rw [List.length_nil, Nat.add_zero, Nat.mod_eq_of_lt hlt, List.append_nil, leftBits_short (by simpa using hlt)]
    · intro h
      rw [List.length_nil, Nat.add_zero, Nat.mod_eq_of_lt hlt]
      exact h
    · rw [List.append_nil, wholeBytes_short (by simpa using hlt), List.append_nil, List.length_nil, Nat.add_zero,
        Nat.mod_eq_of_lt hlt, Nat.div_eq_of_lt hlt, ioAfter_zero, BitVec.ofNat_toNat]
      simp [emitBits]
  | cons b bs ih =>
    intro e hcalm
    have hlt : e.nbits.toNat < 8 := e.nbits.isLt
    simp only [emitBits]
    by_cases h7 : e.nbits.toNat = 7
    · have hdiv : (e.nbits.toNat + (b :: bs).length) / 8 = bs.length / 8 + 1 := by
        rw [List.length_cons, h7]; omega
      have hmod : (e.nbits.toNat + (b :: bs).length) % 8 = bs.length % 8 := by
        rw [List.length_cons, h7]; omega
      rw [hdiv] at hcalm ⊢
      rw [hmod]
      rw [writeBit_full b e h7 (hcalm.head _ _), Ended.bind_ok]
      obtain ⟨acc', hre, hok⟩ := ih { e with
        acc := 0, nbits := 0,
        port := { e.port with dst := e.port.dst ++ [shiftIn e.acc b], io := e.port.io.tick } }
        (by simpa using hcalm.tick)
      have hlong : 8 ≤ (heldBits e.acc e.nbits.toNat ++ b :: bs).length := by
        rw [List.length_append, heldBits_length, List.length_cons, h7]; omega
      have htake : (heldBits e.acc e.nbits.toNat ++ b :: bs).take 8 = heldBits e.acc 7 ++ [b] := by
        rw [h7, List.take_append, heldBits_length, List.take_of_length_le (by simp)]
        simp
      have hdrop : (heldBits e.acc e.nbits.toNat ++ b :: bs).drop 8 = bs := by
        rw [h7, List.drop_append, heldBits_length, List.drop_of_length_le (by simp)]
        simp
      refine ⟨acc', ⟨?_, ?_⟩, ?_⟩
      · rw [hmod, leftBits_long hlong, hdrop]
        simpa using hre.held
      · intro _
        rw [hmod]
        simpa using hre.clean (by simp)
      · rw [hok, wholeBytes_long hlong, hdrop, htake, byteOfBits_shiftIn]
        simp
    · have hk : e.nbits.toNat < 7 := by omega
      have hnb : (e.nbits + 1).toNat = e.nbits.toNat + 1 := by
        have h1 : (1 : BitVec 3).toNat = 1 := rfl
        rw [BitVec.toNat_add, h1]; omega
      rw [writeBit_hold b e hk, Ended.bind_ok]
      have hadd : e.nbits.toNat + 1 + bs.length = e.nbits.toNat + (b :: bs).length := by
        rw [List.length_cons]; omega
      obtain ⟨acc', hre, hok⟩ := ih { e with acc := shiftIn e.acc b, nbits := e.nbits + 1 }
        (by simp only [hnb, hadd]; exact hcalm)
      simp only [hnb, hadd] at hre hok
      have hheld := heldBits_shiftIn (k := e.nbits.toNat) (by omega) b e.acc
      refine ⟨acc', ⟨?_, ?_⟩, ?_⟩
      · have := hre.held
        rw [hadd, hheld, List.append_assoc] at this
        exact this
      · intro h
        have := hre.clean (shiftIn_lt b e.acc h)
        rw [hadd] at this
        exact this
      · rw [hok, hheld, List.append_assoc]
        rfl

/-- Flush with no failing write appends the held bits at the top of a byte and holds nothing (43_bitwriter.md R161). -/
theorem flush_ok (e : Enc) (hio : e.nbits ≠ 0 → e.port.io.answerAt .enc .write e.port.dst.length 0 = false) :
    flush e = if e.nbits = 0 then .ok e () else .ok { e with
      acc := 0, nbits := 0,
      port := { e.port with
        dst := e.port.dst ++ [byteOfBits (heldBits e.acc e.nbits.toNat)], io := e.port.io.tick } } () := by
  unfold flush
  split
  · rfl
  · rename_i h
    have ht := toTop_eq (Nat.le_of_lt e.nbits.isLt) e.acc
    simp [Enc.write, writeBytes, memWrite_ok _ _ _ (hio h), ht]

/-- What packing a bit string has done once it has run through (R164). -/
theorem emitBits_done (p : Bits) : ∀ e e' : Enc, emitBits p e = .ok e' () →
    e'.port.dst = e.port.dst ++ wholeBytes (heldBits e.acc e.nbits.toNat ++ p) ∧
    heldBits e'.acc e'.nbits.toNat = leftBits (heldBits e.acc e.nbits.toNat ++ p) := by
  induction p with
  | nil =>
    intro e e' h
    cases h
    have hlt : (heldBits e.acc e.nbits.toNat ++ []).length < 8 := by simpa using e.nbits.isLt
    rw [wholeBytes_short hlt, leftBits_short hlt]
    simp
  | cons b bs ih =>
    intro e e' h
    rw [emitBits] at h
    rcases writeBit_cases b e with ⟨hk, hw⟩ | ⟨h7, _, hw⟩ | ⟨_, _, hw⟩ <;> rw [hw] at h
    · have hnb : (e.nbits + 1).toNat = e.nbits.toNat + 1 := by
        have h1 : (1 : BitVec 3).toNat = 1 := rfl
        rw [BitVec.toNat_add, h1]; omega
      have := ih _ _ h
      simpa only [hnb, heldBits_shiftIn (show e.nbits.toNat < 8 by omega) b e.acc, List.append_assoc,
        List.singleton_append] using this
    · have := ih _ _ h
      have hlong : 8 ≤ (heldBits e.acc e.nbits.toNat ++ b :: bs).length := by
        rw [List.length_append, heldBits_length, List.length_cons, h7]; omega
      have htake : (heldBits e.acc e.nbits.toNat ++ b :: bs).take 8 = heldBits e.acc 7 ++ [b] := by
        rw [h7, List.take_append, heldBits_length, List.take_of_length_le (by simp)]
        simp
      have hdrop : (heldBits e.acc e.nbits.toNat ++ b :: bs).drop 8 = bs := by
        rw [h7, List.drop_append, heldBits_length, List.drop_of_length_le (by simp)]
        simp
      rw [wholeBytes_long hlong, leftBits_long hlong, hdrop, htake, byteOfBits_shiftIn]
      simpa [List.append_assoc] using this
    · cases h

/-- What Flush has done once it has run through (R161). -/
theorem flush_done {e e' : Enc} (h : flush e = .ok e' ()) :
    e'.nbits = 0 ∧ e'.port.dst = e.port.dst ++
      if heldBits e.acc e.nbits.toNat = [] then [] else [byteOfBits (heldBits e.acc e.nbits.toNat)] := by
  have hz : heldBits e.acc e.nbits.toNat = [] ↔ e.nbits = 0 := by
    rw [← List.length_eq_zero_iff, heldBits_length, ← BitVec.toNat_inj]; rfl
  cases hio : e.port.io.answerAt .enc .write e.port.dst.length 0 with
  | false =>
    rw [flush_ok e fun _ => hio] at h
    split at h
    · rename_i h0; cases h; exact ⟨h0, by rw [if_pos (hz.2 h0)]; simp⟩
    · rename_i h0; cases h; exact ⟨rfl, by rw [if_neg (fun h => h0 (hz.1 h))]⟩
  | true =>
    unfold flush at h
    split at h
    · rename_i h0; cases h; exact ⟨h0, by rw [if_pos (hz.2 h0)]; simp⟩
    · simp [Enc.write, writeBytes, memWrite_fault _ _ _ hio] at h

end Writer

section Reader

@[simp] theorem byteBits_length (b : Byte) : (byteBits b).length = 8 := by simp [byteBits]

theorem byteBits_getElem? (b : Byte) {k : Nat} (h : k < 8) : (byteBits b)[k]? = some (msbBit b k) := by
  simp [byteBits, h, msbBit]

/-- ReadBit with bits left in its buffer returns the next of them (44_bitreader.md R180). -/
theorem readBit_buffered (d : Dec) (h : d.cnt.val < 8) :
    readBit d = .ok { d with cnt := ⟨d.cnt.val + 1, by omega⟩ } (some (msbBit d.buf d.cnt.val)) := dif_pos h

/-- ReadBit with its buffer used up refills it (R180). -/
theorem readBit_refill (d : Dec) (h : d.cnt.val = 8) {b : Byte} (hb : d.port.src[d.port.rp]? = some b)
    (hio : d.port.io.answerAt .dec .read d.port.rp 0 = false) :
    readBit d = .ok { d with
      buf := b, cnt := 1,
      port := { d.port with rp := d.port.rp + 1, io := d.port.io.tick } } (some (msbBit b 0)) := by
  simp [readBit, h, Dec.nextByte, takeByte_byte _ _ hb hio]

/-- ReadBit at the end of the source sets EOI and returns it (R180). -/
theorem readBit_eoi (d : Dec) (h : d.cnt.val = 8) (hb : d.port.src.length ≤ d.port.rp) :
    readBit d = .ok { d with eoi := true } none := by
  simp [readBit, h, Dec.nextByte, takeByte_eoi _ _ hb]

/-- ReadBit whose refill fails moves nothing (R180). -/
theorem readBit_fault (d : Dec) (h : d.cnt.val = 8) {b : Byte} (hb : d.port.src[d.port.rp]? = some b)
    (hio : d.port.io.answerAt .dec .read d.port.rp 0 = true) :
    readBit d = .raised { d with port := { d.port with io := d.port.io.tick } } .io := by
  simp [readBit, h, Dec.nextByte, takeByte_fault _ _ hb hio]

/-- Everything ReadBit can do. -/
theorem readBit_cases (d : Dec) :
    (∃ h : d.cnt.val < 8,
      readBit d = .ok { d with cnt := ⟨d.cnt.val + 1, by omega⟩ } (some (msbBit d.buf d.cnt.val))) ∨
    (d.cnt.val = 8 ∧ d.port.src.length ≤ d.port.rp ∧ readBit d = .ok { d with eoi := true } none) ∨
    (d.cnt.val = 8 ∧ ∃ b, d.port.src[d.port.rp]? = some b ∧ d.port.io.answerAt .dec .read d.port.rp 0 = false ∧
      readBit d = .ok { d with
        buf := b, cnt := 1,
        port := { d.port with rp := d.port.rp + 1, io := d.port.io.tick } } (some (msbBit b 0))) ∨
    (d.cnt.val = 8 ∧ ∃ b, d.port.src[d.port.rp]? = some b ∧ d.port.io.answerAt .dec .read d.port.rp 0 = true ∧
      readBit d = .raised { d with port := { d.port with io := d.port.io.tick } } .io) := by
  have hlt := d.cnt.isLt
  rcases Nat.lt_or_ge d.cnt.val 8 with h | h
  · exact .inl ⟨h, readBit_buffered d h⟩
  · have h8 : d.cnt.val = 8 := by omega
    rcases takeByte_cases .dec d.port with ⟨hb, _⟩ | ⟨b, hb, hio, _⟩ | ⟨b, hb, hio, _⟩
    · exact .inr (.inl ⟨h8, hb, readBit_eoi d h8 hb⟩)
    · exact .inr (.inr (.inl ⟨h8, b, hb, hio, readBit_refill d h8 hb hio⟩))
    · exact .inr (.inr (.inr ⟨h8, b, hb, hio, readBit_fault d h8 hb hio⟩))

/-- ReadBit returns a bit exactly as `ReadsBit` says it (44_bitreader.md R180). -/
theorem readBit_eq_some {d d' : Dec} {b : Bool} : readBit d = .ok d' (some b) ↔ ReadsBit d d' b := by
  constructor
  · intro h
    rcases readBit_cases d with ⟨hc, hr⟩ | ⟨_, _, hr⟩ | ⟨hc, v, hb, hio, hr⟩ | ⟨_, _, _, _, hr⟩ <;> rw [hr] at h <;> cases h
    · exact .inl ⟨hc, rfl, rfl⟩
    · exact .inr ⟨v, Fin.ext hc, hb, hio, rfl, rfl⟩
  · rintro (⟨hc, rfl, rfl⟩ | ⟨v, hc, hb, hio, rfl, rfl⟩)
    · exact readBit_buffered d hc
    · exact readBit_refill d (by rw [hc]; rfl) hb hio

/-- While its buffer has bits, the next unread bit is the buffer's bit number CNT. -/
theorem unread_buffered (d : Dec) (h : d.cnt.val < 8) :
    unread d = msbBit d.buf d.cnt.val :: unread { d with cnt := ⟨d.cnt.val + 1, by omega⟩ } := by
  unfold unread
  rw [List.drop_eq_getElem_cons (by simpa using h), List.cons_append]
  have := byteBits_getElem? d.buf h
  rw [List.getElem?_eq_getElem (by simpa using h), Option.some.injEq] at this
  rw [this]

/-- With its buffer used up, the next unread bit is bit 7 of the next source byte. -/
theorem unread_refill (d : Dec) (h : d.cnt.val = 8) {b : Byte} (hb : d.port.src[d.port.rp]? = some b) (io : IoInput) :
    unread d = msbBit b 0 :: unread { d with
      buf := b, cnt := 1,
      port := { d.port with rp := d.port.rp + 1, io := io } } := by
  obtain ⟨hlt, hget⟩ := List.getElem?_eq_some_iff.1 hb
  unfold unread
  rw [h, List.drop_of_length_le (by simp), List.nil_append, List.drop_eq_getElem_cons hlt, List.flatMap_cons, hget]
  rfl

/-- With its buffer used up at the end of the source, nothing is unread. -/
theorem unread_end (d : Dec) (h : d.cnt.val = 8) (hb : d.port.src.length ≤ d.port.rp) : unread d = [] := by
  unfold unread
  rw [h, List.drop_of_length_le (by simp), List.drop_of_length_le hb]
  rfl

/-- Reading a bit with no failing access returns the next unread bit and moves past it, and touches nothing but the
reader's registers, `RP` and the answers used. -/
theorem readBit_ok (d : Dec) {b : Bool} {rest : Bits} (h : unread d = b :: rest) {n : Nat}
    (hcalm : Calm .dec (n + 1) d.port.io) :
    ∃ buf cnt rp io, readBit d = .ok { d with buf := buf, cnt := cnt, port := { d.port with rp := rp, io := io } } (some b) ∧
      unread { d with buf := buf, cnt := cnt, port := { d.port with rp := rp, io := io } } = rest ∧
      8 * rp + cnt.val = bitPos d + 1 ∧ Calm .dec n io := by
  rcases readBit_cases d with ⟨hc, hr⟩ | ⟨hc, hb, hr⟩ | ⟨hc, v, hb, _, hr⟩ | ⟨hc, v, hb, hio, hr⟩
  · have hu := unread_buffered d hc
    rw [h, List.cons.injEq] at hu
    refine ⟨d.buf, ⟨d.cnt.val + 1, by omega⟩, d.port.rp, d.port.io, ?_, hu.2.symm, ?_, hcalm.mono (Nat.le_succ n)⟩
    · rw [hr, hu.1]
    · simp only [bitPos]; omega
  · rw [unread_end d hc hb] at h
    exact absurd h (by simp)
  · have hu := unread_refill d hc hb d.port.io.tick
    rw [h, List.cons.injEq] at hu
    refine ⟨v, 1, d.port.rp + 1, d.port.io.tick, ?_, hu.2.symm, ?_, hcalm.tick⟩
    · rw [hr, hu.1]
    · simp only [bitPos, hc]
      rfl
  · rw [hcalm.head] at hio
    exact absurd hio (by simp)

/-- The bits of a byte made of up to eight bits are those bits and the pad bits (43_bitwriter.md R164). -/
theorem byteBits_byteOfBits : ∀ c : Bits, c.length ≤ 8 →
    byteBits (byteOfBits c) = c ++ List.replicate (8 - c.length) false := by
  intro c hc
  rw [← byteOfBits_pad (c := c) (k := 8 - c.length) (by omega)]
  have : ∀ a b c d e f g h : Bool, byteBits (byteOfBits [a,b,c,d,e,f,g,h]) = [a,b,c,d,e,f,g,h] := by decide +kernel
  have hl : (c ++ List.replicate (8 - c.length) false).length = 8 := by simp; omega
  generalize c ++ List.replicate (8 - c.length) false = x at hl
  match x, hl with
  | [a,b,c,d,e,f,g,h], _ => exact this ..

/-- The bits of a packing are the bit string and the pad bits (R164, 44_bitreader.md R181). -/
theorem packBytes_bits : ∀ (n : Nat) (c : Bits), c.length = n →
    (packBytes c).flatMap byteBits = c ++ List.replicate (8 * (packBytes c).length - c.length) false := by
  intro n
  induction n using Nat.strong_induction_on with
  | _ n ih =>
    intro c hn
    by_cases h : c.length < 8
    · rw [packBytes_eq, wholeBytes_short h, leftBits_short h]
      by_cases h' : c = []
      · simp [h']
      · rw [if_neg h']; simp [byteBits_byteOfBits c (by omega)]
    · have h8 : 8 ≤ c.length := by omega
      have e : packBytes c = byteOfBits (c.take 8) :: packBytes (c.drop 8) := by
        rw [packBytes_eq, wholeBytes_long h8, leftBits_long h8, packBytes_eq]; rfl
      rw [e, List.flatMap_cons, ih (n - 8) (by omega) _ (by simp; omega), byteBits_byteOfBits _ (by simp), ← List.append_assoc]
      simp only [List.length_take, List.length_cons, List.length_drop]
      rw [show 8 - min 8 c.length = 0 by omega, List.replicate_zero, List.append_nil, List.take_append_drop]
      congr 2
      omega

/-- The reader mirrors the packer (44_bitreader.md R181): a byte is read as its eight bits. -/
theorem byteOfBits_byteBits (b : Byte) : byteOfBits (byteBits b) = b := byteOfBits_heldBits b

end Reader

end Sys2Proof.Safety
end

