-- ==== Sys2Proof/Laws/Tree.lean ====
section
/-! SUPPORT. The tree builder (41_tree.md): what `extract-min` answers, and the forest that every merge keeps. -/

namespace Sys2Proof.Machine

open Sys2Proof.Safety

section Arena

variable (a : Arena) (v : Node)

theorem Arena.slotAt_push {a : Arena} (h : a.nnodes.toNat < 513) (v : Node) (i : Nat) :
    (a.push v).slotAt i = if i = a.nnodes.toNat then v else a.slotAt i := by
  unfold Arena.slotAt Arena.push
  simp only [List.getD_eq_getElem?_getD, List.getElem?_set, a.node.size, h, if_true]
  by_cases hi : a.nnodes.toNat = i
  · simp [hi]
  · simp [hi, Ne.symm hi]

theorem Arena.nnodes_push {a : Arena} (h : a.nnodes.toNat < 513) (v : Node) :
    (a.push v).nnodes.toNat = a.nnodes.toNat + 1 := by
  have h1 : (1 : BitVec 10).toNat = 1 := rfl
  simp only [Arena.push, BitVec.toNat_add, h1]
  omega

@[simp] theorem Arena.root_push : (a.push v).root = a.root := rfl

@[simp] theorem Arena.slotAt_root (r : NodeId) (i : Nat) : ({ a with root := r } : Arena).slotAt i = a.slotAt i := rfl

@[simp] theorem Arena.slotAt_clear (i : Nat) : Arena.clear.slotAt i = Node.unused := by
  simp only [Arena.slotAt, Arena.clear, Table.fill, List.getD_eq_getElem?_getD, List.getElem?_replicate]
  split <;> rfl

theorem leafCount_push {a : Arena} (h : a.nnodes.toNat < 513) (hu : a.slotAt a.nnodes.toNat = Node.unused) (v : Node) :
    leafCount (a.push v) = leafCount a + if v.kind = .leaf ∨ v.kind = .nullLeaf then 1 else 0 := by
  have hlt : a.nnodes.toNat < a.node.cells.length := by rw [a.node.size]; exact h
  have hcell : a.node.cells[a.nnodes.toNat] = Node.unused := by
    have := hu
    unfold Arena.slotAt at this
    rwa [List.getD_eq_getElem _ _ hlt] at this
  unfold leafCount Arena.push
  simp only
  rw [List.countP_set (h := hlt)]
  simp [hcell, Node.unused]

end Arena

section Queue

variable (a : Arena)

/-- The key of a slot as a pair of numbers. -/
theorem keyLess_iff (x y : NodeId) : keyLess a x y = true ↔
    (a.slot x).weight.toNat < (a.slot y).weight.toNat ∨
      ((a.slot x).weight.toNat = (a.slot y).weight.toNat ∧ x.toNat < y.toNat) := by
  simp [keyLess, BitVec.lt_def, BitVec.toNat_inj]

theorem keyLess_trans {x y z : NodeId} (h : keyLess a x y = true) (h' : keyLess a y z = true) :
    keyLess a x z = true := by
  rw [keyLess_iff] at *
  omega

theorem keyLess_total {x y : NodeId} (h : x ≠ y) : keyLess a x y = true ∨ keyLess a y x = true := by
  have : x.toNat ≠ y.toNat := fun hh => h (BitVec.eq_of_toNat_eq hh)
  simp only [keyLess_iff]
  omega

theorem keyLess_irrefl (x : NodeId) : keyLess a x x = false := by
  rw [Bool.eq_false_iff, ne_eq, keyLess_iff]
  omega

theorem leastOf_mem (m : NodeId) (xs : List NodeId) : leastOf a m xs ∈ m :: xs := by
  induction xs generalizing m with
  | nil => simp [leastOf]
  | cons x xs ih =>
    have := ih (if keyLess a x m then x else m)
    simp only [leastOf, List.mem_cons] at this ⊢
    split at this <;> rename_i hc <;> simp only [hc, if_true] <;> grind

theorem leastOf_least (m : NodeId) (xs : List NodeId) :
    ∀ y ∈ m :: xs, y ≠ leastOf a m xs → keyLess a (leastOf a m xs) y = true := by
  induction xs generalizing m with
  | nil => simp [leastOf]
  | cons x xs ih =>
    intro y hy hne
    simp only [leastOf] at hne ⊢
    have key := ih (if keyLess a x m then x else m)
    set z := leastOf a (if keyLess a x m then x else m) xs with hz
    have hle : ∀ w ∈ (if keyLess a x m then x else m) :: xs, w = z ∨ keyLess a z w = true :=
      fun w hw => by by_cases h : w = z
                     · exact .inl h
                     · exact .inr (key w hw h)
    have h0 := hle _ (List.mem_cons_self ..)
    rcases List.mem_cons.1 hy with rfl | hy
    · split at h0
      · rename_i hc
        rcases h0 with h0 | h0
        · rw [← h0]; exact hc
        · exact keyLess_trans a h0 hc
      · exact h0.resolve_left hne
    · rcases List.mem_cons.1 hy with rfl | hy
      · split at h0
        · exact h0.resolve_left hne
        · rename_i hc
          by_cases hym : y = m
          · subst hym; exact h0.resolve_left hne
          · have hmy := (keyLess_total a hym).resolve_left hc
            rcases h0 with h0 | h0
            · rw [← h0]; exact hmy
            · exact keyLess_trans a h0 hmy
      · exact (hle y (List.mem_cons_of_mem _ hy)).resolve_left hne

/-- What `extract-min` answers: an id of the queue whose key is less than every other's, and the queue without it (R122). -/
theorem extractMin_some {q q' : List NodeId} {m : NodeId} (h : extractMin a q = some (m, q')) :
    m ∈ q ∧ q' = q.erase m ∧ ∀ y ∈ q, y ≠ m → keyLess a m y = true := by
  cases q with
  | nil => simp [extractMin] at h
  | cons x xs =>
    simp only [extractMin, Option.some.injEq, Prod.mk.injEq] at h
    obtain ⟨rfl, rfl⟩ := h
    exact ⟨leastOf_mem a x xs, rfl, leastOf_least a x xs⟩

theorem extractMin_none {q : List NodeId} : extractMin a q = none ↔ q = [] := by
  cases q <;> simp [extractMin]

theorem extractMin_of_ne {q : List NodeId} (h : q ≠ []) : ∃ m, extractMin a q = some (m, q.erase m) := by
  cases q with
  | nil => exact absurd rfl h
  | cons x xs => exact ⟨_, rfl⟩

end Queue

section Leaves

/-- The sum of a table's counts. -/
def countTotal (f : Table Count 257) : Nat := (f.cells.map BitVec.toNat).sum

/-- The sum of the weights of a list of slots. -/
def queueWeight (a : Arena) (q : List NodeId) : Nat := (q.map fun x => (a.slot x).weight.toNat).sum

/-- What the leaf loop of R121 has built once it has seen the symbols of a list: one LEAF per symbol seen with a nonzero
count, in the order seen, all of them queued (R124). -/
structure LeafRow (f : Table Count 257) (seen : List Symbol) (b : Build) : Prop where
  size_le : b.arena.nnodes.toNat ≤ seen.length
  root_eq : b.arena.root = Config.noNode
  unused : ∀ i, b.arena.nnodes.toNat ≤ i → b.arena.slotAt i = Node.unused
  leaf : ∀ i, i < b.arena.nnodes.toNat → ∃ s ∈ seen, f.get s ≠ 0 ∧ b.arena.slotAt i = leafNode s (f.get s)
  leaf_of : ∀ s ∈ seen, f.get s ≠ 0 → ∃ i, i < b.arena.nnodes.toNat ∧ b.arena.slotAt i = leafNode s (f.get s)
  sorted : ∀ i j, i < j → j < b.arena.nnodes.toNat → (b.arena.slotAt i).sym.toNat < (b.arena.slotAt j).sym.toNat
  count : leafCount b.arena = b.arena.nnodes.toNat
  queue_nodup : b.queue.Nodup
  queue_length : b.queue.length = b.arena.nnodes.toNat
  queue_lt : ∀ x ∈ b.queue, x.toNat < b.arena.nnodes.toNat
  queue_all : ∀ i, i < b.arena.nnodes.toNat → ∃ x ∈ b.queue, x.toNat = i
  weight : queueWeight b.arena b.queue = (seen.map fun s => (f.get s).toNat).sum

theorem symbolField_toNat (s : Symbol) : (symbolField s).toNat = s.val := by
  have := s.isLt
  simp only [symbolField, BitVec.toNat_ofNat]
  omega

theorem leafCount_clear : leafCount Arena.clear = 0 := by
  show List.countP _ (List.replicate 513 Node.unused) = 0
  rw [List.countP_replicate]
  rfl

theorem LeafRow.nil (f : Table Count 257) : LeafRow f [] { arena := Arena.clear, queue := [] } where
  size_le := Nat.le_refl 0
  root_eq := rfl
  unused := fun i _ => Arena.slotAt_clear i
  leaf := fun i h => absurd h (Nat.not_lt_zero i)
  leaf_of := by simp
  sorted := fun i j _ h => absurd h (Nat.not_lt_zero j)
  count := leafCount_clear
  queue_nodup := List.nodup_nil
  queue_length := rfl
  queue_lt := by simp
  queue_all := fun i h => absurd h (Nat.not_lt_zero i)
  weight := rfl

/-- Nodes already in the arena keep their weights when one is added. -/
theorem queueWeight_push {a : Arena} (h : a.nnodes.toNat < 513) (v : Node) {q : List NodeId}
    (hq : ∀ x ∈ q, x.toNat < a.nnodes.toNat) : queueWeight (a.push v) q = queueWeight a q := by
  unfold queueWeight
  congr 1
  refine List.map_congr_left fun x hx => ?_
  have := hq x hx
  rw [Arena.slot, Arena.slotAt_push h, if_neg (by omega), Arena.slot]

theorem LeafRow.skip {f : Table Count 257} {seen : List Symbol} {b : Build} (h : LeafRow f seen b) {s : Symbol}
    (hs : f.get s = 0) : LeafRow f (seen ++ [s]) b where
  size_le := by have := h.size_le; simp only [List.length_append, List.length_cons, List.length_nil]; omega
  root_eq := h.root_eq
  unused := h.unused
  leaf := fun i hi => by
    obtain ⟨t, ht, h1, h2⟩ := h.leaf i hi
    exact ⟨t, List.mem_append_left _ ht, h1, h2⟩
  leaf_of := fun t ht h0 => by
    rcases List.mem_append.1 ht with ht | ht
    · exact h.leaf_of t ht h0
    · rw [List.mem_singleton.1 ht] at h0
      exact absurd hs h0
  sorted := h.sorted
  count := h.count
  queue_nodup := h.queue_nodup
  queue_length := h.queue_length
  queue_lt := h.queue_lt
  queue_all := h.queue_all
  weight := by simp [h.weight, hs]

theorem LeafRow.push {f : Table Count 257} {seen : List Symbol} {b : Build} (h : LeafRow f seen b) {s : Symbol}
    (hs : f.get s ≠ 0) (hlen : seen.length < 257) (hnew : ∀ t ∈ seen, t < s) :
    LeafRow f (seen ++ [s]) (b.add (leafNode s (f.get s))) := by
  have hn : b.arena.nnodes.toNat < 513 := by have := h.size_le; omega
  have hsz := Arena.nnodes_push hn (leafNode s (f.get s))
  have hslot := Arena.slotAt_push hn (leafNode s (f.get s))
  constructor
  · have := h.size_le
    simp only [Build.add, hsz, List.length_append, List.length_cons, List.length_nil]
    omega
  · exact h.root_eq
  · intro i hi
    simp only [Build.add, hsz] at hi ⊢
    rw [hslot, if_neg (by omega)]
    exact h.unused i (by omega)
  · intro i hi
    simp only [Build.add, hsz] at hi ⊢
    rw [hslot]
    split
    · exact ⟨s, by simp, hs, rfl⟩
    · obtain ⟨t, ht, h1, h2⟩ := h.leaf i (by omega)
      exact ⟨t, List.mem_append_left _ ht, h1, h2⟩
  · intro t ht h0
    simp only [Build.add, hsz]
    rcases List.mem_append.1 ht with ht | ht
    · obtain ⟨i, hi, hh⟩ := h.leaf_of t ht h0
      exact ⟨i, by omega, by rw [hslot, if_neg (by omega)]; exact hh⟩
    · rw [List.mem_singleton.1 ht]
      exact ⟨b.arena.nnodes.toNat, by omega, by rw [hslot, if_pos rfl]⟩
  · intro i j hij hj
    simp only [Build.add, hsz] at hj ⊢
    rw [hslot, hslot, if_neg (by omega)]
    split
    · obtain ⟨t, ht, _, h2⟩ := h.leaf i (by omega)
      rw [h2]
      simpa [leafNode, symbolField_toNat] using hnew t ht
    · exact h.sorted i j hij (by omega)
  · simp only [Build.add, hsz]
    rw [leafCount_push hn (h.unused _ (Nat.le_refl _)), h.count]
    simp [leafNode]
  · simp only [Build.add, List.nodup_cons]
    refine ⟨fun hm => ?_, h.queue_nodup⟩
    have := h.queue_lt _ hm
    omega
  · simp only [Build.add, hsz, List.length_cons, h.queue_length]
  · intro x hx
    simp only [Build.add, hsz] at hx ⊢
    rcases List.mem_cons.1 hx with rfl | hx
    · omega
    · have := h.queue_lt x hx
      omega
  · intro i hi
    simp only [Build.add, hsz] at hi ⊢
    by_cases hii : i < b.arena.nnodes.toNat
    · obtain ⟨x, hx, hxi⟩ := h.queue_all i hii
      exact ⟨x, List.mem_cons_of_mem _ hx, hxi⟩
    · exact ⟨b.arena.nnodes, List.mem_cons_self .., by omega⟩
  · have hw := queueWeight_push hn (leafNode s (f.get s)) h.queue_lt
    have h0 : ((b.arena.push (leafNode s (f.get s))).slot b.arena.nnodes).weight.toNat = (f.get s).toNat := by
      rw [Arena.slot, hslot, if_pos rfl]
      simp only [leafNode, BitVec.toNat_setWidth]
      have := (f.get s).isLt
      omega
    simp only [Build.add, queueWeight, List.map_cons, List.sum_cons, List.map_append, List.sum_append, List.map_nil,
      List.sum_nil, h0] at hw ⊢
    rw [hw]
    have := h.weight
    simp only [queueWeight] at this
    omega

theorem LeafRow.foldl {f : Table Count 257} (l : List Symbol) :
    ∀ (seen : List Symbol) (b : Build), LeafRow f seen b → (seen ++ l).length ≤ 257 →
      (seen ++ l).Pairwise (· < ·) →
      LeafRow f (seen ++ l) (l.foldl (fun b s => if f.get s = 0 then b else b.add (leafNode s (f.get s))) b) := by
  induction l with
  | nil => intro seen b h _ _; simpa using h
  | cons s l ih =>
    intro seen b h hlen hp
    have hsplit : seen ++ s :: l = (seen ++ [s]) ++ l := by simp
    have hlen' : seen.length < 257 := by simp only [List.length_append, List.length_cons] at hlen; omega
    rw [List.foldl_cons, hsplit]
    rw [hsplit] at hlen hp
    refine ih _ _ ?_ hlen hp
    split
    · rename_i h0; exact h.skip h0
    · rename_i h0
      refine h.push h0 hlen' fun t ht => ?_
      have := (List.pairwise_append.1 (List.pairwise_append.1 hp).1).2.2
      exact this t ht s (List.mem_singleton.2 rfl)

/-- The leaf loop over all 257 symbols (R124). -/
theorem addLeaves_row (f : Table Count 257) : LeafRow f (List.finRange 257) (addLeaves f) := by
  have := LeafRow.foldl (f := f) (List.finRange 257) [] { arena := Arena.clear, queue := [] } (LeafRow.nil f)
    (by simp) (by simpa using List.pairwise_lt_finRange 257)
  simpa [addLeaves] using this

theorem countTotal_eq (f : Table Count 257) :
    countTotal f = ((List.finRange 257).map fun s => (f.get s).toNat).sum := by
  have : f.cells = (List.finRange 257).map fun s => f.get s := by
    refine List.ext_getElem (by simp [f.size]) fun i h1 h2 => ?_
    simp [Table.get]
  unfold countTotal
  conv => lhs; rw [this]
  rw [List.map_map]
  rfl

theorem countTotal_lt (f : Table Count 257) : countTotal f < 2 ^ 41 := by
  have key : ∀ l : List Count, (l.map BitVec.toNat).sum ≤ l.length * (2 ^ 32 - 1) := by
    intro l
    induction l with
    | nil => simp
    | cons c l ih =>
      have := c.isLt
      simp only [List.map_cons, List.sum_cons, List.length_cons]
      omega
  have := key f.cells
  rw [f.size] at this
  unfold countTotal
  omega

end Leaves

section Forest

/-- What the merge loop of R121 keeps: a forest over `leaves` leaves whose roots are exactly the queued ids. -/
structure Forest (f : Table Count 257) (leaves : Nat) (b : Build) : Prop where
  leaves_le : leaves ≤ 257
  leaves_made : leaves ≤ b.arena.nnodes.toNat
  count : leafCount b.arena = leaves
  size : b.arena.nnodes.toNat + b.queue.length = 2 * leaves
  queue_pos : 1 ≤ b.queue.length
  unused : ∀ i, b.arena.nnodes.toNat ≤ i → b.arena.slotAt i = Node.unused
  used : ∀ i, i < b.arena.nnodes.toNat → (b.arena.slotAt i).kind ≠ .empty
  leaves_first : ∀ i, i < b.arena.nnodes.toNat → ((b.arena.slotAt i).kind = .internal ↔ leaves ≤ i)
  internal_node : ∀ i, i < b.arena.nnodes.toNat → (b.arena.slotAt i).kind = .internal →
    (b.arena.slotAt i).left.toNat < i ∧ (b.arena.slotAt i).right.toNat < i ∧
      (b.arena.slotAt i).left ≠ (b.arena.slotAt i).right ∧
      (b.arena.slotAt i).weight =
        (b.arena.slot (b.arena.slotAt i).left).weight + (b.arena.slot (b.arena.slotAt i).right).weight ∧
      (b.arena.slotAt i).sym = Config.noSym
  leaf_node : ∀ i, i < b.arena.nnodes.toNat → (b.arena.slotAt i).kind = .leaf →
    ∃ s, f.get s ≠ 0 ∧ b.arena.slotAt i = leafNode s (f.get s)
  null_node : ∀ i, i < b.arena.nnodes.toNat → (b.arena.slotAt i).kind = .nullLeaf → b.arena.slotAt i = nullLeafNode
  leaf_of : ∀ s, f.get s ≠ 0 → ∃ i, i < b.arena.nnodes.toNat ∧ b.arena.slotAt i = leafNode s (f.get s)
  sorted : ∀ i j, i < j → (b.arena.slotAt i).kind = .leaf → (b.arena.slotAt j).kind = .leaf →
    (b.arena.slotAt i).sym.toNat < (b.arena.slotAt j).sym.toNat
  null_iff : (∃ i, (b.arena.slotAt i).kind = .nullLeaf) ↔ ∀ s, f.get s ≠ 0 → s = sentinel
  null_second : ∀ i, (b.arena.slotAt i).kind = .nullLeaf → i = 1
  queue_nodup : b.queue.Nodup
  queue_roots : ∀ x, x ∈ b.queue ↔ x.toNat < b.arena.nnodes.toNat ∧ ∀ j, ¬ IsParent b.arena j x.toNat
  parent_unique : ∀ i j k, IsParent b.arena j i → IsParent b.arena k i → j = k
  merged : ∀ i, (b.arena.slotAt i).kind = .internal → MergedLeast b.arena i
  weight : queueWeight b.arena b.queue = countTotal f

section

variable {f : Table Count 257} {leaves : Nat} {b : Build}

theorem Forest.size_le (h : Forest f leaves b) : b.arena.nnodes.toNat ≤ 513 := by
  have := h.size; have := h.queue_pos; have := h.leaves_le; omega

theorem Forest.parent_lt (h : Forest f leaves b) {j i : Nat} (hp : IsParent b.arena j i) :
    i < j ∧ j < b.arena.nnodes.toNat := by
  have hj : j < b.arena.nnodes.toNat := by
    by_contra hc
    have := hp.1
    rw [h.unused j (by omega)] at this
    exact absurd this (by decide)
  have hn := h.internal_node j hj hp.1
  rcases hp.2 with hp | hp <;> omega

theorem Forest.queue_lt (h : Forest f leaves b) {x : NodeId} (hx : x ∈ b.queue) : x.toNat < b.arena.nnodes.toNat :=
  ((h.queue_roots x).1 hx).1

/-- A slot of the arena waits for the next merge exactly when its id is queued. -/
theorem Forest.waiting_iff (h : Forest f leaves b) (x : NodeId) :
    Waiting b.arena b.arena.nnodes.toNat x.toNat ↔ x ∈ b.queue := by
  rw [h.queue_roots]
  refine and_congr_right fun _ => ⟨fun hk j hj => hk j (h.parent_lt hj).2 hj, fun hk j _ => hk j⟩

end

theorem isParent_push {a : Arena} (h : a.nnodes.toNat < 513) (v : Node)
    (hu : a.slotAt a.nnodes.toNat = Node.unused) (j i : Nat) :
    IsParent (a.push v) j i ↔
      IsParent a j i ∨ (j = a.nnodes.toNat ∧ v.kind = .internal ∧ (v.left.toNat = i ∨ v.right.toNat = i)) := by
  unfold IsParent
  rw [Arena.slotAt_push h]
  split
  · rename_i hj
    subst hj
    rw [hu]
    simp [Node.unused]
  · rename_i hj
    simp [hj]

theorem keyBefore_iff (a : Arena) (x y : NodeId) : KeyBefore a x.toNat y.toNat ↔ keyLess a x y = true := by
  rw [keyLess_iff]
  rfl

/-- Nothing about slots below `n` changes when slot `n` is filled, so no finished merge does. -/
theorem mergedLeast_push {a : Arena} (h : a.nnodes.toNat < 513) (v : Node)
    (hu : a.slotAt a.nnodes.toNat = Node.unused) {i : Nat} (hi : i < a.nnodes.toNat) (hm : MergedLeast a i) :
    MergedLeast (a.push v) i := by
  have hslot : ∀ k, k < a.nnodes.toNat → (a.push v).slotAt k = a.slotAt k := fun k hk => by
    rw [Arena.slotAt_push h, if_neg (by omega)]
  have hwait : ∀ j, Waiting (a.push v) i j ↔ Waiting a i j := fun j => by
    unfold Waiting
    refine and_congr_right fun _ => forall_congr' fun k => ?_
    refine imp_congr_right fun hk => not_congr ?_
    rw [isParent_push h v hu]
    exact ⟨fun hh => hh.resolve_right fun hh => by omega, .inl⟩
  have hkey : ∀ j k, j < i → k < i → (KeyBefore (a.push v) j k ↔ KeyBefore a j k) := fun j k hj hk => by
    unfold KeyBefore
    rw [hslot j (by omega), hslot k (by omega)]
  constructor
  · rw [hslot i hi, hwait]; exact hm.left_waits
  · rw [hslot i hi, hwait]; exact hm.right_waits
  · intro j hj hne
    rw [hwait] at hj
    rw [hslot i hi] at hne ⊢
    rw [hkey _ _ hm.left_waits.1 hj.1]
    exact hm.left_least j hj hne
  · intro j hj hne hne'
    rw [hwait] at hj
    rw [hslot i hi] at hne hne' ⊢
    rw [hkey _ _ hm.right_waits.1 hj.1]
    exact hm.right_next j hj hne hne'

/-- One merge: the two least queued nodes become the children of a new root (R125). -/
theorem Forest.merge {f : Table Count 257} {leaves : Nat} {b : Build} (h : Forest f leaves b) {x y : NodeId}
    {q1 q2 : List NodeId} (hx : extractMin b.arena b.queue = some (x, q1)) (hy : extractMin b.arena q1 = some (y, q2)) :
    Forest f leaves (({ arena := b.arena, queue := q2 } : Build).add (internalNode b.arena x y)) := by
  obtain ⟨hxq, rfl, hxmin⟩ := extractMin_some _ hx
  obtain ⟨hyq, rfl, hymin⟩ := extractMin_some _ hy
  have hyb : y ∈ b.queue := List.mem_of_mem_erase hyq
  have hne : x ≠ y := fun hh => by
    subst hh
    exact (h.queue_nodup.not_mem_erase) hyq
  have hlen : 2 ≤ b.queue.length := by
    have h1 := List.length_erase_of_mem hxq
    have h2 := List.length_pos_of_mem hyq
    omega
  have hn : b.arena.nnodes.toNat < 513 := by have := h.size; have := h.leaves_le; omega
  set v := internalNode b.arena x y with hv
  have hu := h.unused _ (Nat.le_refl _)
  have hsz := Arena.nnodes_push hn v
  have hslot := Arena.slotAt_push hn v
  have hpar := isParent_push hn v hu
  have hxn := h.queue_lt hxq
  have hyn := h.queue_lt hyb
  have hold : ∀ i, i < b.arena.nnodes.toNat → (b.arena.push v).slotAt i = b.arena.slotAt i := fun i hi => by
    rw [hslot, if_neg (by omega)]
  have hself : (b.arena.push v).slotAt b.arena.nnodes.toNat = v := by rw [hslot, if_pos rfl]
  have hkind : v.kind = .internal := rfl
  have hleaves := h.leaves_made
  have hqlen : ((b.queue.erase x).erase y).length + 2 = b.queue.length := by
    rw [List.length_erase_of_mem hyq, List.length_erase_of_mem hxq]; omega
  have hnl : ∀ i, ((b.arena.push v).slotAt i).kind ≠ .internal → (b.arena.push v).slotAt i = b.arena.slotAt i := by
    intro i hi
    rw [hslot] at hi ⊢
    split at hi
    · exact absurd hkind hi
    · rename_i hne; rw [if_neg hne]
  constructor
  · exact h.leaves_le
  · simp only [Build.add, hsz]
    omega
  · simp only [Build.add]
    rw [leafCount_push hn hu, h.count]
    simp [hkind]
  · simp only [Build.add, hsz, List.length_cons]
    have := h.size
    omega
  · simp [Build.add]
  · intro i hi
    simp only [Build.add, hsz] at hi ⊢
    rw [hslot, if_neg (by omega)]
    exact h.unused i (by omega)
  · intro i hi
    simp only [Build.add, hsz] at hi ⊢
    rw [hslot]
    split
    · rw [hkind]; decide
    · exact h.used i (by omega)
  · intro i hi
    simp only [Build.add, hsz] at hi ⊢
    rw [hslot]
    split
    · rename_i hi; subst hi; exact ⟨fun _ => hleaves, fun _ => hkind⟩
    · exact h.leaves_first i (by omega)
  · intro i hi hk
    simp only [Build.add, hsz] at hi hk ⊢
    by_cases hin : i = b.arena.nnodes.toNat
    · subst hin
      rw [hself]
      refine ⟨hxn, hyn, hne, ?_, rfl⟩
      show v.weight = ((b.arena.push v).slotAt x.toNat).weight + ((b.arena.push v).slotAt y.toNat).weight
      rw [hold _ hxn, hold _ hyn]
      rfl
    · have hi' : i < b.arena.nnodes.toNat := by omega
      rw [hold i hi'] at hk ⊢
      have := h.internal_node i hi' hk
      rw [Arena.slot, Arena.slot, hold _ (by omega), hold _ (by omega)]
      exact this
  · intro i hi hk
    simp only [Build.add, hsz] at hi hk ⊢
    have hsi := hnl i (by rw [hk]; decide)
    rw [hsi] at hk ⊢
    by_cases hin : i = b.arena.nnodes.toNat
    · subst hin; rw [hu] at hk; exact absurd hk (by decide)
    · exact h.leaf_node i (by omega) hk
  · intro i hi hk
    simp only [Build.add, hsz] at hi hk ⊢
    have hsi := hnl i (by rw [hk]; decide)
    rw [hsi] at hk ⊢
    by_cases hin : i = b.arena.nnodes.toNat
    · subst hin; rw [hu] at hk; exact absurd hk (by decide)
    · exact h.null_node i (by omega) hk
  · intro s hs
    simp only [Build.add, hsz]
    obtain ⟨i, hi, hh⟩ := h.leaf_of s hs
    exact ⟨i, by omega, by rw [hold i hi]; exact hh⟩
  · intro i j hij hi hj
    simp only [Build.add] at hi hj ⊢
    have hsi := hnl i (by rw [hi]; decide)
    rw [hsi] at hi ⊢
    have hsj := hnl j (by rw [hj]; decide)
    rw [hsj] at hj ⊢
    exact h.sorted i j hij hi hj
  · rw [← h.null_iff]
    simp only [Build.add]
    refine exists_congr fun i => ⟨fun hi => ?_, fun hi => ?_⟩
    · have hsi := hnl i (by rw [hi]; decide)
      rwa [hsi] at hi
    · rw [hslot, if_neg fun hin => ?_]
      · exact hi
      · subst hin; rw [hu] at hi; exact absurd hi (by decide)
  · intro i hi
    simp only [Build.add] at hi
    have hsi := hnl i (by rw [hi]; decide)
    rw [hsi] at hi
    exact h.null_second i hi
  · simp only [Build.add, List.nodup_cons]
    refine ⟨fun hm => ?_, (h.queue_nodup.erase x).erase y⟩
    have := h.queue_lt (List.mem_of_mem_erase (List.mem_of_mem_erase hm))
    omega
  · intro z
    simp only [Build.add, hsz, List.mem_cons]
    have hnn : ∀ j, ¬ IsParent b.arena j b.arena.nnodes.toNat := fun j hj => by
      have := h.parent_lt hj
      omega
    constructor
    · rintro (rfl | hz)
      · refine ⟨by omega, fun j hj => ?_⟩
        rcases (hpar j _).1 hj with hj | ⟨_, _, hj⟩
        · exact hnn j hj
        · have : v.left = x ∧ v.right = y := ⟨rfl, rfl⟩
          rw [this.1, this.2] at hj
          omega
      · have hz1 := List.mem_of_mem_erase hz
        have hz2 := List.mem_of_mem_erase hz1
        have hzx : z ≠ x := fun hh => by subst hh; exact h.queue_nodup.not_mem_erase hz1
        have hzy : z ≠ y := fun hh => by subst hh; exact (h.queue_nodup.erase x).not_mem_erase hz
        have hzr := (h.queue_roots z).1 hz2
        refine ⟨by omega, fun j hj => ?_⟩
        rcases (hpar j _).1 hj with hj | ⟨_, _, hj⟩
        · exact hzr.2 j hj
        · rcases hj with hj | hj
          · exact hzx (BitVec.eq_of_toNat_eq hj).symm
          · exact hzy (BitVec.eq_of_toNat_eq hj).symm
    · rintro ⟨hz, hr⟩
      by_cases hzn : z.toNat = b.arena.nnodes.toNat
      · exact .inl (BitVec.eq_of_toNat_eq hzn)
      · refine .inr ?_
        have hzq : z ∈ b.queue := (h.queue_roots z).2 ⟨by omega, fun j hj => hr j ((hpar j _).2 (.inl hj))⟩
        have hnot : ¬ (x.toNat = z.toNat ∨ y.toNat = z.toNat) := fun hh =>
          hr b.arena.nnodes.toNat ((hpar _ _).2 (.inr ⟨rfl, hkind, hh⟩))
        have hzx : z ≠ x := fun hh => hnot (.inl (by rw [hh]))
        have hzy : z ≠ y := fun hh => hnot (.inr (by rw [hh]))
        exact (List.mem_erase_of_ne hzy).2 ((List.mem_erase_of_ne hzx).2 hzq)
  · intro i j k hj hk
    simp only [Build.add] at hj hk
    have hxr := ((h.queue_roots x).1 hxq).2
    have hyr := ((h.queue_roots y).1 hyb).2
    rcases (hpar j i).1 hj with hj | ⟨rfl, _, hj⟩ <;> rcases (hpar k i).1 hk with hk | ⟨rfl, _, hk⟩
    · exact h.parent_unique i j k hj hk
    · rcases hk with hk | hk
      · exact absurd (hk ▸ hj) (hxr j)
      · exact absurd (hk ▸ hj) (hyr j)
    · rcases hj with hj | hj
      · exact absurd (hj ▸ hk) (hxr k)
      · exact absurd (hj ▸ hk) (hyr k)
    · rfl
  · intro i hi
    simp only [Build.add] at hi ⊢
    by_cases hin : i < b.arena.nnodes.toNat
    · rw [hold i hin] at hi
      exact mergedLeast_push hn v hu hin (h.merged i hi)
    · have hin' : i = b.arena.nnodes.toNat := by
        by_contra hc
        rw [hslot, if_neg hc, h.unused i (by omega)] at hi
        exact absurd hi (by decide)
      subst hin'
      have hw : ∀ j, Waiting (b.arena.push v) b.arena.nnodes.toNat j ↔ Waiting b.arena b.arena.nnodes.toNat j :=
        fun j => by
          unfold Waiting
          refine and_congr_right fun _ => forall_congr' fun k => imp_congr_right fun hk => not_congr ?_
          rw [hpar]
          exact ⟨fun hh => hh.resolve_right fun hh => by omega, .inl⟩
      have hwx : Waiting b.arena b.arena.nnodes.toNat x.toNat := (h.waiting_iff x).2 hxq
      have hwy : Waiting b.arena b.arena.nnodes.toNat y.toNat := (h.waiting_iff y).2 hyb
      have hid : ∀ j, Waiting b.arena b.arena.nnodes.toNat j → ∃ z ∈ b.queue, z.toNat = j := fun j hj => by
        have hjj : (BitVec.ofNat 10 j).toNat = j := by
          have := hj.1
          simp only [BitVec.toNat_ofNat]
          omega
        exact ⟨BitVec.ofNat 10 j, (h.waiting_iff _).1 (by rw [hjj]; exact hj), hjj⟩
      have hkey : ∀ z w : NodeId, z.toNat < b.arena.nnodes.toNat → w.toNat < b.arena.nnodes.toNat →
          (KeyBefore (b.arena.push v) z.toNat w.toNat ↔ keyLess b.arena z w = true) := fun z w hz hw => by
        rw [← keyBefore_iff]
        unfold KeyBefore
        rw [hold _ hz, hold _ hw]
      constructor
      · rw [hself, hw]; exact hwx
      · rw [hself, hw]; exact hwy
      · intro j hj hjne
        rw [hw] at hj
        rw [hself] at hjne ⊢
        obtain ⟨z, hz, rfl⟩ := hid j hj
        exact (hkey x z hxn hj.1).2 (hxmin z hz fun hh => hjne (by rw [hh]; rfl))
      · intro j hj hjne hjne'
        rw [hw] at hj
        rw [hself] at hjne hjne' ⊢
        obtain ⟨z, hz, rfl⟩ := hid j hj
        have hzx : z ≠ x := fun hh => hjne (by rw [hh]; rfl)
        exact (hkey y z hyn hj.1).2
          (hymin z ((List.mem_erase_of_ne hzx).2 hz) fun hh => hjne' (by rw [hh]; rfl))
  · have hq2 : ∀ z ∈ (b.queue.erase x).erase y, z.toNat < b.arena.nnodes.toNat := fun z hz =>
      h.queue_lt (List.mem_of_mem_erase (List.mem_of_mem_erase hz))
    have hperm : b.queue.Perm (x :: y :: (b.queue.erase x).erase y) :=
      (List.perm_cons_erase hxq).trans ((List.perm_cons_erase hyq).cons x)
    have hsum : queueWeight b.arena b.queue = (b.arena.slot x).weight.toNat + ((b.arena.slot y).weight.toNat +
        queueWeight b.arena ((b.queue.erase x).erase y)) := by
      unfold queueWeight
      rw [(hperm.map _).sum_eq]
      simp
    have hlt := countTotal_lt f
    have htot := h.weight
    have hnew : ((b.arena.push v).slot b.arena.nnodes).weight.toNat =
        (b.arena.slot x).weight.toNat + (b.arena.slot y).weight.toNat := by
      rw [Arena.slot, hself]
      simp only [hv, internalNode, BitVec.toNat_add]
      omega
    simp only [Build.add]
    have hcons : queueWeight (b.arena.push v) (b.arena.nnodes :: (b.queue.erase x).erase y) =
        ((b.arena.push v).slot b.arena.nnodes).weight.toNat + queueWeight (b.arena.push v) ((b.queue.erase x).erase y) :=
      rfl
    rw [hcons, queueWeight_push hn v hq2, hnew]
    omega

/-- The leaf stage ends in a forest of single leaves, if some count is not 0 (R121 to R124). -/
theorem forest_of_leaves (f : Table Count 257) (hf : f.get sentinel ≠ 0) :
    ∃ leaves, 2 ≤ leaves ∧ Forest f leaves (addNullLeaf (addLeaves f)) := by
  have h := addLeaves_row f
  set b := addLeaves f with hb
  have hle : b.arena.nnodes.toNat ≤ 257 := by simpa using h.size_le
  obtain ⟨i0, hi0, hs0⟩ := h.leaf_of sentinel (List.mem_finRange _) hf
  have hnoint : ∀ i, (b.arena.slotAt i).kind ≠ .internal := fun i hi => by
    by_cases hin : i < b.arena.nnodes.toNat
    · obtain ⟨s, _, _, hs⟩ := h.leaf i hin
      rw [hs] at hi; exact absurd hi (by simp [leafNode])
    · rw [h.unused i (by omega)] at hi; exact absurd hi (by decide)
  have hnonull : ∀ i, (b.arena.slotAt i).kind ≠ .nullLeaf := fun i hi => by
    by_cases hin : i < b.arena.nnodes.toNat
    · obtain ⟨s, _, _, hs⟩ := h.leaf i hin
      rw [hs] at hi; exact absurd hi (by simp [leafNode])
    · rw [h.unused i (by omega)] at hi; exact absurd hi (by decide)
  have hnopar : ∀ j i, ¬ IsParent b.arena j i := fun j i hp => hnoint j hp.1
  have hweight : queueWeight b.arena b.queue = countTotal f := by rw [h.weight, countTotal_eq]
  have hqmem : ∀ x, x ∈ b.queue ↔ x.toNat < b.arena.nnodes.toNat := fun x =>
    ⟨h.queue_lt x, fun hx => by
      obtain ⟨y, hy, hyx⟩ := h.queue_all _ hx
      rwa [← BitVec.eq_of_toNat_eq hyx]⟩
  have hsorted : ∀ i j, i < j → (b.arena.slotAt i).kind = .leaf → (b.arena.slotAt j).kind = .leaf →
      (b.arena.slotAt i).sym.toNat < (b.arena.slotAt j).sym.toNat := fun i j hij _ hj =>
    h.sorted i j hij (by
      by_contra hc
      rw [h.unused j (by omega)] at hj
      exact absurd hj (by decide))
  unfold addNullLeaf
  split
  · rename_i hq1
    have hn1 : b.arena.nnodes.toNat = 1 := by rw [← h.queue_length]; exact hq1
    have hn : b.arena.nnodes.toNat < 513 := by omega
    have hu := h.unused _ (Nat.le_refl _)
    have hsz := Arena.nnodes_push hn nullLeafNode
    have hslot := Arena.slotAt_push hn nullLeafNode
    have hpar : ∀ j i, ¬ IsParent (b.arena.push nullLeafNode) j i := fun j i hp => by
      rcases (isParent_push hn nullLeafNode hu j i).1 hp with hp | ⟨_, hp, _⟩
      · exact hnopar j i hp
      · exact absurd hp (by decide)
    have honly : ∀ s, f.get s ≠ 0 → s = sentinel := fun s hs => by
      obtain ⟨i, hi, hh⟩ := h.leaf_of s (List.mem_finRange _) hs
      have hii : i = i0 := by omega
      rw [hii, hs0] at hh
      have := congrArg (fun n => n.sym.toNat) hh
      simp only [leafNode, symbolField_toNat] at this
      exact Fin.ext this.symm
    have hnl : ∀ i, ((b.arena.push nullLeafNode).slotAt i).kind = .leaf →
        (b.arena.push nullLeafNode).slotAt i = b.arena.slotAt i := fun i hi => by
      rw [hslot] at hi ⊢
      split at hi
      · exact absurd hi (by decide)
      · rename_i hne; rw [if_neg hne]
    refine ⟨2, Nat.le_refl 2, ?_⟩
    constructor
    · omega
    · simp only [Build.add, hsz]
      omega
    · simp only [Build.add]
      rw [leafCount_push hn hu, h.count, hn1]
      rfl
    · simp only [Build.add, hsz, List.length_cons]
      omega
    · simp [Build.add]
    · intro i hi
      simp only [Build.add, hsz] at hi ⊢
      rw [hslot, if_neg (by omega)]
      exact h.unused i (by omega)
    · intro i hi
      simp only [Build.add, hsz] at hi ⊢
      rw [hslot]
      split
      · decide
      · obtain ⟨s, _, _, hs⟩ := h.leaf i (by omega)
        rw [hs]; simp [leafNode]
    · intro i hi
      simp only [Build.add, hsz] at hi ⊢
      rw [hslot]
      split
      · exact ⟨fun hh => absurd hh (by decide), fun hh => by omega⟩
      · exact ⟨fun hh => absurd hh (hnoint i), fun hh => by omega⟩
    · intro i _ hk
      simp only [Build.add] at hk
      rw [hslot] at hk
      split at hk
      · exact absurd hk (by decide)
      · exact absurd hk (hnoint i)
    · intro i hi hk
      simp only [Build.add, hsz] at hi hk ⊢
      have hsi := hnl i hk
      rw [hsi] at hk ⊢
      by_cases hin : i < b.arena.nnodes.toNat
      · obtain ⟨s, _, h1, h2⟩ := h.leaf i hin
        exact ⟨s, h1, h2⟩
      · rw [h.unused i (by omega)] at hk; exact absurd hk (by decide)
    · intro i hi hk
      simp only [Build.add, hsz] at hi hk ⊢
      rw [hslot] at hk ⊢
      split at hk
      · rename_i hin; rw [if_pos hin]
      · exact absurd hk (hnonull i)
    · intro s hs
      simp only [Build.add, hsz]
      obtain ⟨i, hi, hh⟩ := h.leaf_of s (List.mem_finRange _) hs
      exact ⟨i, by omega, by rw [hslot, if_neg (by omega)]; exact hh⟩
    · intro i j hij hi hj
      simp only [Build.add] at hi hj ⊢
      have hsi := hnl i hi
      rw [hsi] at hi ⊢
      have hsj := hnl j hj
      rw [hsj] at hj ⊢
      exact hsorted i j hij hi hj
    · exact ⟨fun _ => honly, fun _ => ⟨b.arena.nnodes.toNat, by simp only [Build.add]; rw [hslot, if_pos rfl]; rfl⟩⟩
    · intro i hi
      simp only [Build.add] at hi
      rw [hslot] at hi
      split at hi
      · omega
      · exact absurd hi (hnonull i)
    · simp only [Build.add, List.nodup_cons]
      refine ⟨fun hm => ?_, h.queue_nodup⟩
      have := h.queue_lt _ hm
      omega
    · intro x
      simp only [Build.add, hsz, List.mem_cons, hqmem]
      constructor
      · rintro (rfl | hx)
        · exact ⟨by omega, fun j => hpar j _⟩
        · exact ⟨by omega, fun j => hpar j _⟩
      · rintro ⟨hx, _⟩
        by_cases hxn : x.toNat = b.arena.nnodes.toNat
        · exact .inl (BitVec.eq_of_toNat_eq hxn)
        · exact .inr (by omega)
    · intro i j k hj _
      exact absurd hj (hpar j i)
    · intro i hi
      simp only [Build.add] at hi
      rw [hslot] at hi
      split at hi
      · exact absurd hi (by decide)
      · exact absurd hi (hnoint i)
    · simp only [Build.add]
      have hcons : queueWeight (b.arena.push nullLeafNode) (b.arena.nnodes :: b.queue) =
          ((b.arena.push nullLeafNode).slot b.arena.nnodes).weight.toNat +
            queueWeight (b.arena.push nullLeafNode) b.queue := rfl
      rw [hcons, queueWeight_push hn _ h.queue_lt, Arena.slot, hslot, if_pos rfl, hweight]
      simp [nullLeafNode]
  · rename_i hq1
    have hge : 2 ≤ b.arena.nnodes.toNat := by
      have := h.queue_length
      omega
    refine ⟨b.arena.nnodes.toNat, hge, ?_⟩
    constructor
    · exact hle
    · exact Nat.le_refl _
    · exact h.count
    · have := h.queue_length; omega
    · have := h.queue_length; omega
    · exact h.unused
    · intro i hi
      obtain ⟨s, _, _, hs⟩ := h.leaf i hi
      rw [hs]; simp [leafNode]
    · intro i hi
      exact ⟨fun hh => absurd hh (hnoint i), fun hh => by omega⟩
    · intro i _ hk; exact absurd hk (hnoint i)
    · intro i hi _
      obtain ⟨s, _, h1, h2⟩ := h.leaf i hi
      exact ⟨s, h1, h2⟩
    · intro i _ hk; exact absurd hk (hnonull i)
    · intro s hs; exact h.leaf_of s (List.mem_finRange _) hs
    · exact hsorted
    · refine ⟨fun ⟨i, hi⟩ => absurd hi (hnonull i), fun honly => ?_⟩
      exfalso
      obtain ⟨s, _, hs, hss⟩ := h.leaf 0 (by omega)
      obtain ⟨t, _, ht, htt⟩ := h.leaf 1 (by omega)
      have := h.sorted 0 1 (by omega) (by omega)
      rw [hss, htt, honly s hs, honly t ht] at this
      simp [leafNode] at this
    · intro i hi; exact absurd hi (hnonull i)
    · exact h.queue_nodup
    · intro x
      rw [hqmem]
      exact ⟨fun hx => ⟨hx, fun j => hnopar j _⟩, fun hx => hx.1⟩
    · intro i j k hj _; exact absurd hj (hnopar j i)
    · intro i hi; exact absurd hi (hnoint i)
    · exact hweight

/-- The merge loop ends with one node queued (R126). -/
theorem mergeAll_forest {f : Table Count 257} {leaves : Nat} :
    ∀ (n : Nat) (b : Build), Forest f leaves b → b.queue.length ≤ n + 1 →
      Forest f leaves (mergeAll n b) ∧ (mergeAll n b).queue.length = 1 := by
  intro n
  induction n with
  | zero =>
    intro b h hn
    exact ⟨h, by have := h.queue_pos; simp only [mergeAll]; omega⟩
  | succ n ih =>
    intro b h hn
    simp only [mergeAll]
    have hpos := h.queue_pos
    have hne : b.queue ≠ [] := fun hh => by rw [hh] at hpos; exact absurd hpos (by decide)
    obtain ⟨x, hx⟩ := extractMin_of_ne b.arena hne
    simp only [hx]
    have hxq := (extractMin_some _ hx).1
    have hlen := List.length_erase_of_mem hxq
    cases hy : extractMin b.arena (b.queue.erase x) with
    | none =>
      refine ⟨h, ?_⟩
      have : (b.queue.erase x).length = 0 := by rw [(extractMin_none _).1 hy]; rfl
      simp only
      omega
    | some r =>
      obtain ⟨y, q2⟩ := r
      have hyq := (extractMin_some _ hy).1
      have hq2 := (extractMin_some _ hy).2.1
      refine ih _ (h.merge hx hy) ?_
      have := List.length_erase_of_mem hyq
      have := List.length_pos_of_mem hyq
      simp only [Build.add, List.length_cons, hq2]
      omega

/-- TreeBuild of a table whose sentinel is counted answers a full binary tree over the table's nonzero counts, made by
merging the two least nodes at each step, whose root weighs the sum of all counts (R120 to R129). -/
theorem treeBuild_some (f : Table Count 257) (hf : f.get sentinel ≠ 0) :
    ∃ a, treeBuild f = some a ∧ TreeOf f a ∧ BuiltFrom f a ∧ (a.slot a.root).weight.toNat = countTotal f := by
  obtain ⟨leaves, hge, h0⟩ := forest_of_leaves f hf
  obtain ⟨h, hq⟩ := mergeAll_forest _ _ h0 (Nat.le_succ _)
  unfold treeBuild
  simp only
  generalize mergeAll (addNullLeaf (addLeaves f)).queue.length (addNullLeaf (addLeaves f)) = b at h hq ⊢
  obtain ⟨r, hr⟩ := List.length_eq_one_iff.1 hq
  have hrq : r ∈ b.queue := by rw [hr]; exact List.mem_singleton.2 rfl
  have hrn := h.queue_lt hrq
  have hsize := h.size
  have hle := h.leaves_le
  have hlast : r.toNat + 1 = b.arena.nnodes.toNat := by
    have hid : (BitVec.ofNat 10 (b.arena.nnodes.toNat - 1)).toNat = b.arena.nnodes.toNat - 1 := by
      simp only [BitVec.toNat_ofNat]; omega
    have hin : BitVec.ofNat 10 (b.arena.nnodes.toNat - 1) ∈ b.queue := by
      rw [h.queue_roots, hid]
      refine ⟨by omega, fun j hj => ?_⟩
      have := h.parent_lt hj
      omega
    rw [hr, List.mem_singleton] at hin
    rw [← hin, hid]
    omega
  have htake : takeRoot b = some { b.arena with root := r } := by
    simp [takeRoot, hr, extractMin, leastOf]
  refine ⟨_, htake, ?_, ?_, ?_⟩
  · constructor
    · exact hlast
    · show (b.arena.slotAt r.toNat).kind = .internal
      exact (h.leaves_first _ hrn).2 (by omega)
    · show 2 ≤ leafCount b.arena
      rw [h.count]; exact hge
    · show leafCount b.arena ≤ 257
      rw [h.count]; exact hle
    · show b.arena.nnodes.toNat + 1 = 2 * leafCount b.arena
      rw [h.count]; omega
    · intro i hi
      show (b.arena.slotAt i).kind = .internal ↔ leafCount b.arena ≤ i
      rw [h.count]
      exact h.leaves_first i hi
    · exact h.unused
    · exact h.used
    · exact h.internal_node
    · exact h.leaf_node
    · exact h.null_node
    · exact h.leaf_of
    · intro i j hi hij
      simp only [Arena.slotAt_root] at hi hij
      by_contra hne
      rcases Nat.lt_or_gt_of_ne hne with hlt | hlt
      · have := h.sorted i j hlt hi (hij ▸ hi)
        rw [hij] at this
        omega
      · have := h.sorted j i hlt (hij ▸ hi) hi
        rw [hij] at this
        omega
    · intro i hi
      simp only at hi
      have hid : (BitVec.ofNat 10 i).toNat = i := by simp only [BitVec.toNat_ofNat]; omega
      have hnq : BitVec.ofNat 10 i ∉ b.queue := by
        rw [hr, List.mem_singleton]
        intro hh
        have := congrArg BitVec.toNat hh
        omega
      rw [h.queue_roots, hid] at hnq
      push Not at hnq
      obtain ⟨j, hj⟩ := hnq (by omega)
      have := h.parent_lt hj
      exact ⟨j, by simp only; omega, hj⟩
    · exact h.parent_unique
  · constructor
    · exact h.sorted
    · exact h.null_iff
    · exact h.null_second
    · intro i hi
      exact ⟨(h.merged i hi).left_waits, (h.merged i hi).right_waits, (h.merged i hi).left_least,
        (h.merged i hi).right_next⟩
  · show (b.arena.slot r).weight.toNat = countTotal f
    have := h.weight
    rw [hr] at this
    simpa [queueWeight] using this

end Forest

end Sys2Proof.Machine
end

