-- ==== Sys2Proof/Laws/Paths.lean ====
section
/-! SUPPORT. Paths in a tree and the traversal that records them (42_codetable.md R140 to R144). -/

namespace Sys2Proof.Safety

open Sys2Proof.Machine

section Paths

variable {f : Table Count 257} {a : Arena}

theorem leadsTo_append {n m : NodeId} {p q : Bits} :
    LeadsTo a n (p ++ q) m ↔ ∃ k, LeadsTo a n p k ∧ LeadsTo a k q m := by
  induction p generalizing n with
  | nil => simp [LeadsTo]
  | cons b bs ih => simp [LeadsTo, ih, and_assoc]

theorem leadsTo_snoc {n m : NodeId} {p : Bits} {b : Bool} :
    LeadsTo a n (p ++ [b]) m ↔ ∃ k, LeadsTo a n p k ∧ (a.slot k).kind = .internal ∧ childOf a k b = m := by
  simp [leadsTo_append, LeadsTo]

theorem isParent_childOf {k : NodeId} (hk : (a.slot k).kind = .internal) (b : Bool) :
    IsParent a k.toNat (childOf a k b).toNat := by
  refine ⟨hk, ?_⟩
  cases b
  · exact .inl rfl
  · exact .inr rfl

theorem TreeOf.internal_lt (h : TreeOf f a) {n : NodeId} (hk : (a.slot n).kind = .internal) :
    n.toNat < a.nnodes.toNat := by
  by_contra hc
  have := h.unused_above n.toNat (by omega)
  rw [Arena.slot, this] at hk
  exact absurd hk (by decide)

theorem TreeOf.child_lt (h : TreeOf f a) {n : NodeId} (hk : (a.slot n).kind = .internal) (b : Bool) :
    (childOf a n b).toNat < n.toNat := by
  have := h.internal_node n.toNat (h.internal_lt hk) hk
  cases b
  · exact this.1
  · exact this.2.1

theorem TreeOf.child_inj (h : TreeOf f a) {n : NodeId} (hk : (a.slot n).kind = .internal) {b c : Bool}
    (hbc : childOf a n b = childOf a n c) : b = c := by
  have hne := (h.internal_node n.toNat (h.internal_lt hk) hk).2.2.1
  cases b <;> cases c
  · rfl
  · exact absurd hbc hne
  · exact absurd hbc.symm hne
  · rfl

/-- Ids fall by at least one along every edge of a path. -/
theorem TreeOf.leadsTo_le (h : TreeOf f a) {n m : NodeId} {p : Bits} (hp : LeadsTo a n p m) :
    m.toNat + p.length ≤ n.toNat := by
  induction p generalizing n with
  | nil => rw [hp]; simp
  | cons b bs ih =>
    have := ih hp.2
    have := h.child_lt hp.1 b
    simp only [List.length_cons]
    omega

theorem TreeOf.leadsTo_lt (h : TreeOf f a) {n m : NodeId} {p : Bits} (hn : n.toNat < a.nnodes.toNat)
    (hp : LeadsTo a n p m) : m.toNat < a.nnodes.toNat := by
  have := h.leadsTo_le hp
  omega

/-- Of two paths to one node, the shorter is the end of the longer (each node but the root has one parent, R129). -/
theorem TreeOf.leadsTo_suffix (h : TreeOf f a) {n n' m : NodeId} {p : Bits} (hp : LeadsTo a n p m) :
    ∀ {q : Bits}, LeadsTo a n' q m → p.length ≤ q.length → ∃ r, q = r ++ p ∧ LeadsTo a n' r n := by
  induction p using List.reverseRecOn generalizing m with
  | nil =>
    intro q hq _
    exact ⟨q, by simp, by rw [show n = m from hp]; exact hq⟩
  | append_singleton p b ih =>
    intro q hq hlen
    obtain ⟨k, hk, hki, hkm⟩ := leadsTo_snoc.1 hp
    rcases List.eq_nil_or_concat q with rfl | ⟨q, c, rfl⟩
    · simp at hlen
    · rw [List.concat_eq_append] at hq hlen ⊢
      obtain ⟨k', hk', hki', hkm'⟩ := leadsTo_snoc.1 hq
      have hkk : k.toNat = k'.toNat := by
        refine h.parent_unique m.toNat _ _ ?_ ?_
        · rw [← hkm]; exact isParent_childOf hki b
        · rw [← hkm']; exact isParent_childOf hki' c
      have hkk := BitVec.eq_of_toNat_eq hkk
      subst hkk
      have hbc := h.child_inj hki (hkm.trans hkm'.symm)
      subst hbc
      obtain ⟨r, rfl, hr⟩ := ih hk hk' (by simpa using hlen)
      exact ⟨r, by simp, hr⟩

/-- A node is reached from another by at most one path (42_codetable.md R140). -/
theorem TreeOf.leadsTo_unique (h : TreeOf f a) {n m : NodeId} {p q : Bits} (hp : LeadsTo a n p m)
    (hq : LeadsTo a n q m) : p = q := by
  rcases Nat.le_total p.length q.length with hl | hl
  · obtain ⟨r, rfl, hr⟩ := h.leadsTo_suffix hp hq hl
    have := h.leadsTo_le hr
    rw [List.length_eq_zero_iff.1 (by omega : r.length = 0)]
    rfl
  · obtain ⟨r, rfl, hr⟩ := h.leadsTo_suffix hq hp hl
    have := h.leadsTo_le hr
    rw [List.length_eq_zero_iff.1 (by omega : r.length = 0)]
    rfl

/-- The two subtrees of a node share no node. -/
theorem TreeOf.subtrees_apart (h : TreeOf f a) {n m : NodeId} (hk : (a.slot n).kind = .internal) {p q : Bits}
    (hp : LeadsTo a (childOf a n false) p m) (hq : LeadsTo a (childOf a n true) q m) : False := by
  have hp' : LeadsTo a n (false :: p) m := ⟨hk, hp⟩
  have hq' : LeadsTo a n (true :: q) m := ⟨hk, hq⟩
  exact absurd (h.leadsTo_unique hp' hq') (by simp)

/-- Every node of the tree is reached from the root (R129). -/
theorem TreeOf.reachable (h : TreeOf f a) {n : NodeId} (hn : n.toNat < a.nnodes.toNat) : ∃ p, LeadsTo a a.root p n := by
  have hroot := h.root_last
  have key : ∀ k (n : NodeId), n.toNat + k = a.root.toNat → ∃ p, LeadsTo a a.root p n := by
    intro k
    induction k using Nat.strong_induction_on with
    | _ k ih =>
      intro n hk
      rcases Nat.eq_zero_or_pos k with rfl | hpos
      · exact ⟨[], (BitVec.eq_of_toNat_eq (by omega) : a.root = n)⟩
      · obtain ⟨j, hj, hpar⟩ := h.parent n.toNat (by omega)
        have hrlt := a.root.isLt
        have hid : (BitVec.ofNat 10 j).toNat = j := by simp only [BitVec.toNat_ofNat]; omega
        have hji : (a.slot (BitVec.ofNat 10 j)).kind = .internal := by rw [Arena.slot, hid]; exact hpar.1
        have hjn := h.internal_node j (by omega) hpar.1
        have hlt : n.toNat < j := by rcases hpar.2 with hh | hh <;> omega
        obtain ⟨p, hp⟩ := ih (a.root.toNat - j) (by omega) (BitVec.ofNat 10 j) (by omega)
        rcases hpar.2 with hh | hh
        · refine ⟨p ++ [false], leadsTo_snoc.2 ⟨_, hp, hji, ?_⟩⟩
          refine BitVec.eq_of_toNat_eq ?_
          show (a.slotAt (BitVec.ofNat 10 j).toNat).left.toNat = _
          rw [hid, hh]
        · refine ⟨p ++ [true], leadsTo_snoc.2 ⟨_, hp, hji, ?_⟩⟩
          refine BitVec.eq_of_toNat_eq ?_
          show (a.slotAt (BitVec.ofNat 10 j).toNat).right.toNat = _
          rw [hid, hh]
  exact key (a.root.toNat - n.toNat) n (by omega)

/-- A path of length `d` passes through `d` INTERNAL nodes, whose ids are at or above the number of leaves (R130). -/
theorem TreeOf.path_length (h : TreeOf f a) {n m : NodeId} {p : Bits} (hp : LeadsTo a n p m) (hne : p ≠ []) :
    leafCount a + p.length ≤ n.toNat + 1 := by
  induction p generalizing n with
  | nil => exact absurd rfl hne
  | cons b bs ih =>
    have hlow := (h.leaves_first n.toNat (h.internal_lt hp.1)).1 hp.1
    by_cases hbs : bs = []
    · subst hbs
      simp only [List.length_cons, List.length_nil]
      omega
    · have := ih hp.2 hbs
      have := h.child_lt hp.1 b
      simp only [List.length_cons]
      omega

/-- The tree's depth is at most 256 (R130). -/
theorem TreeOf.depth_le (h : TreeOf f a) {m : NodeId} {p : Bits} (hp : LeadsTo a a.root p m) : p.length ≤ 256 := by
  by_cases hne : p = []
  · subst hne; simp
  · have := h.path_length hp hne
    have := h.root_last
    have := h.size_eq
    have := h.leaves_le
    omega

/-- A leaf is no INTERNAL node, so a path ends at the first leaf it reaches. -/
theorem leadsTo_leaf_nil {n m : NodeId} {p : Bits} (hn : (a.slot n).kind ≠ .internal) (hp : LeadsTo a n p m) : p = [] := by
  cases p with
  | nil => rfl
  | cons b bs => exact absurd hp.1 hn

end Paths

section Derive

variable {f : Table Count 257} {a : Arena}

theorem leafNode_inj {s t : Symbol} {c d : Count} (h : leafNode s c = leafNode t d) : s = t := by
  have := congrArg (fun n => n.sym.toNat) h
  simp only [leafNode, symbolField_toNat] at this
  exact Fin.ext this

/-- What visiting a subtree does to the encoding table: each leaf of the subtree gets its path, and every other entry
stays (R140). -/
theorem derivePaths_spec (h : TreeOf f a) : ∀ (depth : Nat) (n : NodeId) (p : Bits) (codes : Table (Option Bits) 257),
    n.toNat < a.nnodes.toNat → n.toNat < depth →
    ∃ codes', derivePaths a depth n p codes = some codes' ∧
      (∀ s q m, LeadsTo a n q m → a.slot m = leafNode s (f.get s) → codes'.get s = some (p ++ q)) ∧
      (∀ s, (∀ q m, LeadsTo a n q m → a.slot m ≠ leafNode s (f.get s)) → codes'.get s = codes.get s) := by
  intro depth
  induction depth with
  | zero => intro n p codes _ hn; omega
  | succ depth ih =>
    intro n p codes hn hd
    cases hk : (a.slot n).kind with
    | empty => exact absurd hk (h.used_below n.toNat hn)
    | leaf =>
      obtain ⟨s, hs, hleaf⟩ := h.leaf_node n.toNat hn hk
      have hleaf' : a.slot n = leafNode s (f.get s) := hleaf
      have hsym : (a.slot n).sym.toNat = s.val := by rw [hleaf']; exact symbolField_toNat s
      have hlt : (a.slot n).sym.toNat < 257 := by rw [hsym]; exact s.isLt
      have hidx : (⟨(a.slot n).sym.toNat, hlt⟩ : Symbol) = s := Fin.ext hsym
      have hnil : ∀ q m, LeadsTo a n q m → q = [] ∧ m = n := fun q m hq => by
        have := leadsTo_leaf_nil (by rw [hk]; decide) hq
        subst this
        exact ⟨rfl, Eq.symm hq⟩
      refine ⟨codes.set s (some p), ?_, ?_, ?_⟩
      · simp only [derivePaths, hk]
        rw [dif_pos hlt, hidx]
      · intro t q m hq hm
        obtain ⟨rfl, rfl⟩ := hnil q m hq
        rw [hleaf'] at hm
        have := leafNode_inj hm
        subst this
        simp
      · intro t ht
        rw [Table.get_set_ne]
        rintro rfl
        exact ht [] n rfl hleaf'
    | nullLeaf =>
      have hnull : a.slot n = nullLeafNode := h.null_node n.toNat hn hk
      refine ⟨codes, by simp only [derivePaths, hk], ?_, fun _ _ => rfl⟩
      intro t q m hq hm
      have := leadsTo_leaf_nil (by rw [hk]; decide) hq
      subst this
      rw [← show n = m from hq, hnull] at hm
      exact absurd (congrArg Node.kind hm) (by simp [nullLeafNode, leafNode])
    | internal =>
      have hl := h.child_lt hk false
      have hr := h.child_lt hk true
      obtain ⟨c1, h1, h1a, h1b⟩ := ih (childOf a n false) (p ++ [false]) codes (by omega) (by omega)
      obtain ⟨c2, h2, h2a, h2b⟩ := ih (childOf a n true) (p ++ [true]) c1 (by omega) (by omega)
      refine ⟨c2, ?_, ?_, ?_⟩
      · simp only [derivePaths, hk]
        have e1 : (a.slot n).left = childOf a n false := rfl
        have e2 : (a.slot n).right = childOf a n true := rfl
        rw [e1, h1, e2]
        exact h2
      · intro s q m hq hm
        cases q with
        | nil =>
          rw [← show n = m from hq] at hm
          rw [hm] at hk
          exact absurd hk (by simp [leafNode])
        | cons b q =>
          cases b with
          | true => simpa using h2a s q m hq.2 hm
          | false =>
            rw [h2b s fun q' m' hq' hm' => ?_]
            · simpa using h1a s q m hq.2 hm
            · have hmm : m = m' := by
                refine BitVec.eq_of_toNat_eq (h.leaf_unique _ _ ?_ (hm.trans hm'.symm))
                show (a.slot m).kind = .leaf
                rw [hm]; rfl
              subst hmm
              exact h.subtrees_apart hk hq.2 hq'
      · intro s hs
        rw [h2b s fun q m hq => hs (true :: q) m ⟨hk, hq⟩, h1b s fun q m hq => hs (false :: q) m ⟨hk, hq⟩]

/-- The encoding table of a tree (R141): a symbol's code is the path from the root to its leaf, and a symbol has a code
exactly when its count is not 0. -/
theorem derive_some (h : TreeOf f a) : ∃ codes, derive a = some codes ∧
    (∀ s p, codes.get s = some p ↔ ∃ m, LeadsTo a a.root p m ∧ a.slot m = leafNode s (f.get s)) ∧
    (∀ s, (codes.get s).isSome = true ↔ f.get s ≠ 0) := by
  have hroot := h.root_last
  have hle := h.leaves_le
  have hsize := h.size_eq
  obtain ⟨c, hc, hca, hcb⟩ := derivePaths_spec h 513 a.root [] noCodes (by omega) (by omega)
  have hiff : ∀ s p, c.get s = some p ↔ ∃ m, LeadsTo a a.root p m ∧ a.slot m = leafNode s (f.get s) := by
    intro s p
    constructor
    · intro hp
      by_contra hno
      by_cases hex : ∃ q m, LeadsTo a a.root q m ∧ a.slot m = leafNode s (f.get s)
      · obtain ⟨q, m, hq, hm⟩ := hex
        have := hca s q m hq hm
        rw [hp, List.nil_append, Option.some.injEq] at this
        exact hno ⟨m, this ▸ hq, hm⟩
      · push Not at hex
        rw [hcb s hex] at hp
        simp [noCodes] at hp
    · rintro ⟨m, hq, hm⟩
      simpa using hca s p m hq hm
  refine ⟨c, hc, hiff, fun s => ?_⟩
  rw [Option.isSome_iff_exists]
  constructor
  · rintro ⟨p, hp⟩
    obtain ⟨m, hm, hms⟩ := (hiff s p).1 hp
    have hmlt := h.leadsTo_lt (by omega) hm
    obtain ⟨t, ht, htt⟩ := h.leaf_node m.toNat hmlt (by show (a.slot m).kind = .leaf; rw [hms]; rfl)
    have := leafNode_inj (hms.symm.trans htt)
    rw [this]
    exact ht
  · intro hs
    obtain ⟨i, hi, hii⟩ := h.leaf_of s hs
    have hid : (BitVec.ofNat 10 i).toNat = i := by simp only [BitVec.toNat_ofNat]; omega
    obtain ⟨p, hp⟩ := h.reachable (n := BitVec.ofNat 10 i) (by rw [hid]; exact hi)
    exact ⟨p, (hiff s p).2 ⟨_, hp, by rw [Arena.slot, hid]; exact hii⟩⟩

/-- The codes of a tree are between 1 and 256 bits long (R144). -/
theorem derive_coded (h : TreeOf f a) {codes : Table (Option Bits) 257} (hd : derive a = some codes) :
    Coded f codes := by
  obtain ⟨c, hc, hiff, hsome⟩ := derive_some h
  rw [hd, Option.some.injEq] at hc
  subst hc
  refine fun s => ⟨hsome s, fun p hp => ?_⟩
  obtain ⟨m, hm, hms⟩ := (hiff s p).1 hp
  refine ⟨List.length_pos_iff.2 fun hnil => ?_, h.depth_le hm⟩
  subst hnil
  have hroot := h.root_internal
  rw [show a.root = m from hm, hms] at hroot
  exact absurd hroot (by simp [leafNode])

end Derive

end Sys2Proof.Safety
end

