-- ==== Sys2Proof/Laws/Decoder.lean ====
section
/-! SUPPORT. What each stretch of the decoder's pseudocode can do (44_bitreader.md, 46_decoder.md): its cases, what it leaves
unchanged, the equations of the two bulk commands, and walking a path. -/

namespace Sys2Proof.Machine

open Sys2Proof.Safety

section Cases

/-- Everything asking the source for a byte can do (10_state.md R28). -/
theorem Dec.nextByte_cases (e : Dec) :
    (e.port.src.length ≤ e.port.rp ∧ e.nextByte = .ok { e with eoi := true } none) ∨
    (∃ b, e.port.src[e.port.rp]? = some b ∧ e.port.io.answerAt .dec .read e.port.rp 0 = false ∧
      e.nextByte = .ok { e with port := { e.port with rp := e.port.rp + 1, io := e.port.io.tick } } (some b)) ∨
    (∃ b, e.port.src[e.port.rp]? = some b ∧ e.port.io.answerAt .dec .read e.port.rp 0 = true ∧
      e.nextByte = .raised { e with port := { e.port with io := e.port.io.tick } } .io) := by
  rcases takeByte_cases .dec e.port with ⟨h, ht⟩ | ⟨b, hb, hio, ht⟩ | ⟨b, hb, hio, ht⟩
  · exact .inl ⟨h, by simp [Dec.nextByte, ht]⟩
  · exact .inr (.inl ⟨b, hb, hio, by simp [Dec.nextByte, ht]⟩)
  · exact .inr (.inr ⟨b, hb, hio, by simp [Dec.nextByte, ht]⟩)

/-- DCLOSE always answers a next state (46_decoder.md R239). -/
theorem execDclose_cases (s : State) :
    (s.dec.phase = .closed ∧ execDclose s = .next (s.setDec (s.dec.latch .sequence))) ∨
    (s.dec.phase ≠ .closed ∧ execDclose s = .next (s.setDec { s.dec with phase := .closed })) := by
  by_cases h : s.dec.phase = .closed
  · exact .inl ⟨h, by simp [execDclose, decCloseGate, phaseLegal, h]⟩
  · exact .inr ⟨h, by simp [execDclose, decCloseGate, phaseLegal, h, decFinish]⟩

/-- ReadBit returns the next unread bit when its buffer has one, or the refill does not fail (44_bitreader.md R180). -/
theorem readBit_next (d : Dec) {b : Bool} {rest : Bits} (h : unread d = b :: rest)
    (hio : d.cnt = 8 → d.port.io.answerAt .dec .read d.port.rp 0 = false) :
    ∃ buf cnt rp io, readBit d = .ok { d with buf := buf, cnt := cnt, port := { d.port with rp := rp, io := io } } (some b) ∧
      unread { d with buf := buf, cnt := cnt, port := { d.port with rp := rp, io := io } } = rest ∧
      8 * rp + cnt.val = bitPos d + 1 ∧ 1 ≤ cnt.val := by
  rcases readBit_cases d with ⟨hc, hr⟩ | ⟨hc, hb, hr⟩ | ⟨hc, v, hb, _, hr⟩ | ⟨hc, v, hb, hio', hr⟩
  · have hu := unread_buffered d hc
    rw [h, List.cons.injEq] at hu
    refine ⟨d.buf, ⟨d.cnt.val + 1, by omega⟩, d.port.rp, d.port.io, ?_, hu.2.symm, ?_, by simp⟩
    · rw [hr, hu.1]
    · simp only [bitPos]; omega
  · rw [unread_end d hc hb] at h
    exact absurd h (by simp)
  · have hu := unread_refill d hc hb d.port.io.tick
    rw [h, List.cons.injEq] at hu
    refine ⟨v, 1, d.port.rp + 1, d.port.io.tick, ?_, hu.2.symm, ?_, by decide⟩
    · rw [hr, hu.1]
    · simp only [bitPos, hc]
      rfl
  · rw [hio (Fin.ext hc)] at hio'
    exact absurd hio' (by simp)

/-- With nothing unread, the buffer is used up and the source is at its end. -/
theorem unread_nil (d : Dec) (h : unread d = []) : d.cnt.val = 8 ∧ d.port.src.length ≤ d.port.rp := by
  rcases readBit_cases d with ⟨hc, _⟩ | ⟨hc, hb, _⟩ | ⟨hc, v, hb, _, _⟩ | ⟨hc, v, hb, _, _⟩
  · rw [unread_buffered d hc] at h; cases h
  · exact ⟨hc, hb⟩
  · rw [unread_refill d hc hb d.port.io] at h; cases h
  · rw [unread_refill d hc hb d.port.io] at h; cases h

end Cases

section Frames

/-- What reading the header may change: EOI, the source offset, the answers used. -/
def HeaderFrame (d d' : Dec) : Prop :=
  d' = { d with eoi := d'.eoi, port := { d.port with rp := d'.port.rp, io := d'.port.io } }

theorem readHeader_frame (n : Nat) (d : Dec) : (readHeader n d).Keeps (HeaderFrame d) := by
  induction n generalizing d with
  | zero => exact rfl
  | succ n ih =>
    simp only [readHeader]
    rcases d.nextByte_cases with ⟨_, h⟩ | ⟨b, _, _, h⟩ | ⟨b, _, _, h⟩ <;> rw [h]
    · exact rfl
    · simp only [Ended.bind_ok]
      have h1 := ih { d with port := { d.port with rp := d.port.rp + 1, io := d.port.io.tick } }
      revert h1
      cases readHeader n { d with port := { d.port with rp := d.port.rp + 1, io := d.port.io.tick } } <;> intro h1
      · simp only [Ended.bind_ok, Ended.Keeps, HeaderFrame] at h1 ⊢
        rw [h1]
      · simp only [Ended.bind_raised, Ended.Keeps, HeaderFrame] at h1 ⊢
        rw [h1]
      · trivial
    · exact rfl

/-- What reading a bit may change. -/
def ReadFrame (d d' : Dec) : Prop :=
  d' = { d with
    eoi := d'.eoi, buf := d'.buf, cnt := d'.cnt,
    port := { d.port with rp := d'.port.rp, io := d'.port.io } }

theorem readBit_frame (d : Dec) : (readBit d).Keeps (ReadFrame d) := by
  rcases readBit_cases d with ⟨_, h⟩ | ⟨_, _, h⟩ | ⟨_, b, _, _, h⟩ | ⟨_, b, _, _, h⟩ <;> rw [h] <;> rfl

/-- What walking the tree may change; the destination is only appended to. -/
def WalkFrame (d d' : Dec) : Prop :=
  d' = { d with
    phase := d'.phase, eoi := d'.eoi, cur := d'.cur, buf := d'.buf, cnt := d'.cnt,
    port := { d.port with rp := d'.port.rp, dst := d'.port.dst, io := d'.port.io } } ∧
  ∃ l, d'.port.dst = d.port.dst ++ l

theorem WalkFrame.refl (e : Dec) : WalkFrame e e := ⟨rfl, [], by simp⟩

theorem WalkFrame.trans {a b c : Dec} (h : WalkFrame a b) (h' : WalkFrame b c) : WalkFrame a c := by
  obtain ⟨h1, l, hl⟩ := h
  obtain ⟨h1', l', hl'⟩ := h'
  refine ⟨?_, l ++ l', by rw [hl', hl, List.append_assoc]⟩
  rw [h1', h1]

theorem arrive_frame (d : Dec) : (arrive d).Keeps (WalkFrame d) := by
  unfold arrive
  split
  · exact .refl d
  · split
    · exact ⟨rfl, [], by simp⟩
    · unfold Dec.write
      cases h : d.port.io.answerAt .dec .write d.port.dst.length 0 with
      | true => rw [memWrite_fault _ _ _ h]; exact ⟨rfl, [], by simp⟩
      | false => rw [memWrite_ok _ _ _ h]; exact ⟨rfl, _, rfl⟩
  · exact .refl d
  · trivial

theorem stepBody_frame (d : Dec) : (stepBody d).Keeps (WalkFrame d) := by
  have hmono : ∀ s, ReadFrame d s → WalkFrame d s := fun s h => ⟨by rw [h], [], by rw [h]; simp⟩
  refine (readBit_frame d).bind hmono fun s a h => ?_
  have hw := hmono s h
  cases a with
  | none => exact hw
  | some b => exact (arrive_frame _).mono fun _ h' => hw.trans (.trans ⟨rfl, [], by simp⟩ h')

theorem walk_frame (stop : Dec → Bool → Bool) (n : Nat) (d : Dec) :
    (repeatUntil stepBody stop n d).Keeps (WalkFrame d) :=
  repeatUntil_keeps (P := WalkFrame d) (fun s hs => (stepBody_frame s).mono fun _ h => hs.trans h) _ _ (.refl d)

theorem unit_keeps {σ α : Type} {P : σ → Prop} {x : Ended σ α} (h : x.Keeps P) : x.unit.Keeps P := by
  cases x <;> exact h

end Frames

section Header

/-- Reading a header that is there, with no failing access (46_decoder.md R231). -/
theorem readHeader_ok : ∀ (n : Nat) (d : Dec), d.port.rp + n ≤ d.port.src.length → Calm .dec n d.port.io →
    readHeader n d = .ok { d with port := { d.port with rp := d.port.rp + n, io := ioAfter n d.port.io } }
      ((d.port.src.drop d.port.rp).take n) := by
  intro n
  induction n with
  | zero => intro d _ _; simp [readHeader]
  | succ n ih =>
    intro d h hc
    simp only [readHeader]
    rcases d.nextByte_cases with ⟨h1, h'⟩ | ⟨b, hb, hio, h'⟩ | ⟨b, hb, hio, h'⟩
    · omega
    · rw [h', Ended.bind_ok]
      simp only
      rw [ih _ (by simp only; omega) hc.tick]
      obtain ⟨hlt, hget⟩ := (List.getElem?_eq_some_iff.1 hb)
      rw [List.drop_eq_getElem_cons hlt, hget, List.take_succ_cons]
      simp only [Ended.bind_ok, ioAfter_tick]
      congr 3
      omega
    · rw [hc.head] at hio; cases hio

/-- A header that is too short raises FORMAT at the end of the source (R231). -/
theorem readHeader_short : ∀ (n : Nat) (d : Dec), d.port.rp ≤ d.port.src.length →
    d.port.src.length < d.port.rp + n → Calm .dec (d.port.src.length - d.port.rp) d.port.io →
    readHeader n d = .raised { d with
      eoi := true,
      port := { d.port with
        rp := d.port.src.length, io := ioAfter (d.port.src.length - d.port.rp) d.port.io } } .format := by
  intro n
  induction n with
  | zero => intro d h1 h2 _; omega
  | succ n ih =>
    intro d h1 h2 hc
    simp only [readHeader]
    rcases d.nextByte_cases with ⟨h, h'⟩ | ⟨b, hb, hio, h'⟩ | ⟨b, hb, hio, h'⟩
    · have : d.port.rp = d.port.src.length := by omega
      rw [h', ← this]; simp
    · obtain ⟨hlt, hget⟩ := (List.getElem?_eq_some_iff.1 hb)
      have e : d.port.src.length - d.port.rp = (d.port.src.length - (d.port.rp + 1)) + 1 := by omega
      rw [e] at hc ⊢
      rw [h', Ended.bind_ok]
      simp only
      rw [ih _ (by simp only; omega) (by simp only; omega) hc.tick]
      simp
    · have hlt := (List.getElem?_eq_some_iff.1 hb).1
      have e : d.port.src.length - d.port.rp = (d.port.src.length - (d.port.rp + 1)) + 1 := by omega
      rw [e] at hc
      rw [hc.head] at hio; cases hio

/-- A header whose access number `n` is the first to fail raises IO after `n` bytes (R231, 60_exceptions.md R265). -/
theorem readHeader_fault : ∀ (N n : Nat) (d : Dec), n < N → d.port.rp + n < d.port.src.length → Calm .dec n d.port.io →
    d.port.io.answerAt .dec .read (d.port.rp + n) n = true →
    readHeader N d =
      .raised { d with port := { d.port with rp := d.port.rp + n, io := ioAfter (n + 1) d.port.io } } .io := by
  intro N
  induction N with
  | zero => intro n d h; omega
  | succ N ih =>
    intro n d h1 h2 hc hf
    simp only [readHeader]
    rcases d.nextByte_cases with ⟨h, h'⟩ | ⟨b, hb, hio, h'⟩ | ⟨b, hb, hio, h'⟩
    · omega
    · obtain ⟨hlt, hget⟩ := (List.getElem?_eq_some_iff.1 hb)
      cases n with
      | zero => rw [Nat.add_zero] at hf; rw [hf] at hio; cases hio
      | succ n =>
        rw [h', Ended.bind_ok]
        simp only
        rw [ih n _ (by omega) (by simp only; omega) hc.tick (by
          simp only [IoInput.tick_answerAt]
          rw [show d.port.rp + 1 + n = d.port.rp + (n + 1) by omega]
          exact hf)]
        simp only [Ended.bind_raised, ioAfter_tick]
        congr 3
        omega
    · cases n with
      | zero => rw [h']; simp [tick_eq_ioAfter]
      | succ n => rw [hc.head] at hio; cases hio

end Header

section Walk

/-- How many bits are left to read; every pass of R236 makes it smaller. -/
def walkLeft (d : Dec) : Nat := 8 * (d.port.src.length - d.port.rp) + (8 - d.cnt.val)

theorem arrive_left (d d' : Dec) (a : Bool) (h : arrive d = .ok d' a) : walkLeft d' = walkLeft d := by
  unfold arrive at h
  split at h
  · cases h; rfl
  · split at h
    · cases h; rfl
    · unfold Dec.write at h
      cases hw : d.port.io.answerAt .dec .write d.port.dst.length 0 with
      | true => rw [memWrite_fault _ _ _ hw] at h; cases h
      | false => rw [memWrite_ok _ _ _ hw] at h; cases h; rfl
  · cases h
  · cases h

theorem stepBody_measure (d d' : Dec) (a : Bool) (h : stepBody d = .ok d' a) : walkLeft d' < walkLeft d := by
  unfold stepBody at h
  rcases readBit_cases d with ⟨hc, hr⟩ | ⟨hc, hb, hr⟩ | ⟨hc, v, hb, _, hr⟩ | ⟨hc, v, hb, hio, hr⟩ <;> rw [hr] at h
  · rw [arrive_left _ _ _ h]; simp only [walkLeft]; omega
  · cases h
  · rw [arrive_left _ _ _ h]
    have := (List.getElem?_eq_some_iff.1 hb).1
    simp only [walkLeft, hc]
    have : ((1 : Fin 9).val) = 1 := rfl
    omega
  · cases h

/-- DSYMBOL is R236's body and then, unless it reached a leaf, DSYMBOL again (R237). -/
theorem symbolBody_unfold (d : Dec) :
    symbolBody d = (stepBody d).bind fun d' a => if a then .ok d' a else symbolBody d' :=
  repeatUntil_unfold walkLeft (fun s s' a h _ => stepBody_measure s s' a h) d

/-- DRUN is R236's body and then, unless the phase is DONE, DRUN again (R238). -/
theorem runBody_unfold (d : Dec) :
    runBody d = (stepBody d).bind fun d' a => if d'.phase = .done then .ok d' a else runBody d' := by
  have := repeatUntil_unfold (body := stepBody) (stop := fun d _ => decide (d.phase = .done)) walkLeft
    (fun s s' a h _ => stepBody_measure s s' a h) d
  simp only [decide_eq_true_eq] at this
  exact this

/-- R236's body says it reached a leaf exactly when it changed the phase to DONE or appended a byte. -/
theorem stepBody_flag (d d' : Dec) (a : Bool) (hp : d.phase ≠ .done) (h : stepBody d = .ok d' a) :
    a = true ↔ (d'.phase = .done ∨ d'.port.dst ≠ d.port.dst) := by
  unfold stepBody at h
  have hfr := readBit_frame d
  cases hr : readBit d with
  | raised _ _ => rw [hr] at h; cases h
  | stuck _ => rw [hr] at h; cases h
  | ok d1 r =>
    rw [hr] at h hfr
    simp only [Ended.Keeps, ReadFrame] at hfr
    cases r with
    | none => cases h
    | some b =>
      simp only [Ended.bind_ok] at h
      unfold arrive at h
      split at h
      · cases h; rw [hfr]; simp [hp]
      · split at h
        · cases h; simp
        · unfold Dec.write at h
          simp only at h
          cases hw : d1.port.io.answerAt .dec .write d1.port.dst.length 0 with
          | true => rw [memWrite_fault _ _ _ hw] at h; cases h
          | false => rw [memWrite_ok _ _ _ hw] at h; cases h; rw [hfr]; simp
      · cases h
      · cases h

/-- One pass of R236 reads a bit, moves the walker, and does what its new node asks. -/
theorem step_edge (d : Dec) {b rest n} (h : unread d = b :: rest) (hc : Calm .dec (n+1) d.port.io) :
    ∃ buf cnt rp io,
      (∀ x, x = { d with
          cur := childOf d.arena d.cur b, buf := buf, cnt := cnt, port := { d.port with rp := rp, io := io } } →
        stepBody d = arrive x ∧ unread x = rest ∧ bitPos x = bitPos d + 1) ∧
      Calm .dec n io := by
  obtain ⟨buf, cnt, rp, io, hr, hu, hpos, hcm⟩ := readBit_ok d h hc
  refine ⟨buf, cnt, rp, io, ?_, hcm⟩
  rintro x rfl
  refine ⟨?_, hu, hpos⟩
  rw [stepBody, hr]; rfl

/-- A loop of R236 passes along a path inside the tree, up to its last edge. -/
theorem walk_path (loop : Dec → Ended Dec Bool)
    (hl : ∀ d d', stepBody d = .ok d' false → d'.phase ≠ .done → loop d = loop d') :
    ∀ (p : Bits) (b : Bool) (d : Dec) (m k : NodeId) (rest : Bits) (n : Nat), d.phase ≠ .done →
      LeadsTo d.arena d.cur p k → (d.arena.slot k).kind = .internal → childOf d.arena k b = m →
      unread d = p ++ b :: rest → Calm .dec (n + p.length) d.port.io →
      ∃ d', loop d = loop d' ∧ d'.cur = k ∧ unread d' = b :: rest ∧ bitPos d' = bitPos d + p.length ∧
        Calm .dec n d'.port.io ∧
        d' = { d with
          cur := d'.cur, buf := d'.buf, cnt := d'.cnt,
          port := { d.port with rp := d'.port.rp, io := d'.port.io } } := by
  intro p
  induction p with
  | nil =>
    intro b d m k rest n _ h _ _ hu hc
    exact ⟨d, rfl, h, hu, rfl, hc, rfl⟩
  | cons c cs ih =>
    intro b d m k rest n hp h hk hm hu hc
    obtain ⟨buf, cnt, rp, io, hx, hcm⟩ :=
      step_edge d (n := n + cs.length) hu (by simpa [Nat.add_assoc] using hc)
    obtain ⟨h1, h2, h3⟩ := hx _ rfl
    have hint : (d.arena.slot (childOf d.arena d.cur c)).kind = .internal := by
      cases cs with
      | nil => have : childOf d.arena d.cur c = k := h.2
               rw [this]; exact hk
      | cons _ _ => exact h.2.1
    rw [arrive] at h1
    simp only [hint] at h1
    obtain ⟨d', i1, i2, i3, i4, i5, i6⟩ := ih b { d with
      cur := childOf d.arena d.cur c, buf := buf, cnt := cnt,
      port := { d.port with rp := rp, io := io } } m k rest n (by exact hp) h.2 hk hm h2 hcm
    refine ⟨d', (hl _ _ h1 hp).trans i1, i2, i3, ?_, i5, ?_⟩
    · rw [i4, h3, List.length_cons]; omega
    · rw [i6]

theorem symbolBody_continue (d d' : Dec) (h : stepBody d = .ok d' false) (_ : d'.phase ≠ .done) :
    symbolBody d = symbolBody d' := by
  rw [symbolBody_unfold, h]; rfl

theorem runBody_continue (d d' : Dec) (a : Bool) (h : stepBody d = .ok d' a) (hp : d'.phase ≠ .done) :
    runBody d = runBody d' := by
  rw [runBody_unfold, h]; simp [hp]

/-- The last edge of a path. -/
theorem leadsTo_last {a : Arena} {n m : NodeId} {p : Bits} (hne : p ≠ []) (h : LeadsTo a n p m) :
    ∃ q b k, p = q ++ [b] ∧ LeadsTo a n q k ∧ (a.slot k).kind = .internal ∧ childOf a k b = m := by
  rcases List.eq_nil_or_concat p with rfl | ⟨q, b, rfl⟩
  · exact absurd rfl hne
  · rw [List.concat_eq_append] at h ⊢
    obtain ⟨k, h1, h2, h3⟩ := leadsTo_snoc.1 h
    exact ⟨q, b, k, rfl, h1, h2, h3⟩

end Walk

end Sys2Proof.Machine
end

