-- ==== Sys2Proof/Laws/Encoder.lean ====
section
/-! SUPPORT. What each stretch of the encoder's pseudocode can do (40_frequency.md, 43_bitwriter.md, 45_encoder.md): its
cases, what it leaves unchanged, and the equations of the two bulk commands. -/

namespace Sys2Proof.Machine

open Sys2Proof.Safety

section Cases

/-- Everything asking the source for a byte can do (10_state.md R28). -/
theorem Enc.nextByte_cases (e : Enc) :
    (e.port.src.length ≤ e.port.rp ∧ e.nextByte = .ok { e with eoi := true } none) ∨
    (∃ b, e.port.src[e.port.rp]? = some b ∧ e.port.io.answerAt .enc .read e.port.rp 0 = false ∧
      e.nextByte = .ok { e with port := { e.port with rp := e.port.rp + 1, io := e.port.io.tick } } (some b)) ∨
    (∃ b, e.port.src[e.port.rp]? = some b ∧ e.port.io.answerAt .enc .read e.port.rp 0 = true ∧
      e.nextByte = .raised { e with port := { e.port with io := e.port.io.tick } } .io) := by
  rcases takeByte_cases .enc e.port with ⟨h, ht⟩ | ⟨b, hb, hio, ht⟩ | ⟨b, hb, hio, ht⟩
  · exact .inl ⟨h, by simp [Enc.nextByte, ht]⟩
  · exact .inr (.inl ⟨b, hb, hio, by simp [Enc.nextByte, ht]⟩)
  · exact .inr (.inr ⟨b, hb, hio, by simp [Enc.nextByte, ht]⟩)

/-- Everything ECOUNT's pseudocode can do (40_frequency.md R101). -/
theorem countBody_cases (e : Enc) :
    (e.port.src.length ≤ e.port.rp ∧ countBody e = .ok { e with eoi := true } ()) ∨
    (∃ b, e.port.src[e.port.rp]? = some b ∧ e.port.io.answerAt .enc .read e.port.rp 0 = true ∧
      countBody e = .raised { e with port := { e.port with io := e.port.io.tick } } .io) ∨
    (∃ b, e.port.src[e.port.rp]? = some b ∧ e.port.io.answerAt .enc .read e.port.rp 0 = false ∧
      e.freq.get (byteSymbol b) = Config.cntMax ∧
      countBody e =
        .raised { e with port := { e.port with rp := e.port.rp + 1, io := e.port.io.tick } } .overflow) ∨
    (∃ b, e.port.src[e.port.rp]? = some b ∧ e.port.io.answerAt .enc .read e.port.rp 0 = false ∧
      e.freq.get (byteSymbol b) ≠ Config.cntMax ∧
      countBody e = .ok { e with
        freq := e.freq.set (byteSymbol b) (e.freq.get (byteSymbol b) + 1),
        port := { e.port with rp := e.port.rp + 1, io := e.port.io.tick } } ()) := by
  rcases e.nextByte_cases with ⟨h, ht⟩ | ⟨b, hb, hio, ht⟩ | ⟨b, hb, hio, ht⟩
  · exact .inl ⟨h, by simp [countBody, ht]⟩
  · by_cases hf : e.freq.get (byteSymbol b) = Config.cntMax
    · exact .inr (.inr (.inl ⟨b, hb, hio, hf, by simp [countBody, ht, hf]⟩))
    · exact .inr (.inr (.inr ⟨b, hb, hio, hf, by simp [countBody, ht, hf]⟩))
  · exact .inr (.inl ⟨b, hb, hio, by simp [countBody, ht]⟩)

/-- Everything ESYM's pseudocode can do (45_encoder.md R205). -/
theorem symBody_cases (e : Enc) :
    (e.port.src.length ≤ e.port.rp ∧ symBody e = .ok { e with eoi := true } ()) ∨
    (∃ b, e.port.src[e.port.rp]? = some b ∧ e.port.io.answerAt .enc .read e.port.rp 0 = true ∧
      symBody e = .raised { e with port := { e.port with io := e.port.io.tick } } .io) ∨
    (∃ b, e.port.src[e.port.rp]? = some b ∧ e.port.io.answerAt .enc .read e.port.rp 0 = false ∧
      e.code.get (byteSymbol b) = none ∧
      symBody e =
        .raised { e with port := { e.port with rp := e.port.rp + 1, io := e.port.io.tick } } .nocode) ∨
    (∃ b p, e.port.src[e.port.rp]? = some b ∧ e.port.io.answerAt .enc .read e.port.rp 0 = false ∧
      e.code.get (byteSymbol b) = some p ∧
      symBody e = emitBits p { e with port := { e.port with rp := e.port.rp + 1, io := e.port.io.tick } }) := by
  rcases e.nextByte_cases with ⟨h, ht⟩ | ⟨b, hb, hio, ht⟩ | ⟨b, hb, hio, ht⟩
  · exact .inl ⟨h, by simp [symBody, ht]⟩
  · cases hf : e.code.get (byteSymbol b) with
    | none => exact .inr (.inr (.inl ⟨b, hb, hio, hf, by simp [symBody, ht, hf]⟩))
    | some p => exact .inr (.inr (.inr ⟨b, p, hb, hio, hf, by simp [symBody, ht, hf]⟩))
  · exact .inr (.inl ⟨b, hb, hio, by simp [symBody, ht]⟩)

/-- Everything Flush can do (43_bitwriter.md R161). -/
theorem flush_cases (e : Enc) :
    (e.nbits = 0 ∧ flush e = .ok e ()) ∨
    (e.nbits ≠ 0 ∧ e.port.io.answerAt .enc .write e.port.dst.length 0 = false ∧
      flush e = .ok { e with
        acc := 0, nbits := 0,
        port := { e.port with dst := e.port.dst ++ [toTop e.acc e.nbits.toNat], io := e.port.io.tick } } ()) ∨
    (e.nbits ≠ 0 ∧ e.port.io.answerAt .enc .write e.port.dst.length 0 = true ∧
      flush e = .raised { e with acc := 0, nbits := 0, port := { e.port with io := e.port.io.tick } } .io) := by
  by_cases h : e.nbits = 0
  · exact .inl ⟨h, if_pos h⟩
  · cases hio : e.port.io.answerAt .enc .write e.port.dst.length 0 with
    | false => exact .inr (.inl ⟨h, rfl, by unfold flush; rw [if_neg h]; simp [Enc.write, writeBytes, memWrite_ok _ _ _ hio]⟩)
    | true => exact .inr (.inr ⟨h, rfl, by unfold flush; rw [if_neg h]; simp [Enc.write, writeBytes, memWrite_fault _ _ _ hio]⟩)

/-- Everything ECLOSE's pseudocode can do: it always runs through (43_bitwriter.md R163). -/
theorem closeBody_cases (e : Enc) :
    (e.nbits = 0 ∧ closeBody e = .ok { e with phase := .closed } ()) ∨
    (e.nbits ≠ 0 ∧ e.port.io.answerAt .enc .write e.port.dst.length 0 = false ∧
      closeBody e = .ok { e with
        phase := .closed, acc := 0, nbits := 0,
        port := { e.port with dst := e.port.dst ++ [toTop e.acc e.nbits.toNat], io := e.port.io.tick } } ()) ∨
    (e.nbits ≠ 0 ∧ e.port.io.answerAt .enc .write e.port.dst.length 0 = true ∧
      closeBody e = .ok { e with
        phase := .closed, err := if e.err = .none then .io else e.err, acc := 0, nbits := 0,
        port := { e.port with io := e.port.io.tick } } ()) := by
  rcases flush_cases e with ⟨h, hf⟩ | ⟨h, hio, hf⟩ | ⟨h, hio, hf⟩
  · exact .inl ⟨h, by simp [closeBody, hf]⟩
  · exact .inr (.inl ⟨h, hio, by simp [closeBody, hf]⟩)
  · refine .inr (.inr ⟨h, hio, ?_⟩)
    simp only [closeBody, hf, Enc.latch]
    split <;> simp_all

/-- ECLOSE always answers a next state: SEQUENCE when CLOSED already, else its pseudocode (60_exceptions.md R263). -/
theorem execEclose_cases (s : State) :
    (s.enc.phase = .closed ∧ execEclose s = .next (s.setEnc (s.enc.latch .sequence))) ∨
    (s.enc.phase ≠ .closed ∧ ∃ e, closeBody s.enc = .ok e () ∧ execEclose s = .next (s.setEnc e)) := by
  by_cases h : s.enc.phase = .closed
  · exact .inl ⟨h, by simp [execEclose, encCloseGate, phaseLegal, h]⟩
  · refine .inr ⟨h, ?_⟩
    rcases closeBody_cases s.enc with ⟨_, hk⟩ | ⟨_, _, hk⟩ | ⟨_, _, hk⟩ <;>
    exact ⟨_, hk, by simp [execEclose, encCloseGate, phaseLegal, h, hk, encFinish]⟩

end Cases

section Frames

/-- What counting source bytes may change: the counts of byte values, EOI, the source offset, the answers used. -/
def CountFrame (e e' : Enc) : Prop :=
  e' = { e with
    eoi := e'.eoi, freq := e'.freq,
    port := { e.port with rp := e'.port.rp, io := e'.port.io } } ∧
  e'.freq.get sentinel = e.freq.get sentinel

theorem CountFrame.refl (e : Enc) : CountFrame e e := ⟨rfl, rfl⟩

theorem CountFrame.trans {a b c : Enc} (h : CountFrame a b) (h' : CountFrame b c) : CountFrame a c := by
  refine ⟨?_, h'.2.trans h.2⟩
  rw [h'.1, h.1]

/-- No byte value is the sentinel (00_scope.md R12). -/
theorem sentinel_ne_byteSymbol (b : Byte) : byteSymbol b ≠ sentinel := by
  intro h
  have := congrArg Fin.val h
  have hb := b.isLt
  simp [byteSymbol, sentinel] at this
  omega

theorem countBody_frame (e : Enc) : (countBody e).Keeps (CountFrame e) := by
  rcases countBody_cases e with ⟨_, h⟩ | ⟨b, _, _, h⟩ | ⟨b, _, _, _, h⟩ | ⟨b, _, _, _, h⟩ <;> rw [h]
  · exact ⟨rfl, rfl⟩
  · exact ⟨rfl, rfl⟩
  · exact ⟨rfl, rfl⟩
  · exact ⟨rfl, Table.get_set_ne _ (sentinel_ne_byteSymbol b) _⟩

theorem countAllBody_frame (e : Enc) : (countAllBody e).Keeps (CountFrame e) :=
  repeatUntil_keeps (P := CountFrame e) (fun s hs => (countBody_frame s).mono fun _ h => hs.trans h) _ _ (.refl e)

/-- What packing bits may change: the bit-writer's registers and the destination, which is only appended to. -/
def PackFrame (e e' : Enc) : Prop :=
  e' = { e with
    acc := e'.acc, nbits := e'.nbits,
    port := { e.port with dst := e'.port.dst, io := e'.port.io } } ∧
  ∃ l, e'.port.dst = e.port.dst ++ l

theorem PackFrame.refl (e : Enc) : PackFrame e e := ⟨rfl, [], by simp⟩

theorem PackFrame.trans {a b c : Enc} (h : PackFrame a b) (h' : PackFrame b c) : PackFrame a c := by
  obtain ⟨h1, l, hl⟩ := h
  obtain ⟨h1', l', hl'⟩ := h'
  refine ⟨?_, l ++ l', by rw [hl', hl, List.append_assoc]⟩
  rw [h1', h1]

theorem writeBit_frame (b : Bool) (e : Enc) : (writeBit b e).Keeps (PackFrame e) := by
  rcases writeBit_cases b e with ⟨_, h⟩ | ⟨_, _, h⟩ | ⟨_, _, h⟩ <;> rw [h]
  · exact ⟨rfl, [], by simp⟩
  · exact ⟨rfl, _, rfl⟩
  · exact ⟨rfl, [], by simp⟩

theorem emitBits_frame (p : Bits) (e : Enc) : (emitBits p e).Keeps (PackFrame e) := by
  induction p generalizing e with
  | nil => exact .refl e
  | cons b bs ih =>
    exact (writeBit_frame b e).bind (fun _ h => h) fun s _ h => (ih s).mono fun _ h' => h.trans h'

theorem writeBytes_frame (u : UnitId) (vs : List Byte) (p : Port) :
    (writeBytes u vs p).Keeps fun p' => p' = { p with dst := p'.dst, io := p'.io } ∧ ∃ l, p'.dst = p.dst ++ l := by
  induction vs generalizing p with
  | nil => exact ⟨rfl, [], by simp⟩
  | cons v vs ih =>
    simp only [writeBytes]
    cases h : p.io.answerAt u .write p.dst.length 0 with
    | true => rw [memWrite_fault _ _ _ h]; exact ⟨rfl, [], by simp⟩
    | false =>
      rw [memWrite_ok _ _ _ h]
      refine (ih _).mono fun p' h' => ⟨?_, ?_⟩
      · exact h'.1
      · obtain ⟨l, hl⟩ := h'.2
        exact ⟨v :: l, by rw [hl]; simp⟩

theorem Enc.write_frame (vs : List Byte) (e : Enc) : (e.write vs).Keeps (PackFrame e) := by
  refine (writeBytes_frame .enc vs e.port).into fun p h => ⟨?_, h.2⟩
  simp only
  rw [← h.1]

theorem flush_frame (e : Enc) : (flush e).Keeps (PackFrame e) := by
  unfold flush
  split
  · exact .refl e
  · exact (Enc.write_frame _ _).mono fun _ h => ⟨h.1, h.2⟩

/-- What EHDR's pseudocode may change. -/
theorem headerBody_frame (e : Enc) : (headerBody e).Keeps fun e' =>
    e' = { e with phase := e'.phase, port := { e.port with dst := e'.port.dst, io := e'.port.io } } := by
  unfold headerBody Enc.write
  have := writeBytes_frame .enc (headerBytes e.freq) e.port
  revert this
  cases writeBytes .enc (headerBytes e.freq) e.port <;> intro h
  · simp only [Ended.Keeps, Ended.into_ok, Ended.bind_ok] at h ⊢
    rw [h.1]
  · simp only [Ended.Keeps, Ended.into_raised, Ended.bind_raised] at h ⊢
    rw [h.1]
  · trivial

/-- What packing the codes of source bytes may change. -/
def SymFrame (e e' : Enc) : Prop :=
  e' = { e with
    eoi := e'.eoi, acc := e'.acc, nbits := e'.nbits,
    port := { e.port with rp := e'.port.rp, dst := e'.port.dst, io := e'.port.io } } ∧
  ∃ l, e'.port.dst = e.port.dst ++ l

theorem SymFrame.refl (e : Enc) : SymFrame e e := ⟨rfl, [], by simp⟩

theorem SymFrame.trans {a b c : Enc} (h : SymFrame a b) (h' : SymFrame b c) : SymFrame a c := by
  obtain ⟨h1, l, hl⟩ := h
  obtain ⟨h1', l', hl'⟩ := h'
  refine ⟨?_, l ++ l', by rw [hl', hl, List.append_assoc]⟩
  rw [h1', h1]

theorem symBody_frame (e : Enc) : (symBody e).Keeps (SymFrame e) := by
  rcases symBody_cases e with ⟨_, h⟩ | ⟨b, _, _, h⟩ | ⟨b, _, _, _, h⟩ | ⟨b, p, _, _, _, h⟩ <;> rw [h]
  · exact ⟨rfl, [], by simp⟩
  · exact ⟨rfl, [], by simp⟩
  · exact ⟨rfl, [], by simp⟩
  · refine (emitBits_frame p _).mono fun e' h' => ⟨?_, h'.2⟩
    rw [h'.1]

theorem symAllBody_frame (e : Enc) : (symAllBody e).Keeps (SymFrame e) :=
  repeatUntil_keeps (P := SymFrame e) (fun s hs => (symBody_frame s).mono fun _ h => hs.trans h) _ _ (.refl e)

end Frames

section Bulk

/-- A repetition of ECOUNTALL that goes on has moved past a source byte. -/
theorem countBody_measure (s s' : Enc) (a : Unit) (h : countBody s = .ok s' a) (hs : s'.eoi = false) :
    s'.port.src.length - s'.port.rp < s.port.src.length - s.port.rp := by
  rcases countBody_cases s with ⟨h1, hc⟩ | ⟨b, hb, hio, hc⟩ | ⟨b, hb, hio, hf, hc⟩ | ⟨b, hb, hio, hf, hc⟩ <;>
    rw [hc] at h <;> cases h
  · simp at hs
  · have := (List.getElem?_eq_some_iff.1 hb).1
    simp only; omega

/-- A repetition of ESYMALL that goes on has moved past a source byte. -/
theorem symBody_measure (s s' : Enc) (a : Unit) (h : symBody s = .ok s' a) (hs : s'.eoi = false) :
    s'.port.src.length - s'.port.rp < s.port.src.length - s.port.rp := by
  rcases symBody_cases s with ⟨h1, hc⟩ | ⟨b, hb, hio, hc⟩ | ⟨b, hb, hio, hf, hc⟩ | ⟨b, p, hb, hio, hf, hc⟩ <;>
    rw [hc] at h
  · cases h; simp at hs
  · cases h
  · cases h
  · have := (List.getElem?_eq_some_iff.1 hb).1
    have hfr := emitBits_frame p { s with port := { s.port with rp := s.port.rp + 1, io := s.port.io.tick } }
    rw [h] at hfr
    rw [hfr.1]
    simp only; omega

/-- ECOUNTALL is R101's body and then, unless EOI is 1, ECOUNTALL again (40_frequency.md R102). -/
theorem countAllBody_unfold (d : Enc) :
    countAllBody d = (countBody d).bind fun d' a => if d'.eoi then .ok d' a else countAllBody d' :=
  repeatUntil_unfold (fun e : Enc => e.port.src.length - e.port.rp) (fun s s' a h => countBody_measure s s' a h) d

/-- ESYMALL is R205's body and then, unless EOI is 1, ESYMALL again (45_encoder.md R206). -/
theorem symAllBody_unfold (d : Enc) :
    symAllBody d = (symBody d).bind fun d' a => if d'.eoi then .ok d' a else symAllBody d' :=
  repeatUntil_unfold (fun e : Enc => e.port.src.length - e.port.rp) (fun s s' a h => symBody_measure s s' a h) d

end Bulk

section Header

/-- Writing bytes with no failing access appends them all (20_memory.md R64). -/
theorem writeBytes_ok (u : UnitId) : ∀ (vs : List Byte) (p : Port), Calm u vs.length p.io →
    writeBytes u vs p = .ok { p with dst := p.dst ++ vs, io := ioAfter vs.length p.io } () := by
  intro vs
  induction vs with
  | nil => intro p _; simp [writeBytes]
  | cons v vs ih =>
    intro p h
    simp only [writeBytes]
    rw [memWrite_ok _ _ _ (h.head _ _), Ended.bind_ok, ih _ h.tick]
    simp

/-- Writing bytes whose access number `n` is the first to fail appends the `n` before it and raises IO (R64,
60_exceptions.md R265). -/
theorem writeBytes_fault (u : UnitId) : ∀ (vs : List Byte) (p : Port) (n : Nat), n < vs.length → Calm u n p.io →
    p.io.answerAt u .write (p.dst.length + n) n = true →
    writeBytes u vs p = .raised { p with dst := p.dst ++ vs.take n, io := ioAfter (n + 1) p.io } .io := by
  intro vs
  induction vs with
  | nil => intro p n h; simp at h
  | cons v vs ih =>
    intro p n hn h hf
    simp only [writeBytes]
    cases n with
    | zero =>
      rw [memWrite_fault _ _ _ hf]
      simp [tick_eq_ioAfter]
    | succ n =>
      rw [memWrite_ok _ _ _ (h.head _ _), Ended.bind_ok, ih _ n (by simpa using hn) h.tick]
      · simp
      · simp only [IoInput.tick_answerAt, List.length_append, List.length_cons, List.length_nil]
        rw [show p.dst.length + (0 + 1) + n = p.dst.length + (n + 1) by omega]
        exact hf

/-- Packing a bit string whose completed byte number `n` is the first whose write fails: that byte and the rest of the bits
are lost, the bytes before it stay (R160, D30, 45_encoder.md R204). -/
theorem emitBits_fault (p : Bits) : ∀ (e : Enc) (n : Nat), n < (e.nbits.toNat + p.length) / 8 → Calm .enc n e.port.io →
    e.port.io.answerAt .enc .write (e.port.dst.length + n) n = true →
    emitBits p e = .raised { e with
      acc := 0
      nbits := 0
      port := { e.port with
        dst := e.port.dst ++ (wholeBytes (heldBits e.acc e.nbits.toNat ++ p)).take n
        io := ioAfter (n + 1) e.port.io } } .io := by
  induction p with
  | nil =>
    intro e n hn
    have := e.nbits.isLt
    rw [List.length_nil] at hn
    omega
  | cons b bs ih =>
    intro e n hn hcalm hf
    have hlt : e.nbits.toNat < 8 := e.nbits.isLt
    simp only [emitBits]
    by_cases h7 : e.nbits.toNat = 7
    · have hlong : 8 ≤ (heldBits e.acc e.nbits.toNat ++ b :: bs).length := by
        rw [List.length_append, heldBits_length, List.length_cons, h7]; omega
      cases n with
      | zero =>
        rw [writeBit_lost b e h7 hf]
        simp [tick_eq_ioAfter]
      | succ n =>
        rw [writeBit_full b e h7 (hcalm.head _ _), Ended.bind_ok]
        have htake : (heldBits e.acc e.nbits.toNat ++ b :: bs).take 8 = heldBits e.acc 7 ++ [b] := by
          rw [h7, List.take_append, heldBits_length, List.take_of_length_le (by simp)]
          simp
        have hdrop : (heldBits e.acc e.nbits.toNat ++ b :: bs).drop 8 = bs := by
          rw [h7, List.drop_append, heldBits_length, List.drop_of_length_le (by simp)]
          simp
        rw [ih _ n (by rw [List.length_cons, h7] at hn; simp; omega) (by simpa using hcalm.tick) (by
          simp only [IoInput.tick_answerAt, List.length_append, List.length_cons, List.length_nil]
          rw [show e.port.dst.length + (0 + 1) + n = e.port.dst.length + (n + 1) by omega]
          exact hf)]
        rw [wholeBytes_long hlong, hdrop, htake, byteOfBits_shiftIn]
        simp
    · have hk : e.nbits.toNat < 7 := by omega
      have hnb : (e.nbits + 1).toNat = e.nbits.toNat + 1 := by
        have h1 : (1 : BitVec 3).toNat = 1 := rfl
        rw [BitVec.toNat_add, h1]; omega
      rw [writeBit_hold b e hk, Ended.bind_ok]
      rw [ih { e with acc := shiftIn e.acc b, nbits := e.nbits + 1 } n
        (by simp only [hnb]; rw [List.length_cons] at hn; omega) hcalm hf]
      have hheld := heldBits_shiftIn (k := e.nbits.toNat) (by omega) b e.acc
      simp only [hnb, hheld, List.append_assoc]
      rfl

/-- Byte `k` of the counter number `i` of a header (20_memory.md R69). -/
theorem flatMap_countBytes {l : List Count} : ∀ (i k : Nat) (hi : i < l.length), k < 4 →
    (l.flatMap countBytes).getD (4 * i + k) 0 = countByte l[i] k := by
  induction l with
  | nil => intro i k hi; simp at hi
  | cons c cs ih =>
    intro i k hi hk
    rw [List.flatMap_cons]
    cases i with
    | zero =>
      have : k = 0 ∨ k = 1 ∨ k = 2 ∨ k = 3 := by omega
      rcases this with rfl | rfl | rfl | rfl <;> rfl
    | succ i =>
      have := ih i k (by simpa using hi) hk
      rw [show 4 * (i + 1) + k = (4 * i + k) + 1 + 1 + 1 + 1 by omega]
      exact this

/-- The header is 1028 bytes long (R69). -/
theorem headerBytes_length (f : Table Count 257) : (headerBytes f).length = 1028 := by
  unfold headerBytes
  rw [List.length_flatMap, show (fun c => (countBytes c).length) = fun _ => 4 from rfl]
  rw [List.map_const', List.sum_replicate, f.size]; rfl

end Header

end Sys2Proof.Machine
end

