-- ==== Sys2Proof/Laws/PerInstr.lean ====
section
/-! SUPPORT. What holds of every command as syntax, one lemma per constructor: its word is legal, addressed to its unit, and
its fields are those of the opcode table (30_encoding.md R80 to R85). -/

namespace Sys2Proof.Laws.EncodeLegal

/-- The command is well formed; its word is one R85 calls legal; bit 7 names its unit, bits 6 to 3 are its opcode, bits 2 and
1 are 0 and bit 0 is its operand. -/
def Statement (i : Instr) : Prop :=
  i.wellFormed = true ∧ wordLegal (encode i) = true ∧ wordUnit (encode i) = i.unit ∧ wordOp (encode i) = i.opcode ∧
    wordRes (encode i) = 0 ∧ wordB (encode i) = i.bitField

theorem einit : Statement .einit := by unfold Statement; decide
theorem ecount : Statement .ecount := by unfold Statement; decide
theorem ecountall : Statement .ecountall := by unfold Statement; decide
theorem efinal : Statement .efinal := by unfold Statement; decide
theorem ebuild : Statement .ebuild := by unfold Statement; decide
theorem ederive : Statement .ederive := by unfold Statement; decide
theorem ehdr : Statement .ehdr := by unfold Statement; decide
theorem erewind : Statement .erewind := by unfold Statement; decide
theorem esym : Statement .esym := by unfold Statement; decide
theorem esymall : Statement .esymall := by unfold Statement; decide
theorem eeos : Statement .eeos := by unfold Statement; decide
theorem ewbit (b : Bool) : Statement (.ewbit b) := by unfold Statement; revert b; decide
theorem eclose : Statement .eclose := by unfold Statement; decide
theorem dinit : Statement .dinit := by unfold Statement; decide
theorem dhdr : Statement .dhdr := by unfold Statement; decide
theorem dbuild : Statement .dbuild := by unfold Statement; decide
theorem drbit : Statement .drbit := by unfold Statement; decide
theorem dstep : Statement .dstep := by unfold Statement; decide
theorem dsymbol : Statement .dsymbol := by unfold Statement; decide
theorem drun : Statement .drun := by unfold Statement; decide
theorem dclose : Statement .dclose := by unfold Statement; decide

end Sys2Proof.Laws.EncodeLegal
end

