-- ==== Sys2Proof/Tests/Slice0.lean ====
section
/-! SUPPORT. Tests. Expected results come from the spec: the opcode tables and the vectors of 95_test_vectors.md, named V<n>
or P<n> in each comment. Then the witnesses: for every obligation with hypotheses, a state that meets them. -/

namespace Sys2Proof.Tests

open Sys2Proof.Machine Sys2Proof.Safety

-- One evaluation at a time: together, the threads of all these evaluations ask for more memory than the check allows.
set_option Elab.async false

/-! ### Words -/

/-- R85's three grounds, one word for each: a reserved opcode of ENC and of DEC, `RES` not 0, a stray `B`. -/
theorem test_illformed_words :
    (wordLegal 0x68 = false ∧ opReserved 0x68 = true) ∧ (wordLegal 0xC0 = false ∧ opReserved 0xC0 = true) ∧
    (wordLegal 0x5A = false ∧ resNonzero 0x5A = true) ∧ (wordLegal 0x01 = false ∧ strayBit 0x01 = true) ∧
    (wordLegal 0x99 = false ∧ strayBit 0x99 = true) := by decide

/-- R83, R84: every command's word, written out as `U`, `OP`, `RES`, `B`. -/
theorem test_decode_enc :
    decode 0b0_0000_00_0 = .command .einit ∧ decode 0b0_0001_00_0 = .command .ecount ∧
    decode 0b0_0010_00_0 = .command .ecountall ∧ decode 0b0_0011_00_0 = .command .efinal ∧
    decode 0b0_0100_00_0 = .command .ebuild ∧ decode 0b0_0101_00_0 = .command .ederive ∧
    decode 0b0_0110_00_0 = .command .ehdr ∧ decode 0b0_0111_00_0 = .command .erewind ∧
    decode 0b0_1000_00_0 = .command .esym ∧ decode 0b0_1001_00_0 = .command .esymall ∧
    decode 0b0_1010_00_0 = .command .eeos ∧ decode 0b0_1011_00_0 = .command (.ewbit false) ∧
    decode 0b0_1011_00_1 = .command (.ewbit true) ∧ decode 0b0_1100_00_0 = .command .eclose := by decide

theorem test_decode_dec :
    decode 0b1_0000_00_0 = .command .dinit ∧ decode 0b1_0001_00_0 = .command .dhdr ∧
    decode 0b1_0010_00_0 = .command .dbuild ∧ decode 0b1_0011_00_0 = .command .drbit ∧
    decode 0b1_0100_00_0 = .command .dstep ∧ decode 0b1_0101_00_0 = .command .dsymbol ∧
    decode 0b1_0110_00_0 = .command .drun ∧ decode 0b1_0111_00_0 = .command .dclose := by decide

/-- V1b, V1d, V1f, V1h, V1j. -/
theorem test_decode_illegal :
    decode 0x01 = .illegal .enc ∧ decode 0x5A = .illegal .enc ∧ decode 0x5B = .illegal .enc ∧
    decode 0x68 = .illegal .enc ∧ decode 0x70 = .illegal .enc ∧ decode 0x78 = .illegal .enc ∧
    decode 0x81 = .illegal .dec ∧ decode 0x99 = .illegal .dec ∧ decode 0xC0 = .illegal .dec ∧
    decode 0xF8 = .illegal .dec ∧ decode 0xFF = .illegal .dec := by decide

/-- R85: the decoder and the legality check agree on all 256 words. -/
theorem test_decode_legal : ∀ w : Byte, (decodeWord w).isSome = wordLegal w := by decide +kernel

theorem test_table_word :
    decodeTableWord 8 0x59 = some (.ewbit true) ∧ decodeTableWord 8 0xB0 = some .drun ∧ decodeTableWord 8 0x68 = none := by
  decide

/-- R88's examples. -/
theorem test_assembly :
    assemble ["ECOUNTALL".toList] = some [0x10] ∧ assemble ["top: EWBIT 1 ; a bit".toList] = some [0x59] ∧
    assemble ["DRUN".toList] = some [0xB0] ∧ assemble ["EWBIT".toList] = none := by decide +kernel

/-! ### Small states -/

/-- `n` accesses that do not fail. -/
def calmIo (n : Nat) : IoInput := { answers := List.replicate n false, draws := 0 }

/-- A port over a source, its next `n` accesses calm. -/
def portOn (src : List Byte) (n : Nat) : Port := { Port.reset with src := src, io := calmIo n }

/-- A port over a source, whose access number `n` from now is the first to fail. -/
def failing (src : List Byte) (n : Nat) : Port :=
  { Port.reset with src := src, io := { answers := List.replicate n false ++ [true], draws := 0 } }

/-- ENC after reset with a source loaded. -/
def encOn (src : List Byte) (n : Nat) : Enc := { Enc.reset with port := portOn src n }

/-- DEC after reset with a source loaded. -/
def decOn (src : List Byte) (n : Nat) : Dec := { Dec.reset with port := portOn src n }

def withEnc (e : Enc) : State := State.reset.setEnc e

def withDec (d : Dec) : State := State.reset.setDec d

/-- A table written as its nonzero entries. -/
def tableOf (l : List (Symbol × Count)) : Table Count 257 := l.foldl (fun f p => f.set p.1 p.2) (Table.fill 257 0)

/-- V3's table of "aab". -/
def aab : Table Count 257 := tableOf [(0x61, 2), (0x62, 1), (256, 1)]

/-- V5's table of the empty source. -/
def onlyEnd : Table Count 257 := tableOf [(256, 1)]

def inner (w : Weight) (l r : NodeId) : Node :=
  { kind := .internal, sym := 0x1FF, weight := w, left := l, right := r }

/-- The arena of V22. -/
def aabTree : Arena :=
  { node := ((((Arena.clear.node.set 0 (leafNode 0x61 2)).set 1 (leafNode 0x62 1)).set 2 (leafNode 256 1)).set 3
      (inner 2 1 2)).set 4 (inner 4 0 3)
    nnodes := 5
    root := 4 }

/-- The arena of V20. -/
def endTree : Arena :=
  { node := ((Arena.clear.node.set 0 (leafNode 256 1)).set 1 nullLeafNode).set 2 (inner 1 1 0)
    nnodes := 3
    root := 2 }

/-- The codes of V32. -/
def aabCodes : Table (Option Bits) 257 :=
  ((noCodes.set 0x61 (some [false])).set 0x62 (some [true, false])).set 256 (some [true, true])

/-- What holds of the state after a command; false where it gives none. -/
def after (i : Instr) (s : State) (p : State → Bool) : Bool :=
  match exec i s with
  | .next t => p t
  | _ => false

/-- ENC about to emit "aab" (P1, before ESYMALL). -/
def encPayload : Enc := { encOn [0x61, 0x61, 0x62] 4 with phase := .payload, freq := aab, arena := aabTree, code := aabCodes }

/-- DEC with the tree of V22 and a payload byte. -/
def decReady (src : List Byte) (n : Nat) : Dec :=
  { decOn src n with phase := .ready, freq := aab, arena := aabTree, cur := 4 }

/-! ### One step each -/

/-- V95: EINIT clears everything but the source. -/
theorem test_einit : after .einit (withEnc { encPayload with err := .sequence, acc := 3, nbits := 2 }) (fun t =>
    t.enc.status == 0x0000 && t.enc.port.dst == [] && t.enc.port.src == [0x61, 0x61, 0x62] &&
      t.enc.freq.get 0x61 == 0 && t.enc.code.get 0x61 == none && t.enc.arena.nnodes == 0 && t.enc.acc == 0) = true := by
  decide +kernel

/-- V2. -/
theorem test_ecount : after .ecount (withEnc (encOn [0x61] 1)) (fun t =>
    t.enc.freq.get 0x61 == 1 && t.enc.port.rp == 1 && t.enc.status == 0x0000) = true := by decide +kernel

/-- V6. -/
theorem test_ecount_overflow :
    after .ecount (withEnc { encOn [0x41] 1 with freq := tableOf [(0x41, 0xFFFFFFFF)] }) (fun t =>
      t.enc.status == 0x0600 && t.enc.port.rp == 1 && t.enc.freq.get 0x41 == 0xFFFFFFFF) = true := by decide +kernel

/-- V3. -/
theorem test_ecountall : after .ecountall (withEnc (encOn [0x61, 0x61, 0x62] 3)) (fun t =>
    t.enc.freq.get 0x61 == 2 && t.enc.freq.get 0x62 == 1 && t.enc.port.rp == 3 && t.enc.status == 0x0010) = true := by
  decide +kernel

/-- V9: the read at offset 1 fails. -/
theorem test_ecountall_fault :
    after .ecountall (withEnc { encOn [0x61, 0x61, 0x62] 0 with
      port := { portOn [0x61, 0x61, 0x62] 0 with io := { answers := [false, true], draws := 0 } } }) (fun t =>
      t.enc.freq.get 0x61 == 1 && t.enc.port.rp == 1 && t.enc.status == 0x0100) = true := by decide +kernel

/-- V5's EFINAL. -/
theorem test_efinal : after .efinal (withEnc (encOn [] 0)) (fun t =>
    t.enc.freq.get 256 == 1 && t.enc.status == 0x0001) = true := by decide +kernel

/-- V22. -/
theorem test_treeBuild : treeBuild aab = some aabTree := by decide +kernel

/-- V20: the null leaf. -/
theorem test_treeBuild_empty : treeBuild onlyEnd = some endTree := by decide +kernel

/-- ENC and DEC with V22's table, about to build. -/
def aboutToBuild : State :=
  { enc := { Enc.reset with phase := .final, freq := aab }, dec := { Dec.reset with phase := .loaded, freq := aab }, cmd := [] }

theorem ebuild_next {s : State} {a : Arena} (he : s.enc.err = .none) (hp : s.enc.phase = .final)
    (ha : treeBuild s.enc.freq = some a) :
    exec .ebuild s = .next (s.setEnc { s.enc with arena := a, phase := .built }) := by
  rw [show exec .ebuild s = _ from encGate_run .ebuild s he (by simp [phaseLegal, hp]), ebuildBody, ha]
  rfl

theorem dbuild_next {s : State} {a : Arena} (he : s.dec.err = .none) (hp : s.dec.phase = .loaded)
    (ha : treeBuild s.dec.freq = some a) :
    exec .dbuild s = .next (s.setDec { s.dec with arena := a, cur := a.root, phase := .ready }) := by
  rw [show exec .dbuild s = _ from decGate_run .dbuild s he (by simp [phaseLegal, hp]), dbuildBody, ha]
  rfl

/-- V22 in ENC. -/
theorem test_ebuild : after .ebuild aboutToBuild (fun t =>
    t.enc.arena.root == 4 && t.enc.arena.slotAt 3 == inner 2 1 2 && t.enc.status == 0x0002) = true := by
  rw [after, ebuild_next (s := aboutToBuild) rfl rfl test_treeBuild]
  decide +kernel

/-- V32. -/
theorem test_ederive : after .ederive (withEnc { encOn [] 0 with phase := .built, freq := aab, arena := aabTree }) (fun t =>
    t.enc.code == aabCodes && t.enc.status == 0x0003) = true := by decide +kernel

/-- V30: the sentinel's code in the empty source's tree is "1". -/
theorem test_ederive_empty :
    after .ederive (withEnc { encOn [] 0 with phase := .built, freq := onlyEnd, arena := endTree }) (fun t =>
      t.enc.code == noCodes.set 256 (some [true])) = true := by decide +kernel

/-- V62's header: bytes 388..391, 392..395 and 1024..1027. -/
theorem test_header_bytes :
    ((headerBytes aab).drop 388).take 8 = [0, 0, 0, 2, 0, 0, 0, 1] ∧ (headerBytes aab).drop 1024 = [0, 0, 0, 1] := by
  decide +kernel

/-- R203, R265: the third write of EHDR fails; the two bytes before it stay and the phase stays READY. -/
theorem test_ehdr_fault :
    after .ehdr (withEnc { encOn [] 0 with
      phase := .ready, freq := aab, port := { portOn [] 0 with io := { answers := [false, false, true], draws := 0 } } })
      (fun t => t.enc.port.dst == [0, 0] && t.enc.status == 0x0103) = true := by decide +kernel

/-- P1's EREWIND. -/
theorem test_erewind :
    after .erewind (withEnc { encPayload with eoi := true, port := { encPayload.port with rp := 3 } }) (fun t =>
      t.enc.status == 0x0004 && t.enc.port.rp == 0) = true := by decide +kernel

/-- R205: the code "10" of 0x62. -/
theorem test_esym : after .esym (withEnc { encPayload with port := { encPayload.port with rp := 2 } }) (fun t =>
    t.enc.acc == 0b10 && t.enc.nbits == 2 && t.enc.port.rp == 3 && t.enc.eoi == false) = true := by decide +kernel

/-- R205: a byte without a code is consumed and raises NOCODE. -/
theorem test_esym_nocode : after .esym (withEnc { encPayload with port := portOn [0x63] 1 }) (fun t =>
    t.enc.status == 0x0704 && t.enc.port.rp == 1 && t.enc.nbits == 0) = true := by decide +kernel

/-- P1's ESYMALL. -/
theorem test_esymall : after .esymall (withEnc encPayload) (fun t =>
    t.enc.status == 0x0014 && t.enc.port.rp == 3 && t.enc.acc == 0x02 && t.enc.nbits == 4) = true := by decide +kernel

/-- P1's EEOS. -/
theorem test_eeos : after .eeos (withEnc { encPayload with acc := 0x02, nbits := 4 }) (fun t =>
    t.enc.status == 0x0005 && t.enc.acc == 0x0B && t.enc.nbits == 6) = true := by decide +kernel

/-- V40's eighth bit. -/
theorem test_ewbit : after (.ewbit true) (withEnc { encOn [] 1 with acc := 0x52, nbits := 7 }) (fun t =>
    t.enc.port.dst == [0xA5] && t.enc.acc == 0 && t.enc.nbits == 0 && t.enc.status == 0x0000) = true := by decide +kernel

/-- V45: the write fails and the byte is lost. -/
theorem test_ewbit_fault :
    after (.ewbit false) (withEnc { encOn [] 0 with
      acc := 0x7F, nbits := 7, port := { portOn [] 0 with io := { answers := [true], draws := 0 } } }) (fun t =>
      t.enc.port.dst == [] && t.enc.acc == 0 && t.enc.nbits == 0 && t.enc.status == 0x0100) = true := by decide +kernel

/-- V41. -/
theorem test_eclose : after .eclose (withEnc { encOn [] 1 with acc := 0b110, nbits := 3 }) (fun t =>
    t.enc.port.dst == [0xC0] && t.enc.status == 0x0006) = true := by decide +kernel

/-- V93: ECLOSE keeps a latched error. -/
theorem test_eclose_latched : after .eclose (withEnc { encOn [] 0 with err := .sequence }) (fun t =>
    t.enc.status == 0x0506) = true := by decide +kernel

/-- R230. -/
theorem test_dinit : after .dinit (withDec { decReady [0x2C] 0 with err := .io, cnt := 3, buf := 7 }) (fun t =>
    t.dec.status == 0x0000 && t.dec.port.src == [0x2C] && t.dec.cnt == 8 && t.dec.buf == 0 && t.dec.cur == 0x3FF) = true := by
  decide +kernel

/-- R231, as V70: a header that ends early, after three bytes, is FORMAT with EOI and `RP = 3`. -/
theorem test_dhdr_short : after .dhdr (withDec (decOn [0, 0, 0] 3)) (fun t =>
    t.dec.status == 0x0210 && t.dec.port.rp == 3 && t.dec.freq.get 256 == 0) = true := by decide +kernel

/-- R232: big-endian counters. -/
theorem test_parse_header :
    (parseHeader (headerBytes aab)).get 0x61 = 2 ∧ (parseHeader (headerBytes aab)).get 256 = 1 ∧
    countOf 0x12 0x34 0x56 0x78 = 0x12345678 := by decide +kernel

/-- V22 in DEC. -/
theorem test_dbuild : after .dbuild aboutToBuild (fun t =>
    t.dec.arena.slotAt 4 == inner 4 0 3 && t.dec.cur == 4 && t.dec.status == 0x0002) = true := by
  rw [after, dbuild_next (s := aboutToBuild) rfl rfl test_treeBuild]
  decide +kernel

/-- V50's first DRBIT. -/
theorem test_drbit : after .drbit (withDec (decReady [0xA5] 1)) (fun t =>
    t.dec.lastBit && t.dec.port.rp == 1 && t.dec.cnt == 1 && t.dec.buf == 0xA5) = true := by decide +kernel

/-- V50's ninth DRBIT. -/
theorem test_drbit_end :
    after .drbit (withDec { decReady [0xA5] 0 with
      lastBit := true, buf := 0xA5, cnt := 8, port := { portOn [0xA5] 0 with rp := 1 } }) (fun t =>
      t.dec.status == 0x0032) = true := by decide +kernel

/-- R236: the first bit of 2C, "0", is the code of 0x61. -/
theorem test_dstep : after .dstep (withDec (decReady [0x2C] 2)) (fun t =>
    t.dec.port.dst == [0x61] && t.dec.cur == 4 && t.dec.cnt == 1 && t.dec.status == 0x0002) = true := by decide +kernel

/-- V73: the null leaf. -/
theorem test_dstep_corrupt :
    after .dstep (withDec { decReady [0x00] 1 with freq := onlyEnd, arena := endTree, cur := 2 }) (fun t =>
      t.dec.status == 0x0802 && t.dec.cur == 1 && t.dec.cnt == 1) = true := by decide +kernel

/-- R237: after two bits of 2C comes "10", the code of 0x62. -/
theorem test_dsymbol :
    after .dsymbol (withDec { decReady [0x2C] 1 with
      buf := 0x2C, cnt := 2, port := { portOn [0x2C] 1 with rp := 1 } }) (fun t =>
      t.dec.port.dst == [0x62] && t.dec.cur == 4 && t.dec.cnt == 4) = true := by decide +kernel

/-- V75 and V77: DRUN stops at the sentinel, with two pad bits unread and the bytes after them never read. -/
theorem test_drun : after .drun (withDec (decReady [0x2C, 0xFF, 0xFF] 4)) (fun t =>
    t.dec.port.dst == [0x61, 0x61, 0x62] && t.dec.status == 0x0003 && t.dec.cnt == 6 && t.dec.cur == 2 &&
      t.dec.port.rp == 1) = true := by decide +kernel

/-- V72: no payload. -/
theorem test_drun_truncated : after .drun (withDec (decReady [] 0)) (fun t =>
    t.dec.status == 0x0312 && t.dec.cur == 4) = true := by decide +kernel

/-- V75's DCLOSE. -/
theorem test_dclose : after .dclose (withDec { decReady [] 0 with phase := .done, cur := 2 }) (fun t =>
    t.dec.status == 0x0004) = true := by decide +kernel

/-- V91: an illegal word of a fresh ENC. -/
theorem test_step_illegal :
    (match step (State.reset.withFetchWord 8 0x68) with
      | .next t => t.enc.status == 0x0400 && t.dec.status == 0x0000 && t.cmd == []
      | _ => false) = true := by decide +kernel

/-- V92, V96: under a latched error a legal and an illegal word have no effect. -/
theorem test_step_latched :
    (match step ((withEnc { encOn [0x61] 0 with err := .sequence }).withFetchWord 8 0x08),
        step ((withEnc { encOn [0x61] 0 with err := .sequence }).withFetchWord 8 0x68) with
      | .next t, .next u => t.enc.status == 0x0500 && t.enc.port.rp == 0 && u.enc.status == 0x0500
      | _, _ => false) = true := by decide +kernel

/-- V46, V97, V98: EHDR with a bit held, DHDR in LOADED, DSYMBOL in DONE. -/
theorem test_sequence :
    after .ehdr (withEnc { encOn [] 0 with phase := .ready, acc := 1, nbits := 1 }) (fun t =>
      t.enc.status == 0x0503 && t.enc.port.dst == []) = true ∧
    after .dhdr (withDec { decOn [] 0 with phase := .loaded }) (fun t => t.dec.status == 0x0501) = true ∧
    after .dsymbol (withDec { decOn [] 0 with phase := .done }) (fun t => t.dec.status == 0x0503) = true := by
  decide +kernel

/-- R300, R301: the reset input clears the sources, INIT does not. -/
theorem test_reset_input :
    (match hostStep .idle .reset (withDec (decOn [0x2C] 0)) with
      | .next t => t.dec.port.src == [] && t.dec.status == 0x0000
      | _ => false) = true := by decide +kernel

/-- R275: the host copies `ENC.DST` into `DEC.SRC`; then DEC's first command is DINIT (70_reset_and_hazards.md R303). -/
theorem test_move_artifact :
    (hostAct .moveArtifact (withEnc { encOn [] 0 with port := { portOn [] 0 with dst := [1, 2] } })).dec.port.src = [1, 2] ∧
    initFirstFrom false false [.moveArtifact, .write 0x80, .write 0x88] = true ∧
    initFirstFrom false false [.moveArtifact, .write 0x88] = false := by decide

/-- 93_implementation_defined.md I17: a source set in the middle of an operation is refused; once the unit is CLOSED it is
not. -/
theorem test_source_in_use :
    (match hostRun [.load .enc [1], .write 0x00, .answer .enc false, .write 0x08, .load .enc [2]] State.reset with
      | .refused r => r == .sourceInUse .enc
      | _ => false) = true ∧
    (match hostRun [.load .enc [1], .write 0x00, .write 0x60, .load .enc [2]] State.reset with
      | .next t => t.enc.port.src == [2]
      | _ => false) = true := by decide +kernel

/-- R275: an illegal word begins no operation, the INIT after it does; a command run from reset begins one (40_frequency.md
R105), and an INIT after it begins the next. -/
theorem test_source_before_init :
    (match hostRun [.load .enc [1], .write 0x68, .write 0x00, .load .enc [2]] State.reset with
      | .refused r => r == .sourceInUse .enc
      | _ => false) = true ∧
    (match hostRun [.load .enc [1], .write 0x18, .load .enc [2]] State.reset with
      | .refused r => r == .sourceInUse .enc
      | _ => false) = true ∧
    (match hostRun [.load .enc [1], .write 0x18, .write 0x00, .load .enc [2]] State.reset with
      | .refused r => r == .sourceInUse .enc
      | _ => false) = true ∧
    initFirstFrom false false [.load .enc [1], .write 0x68, .write 0x00, .write 0x18] = true := by decide +kernel

/-! ### Witnesses: states and operands that meet the hypotheses of each obligation, clause by clause -/

theorem next_of_after {i : Instr} {s : State} {p : State → Bool} (h : after i s p = true) :
    ∃ t, exec i s = .next t ∧ p t = true := by
  unfold after at h
  split at h
  · rename_i t ht; exact ⟨t, ht, h⟩
  · exact absurd h (by decide)

theorem calmIo_calm {u : UnitId} {k n : Nat} (h : k ≤ n) : Calm u k (calmIo n) :=
  calm_of_answers (n := n) (by simp [calmIo]) h

/-- An access with a fixed answer gets it. -/
theorem answerAt_fixed (u : UnitId) (d : Dir) (off : Nat) (b : Bool) (l : List Bool) (k : Nat) :
    ({ answers := b :: l, draws := k } : IoInput).answerAt u d off 0 = b := rfl

/-- Access number `n` after `n` that do not fail. -/
theorem answerAt_nth (u : UnitId) (d : Dir) (off n k : Nat) :
    ({ answers := List.replicate n false ++ [true], draws := k } : IoInput).answerAt u d off n = true := by
  simp [IoInput.answerAt]

theorem replicate_calm (u : UnitId) (n k : Nat) :
    Calm u n { answers := List.replicate n false ++ [true], draws := k } :=
  calm_of_answers (n := n) (by simp) (Nat.le_refl n)

theorem aab_tree : TreeOf aab aabTree ∧ BuiltFrom aab aabTree := by
  obtain ⟨a, ha, h1, h2, _⟩ := treeBuild_some aab (by decide +kernel)
  rw [test_treeBuild, Option.some.injEq] at ha
  exact ha ▸ ⟨h1, h2⟩

theorem end_tree : TreeOf onlyEnd endTree ∧ BuiltFrom onlyEnd endTree := by
  obtain ⟨a, ha, h1, h2, _⟩ := treeBuild_some onlyEnd (by decide +kernel)
  rw [test_treeBuild_empty, Option.some.injEq] at ha
  exact ha ▸ ⟨h1, h2⟩

/-- V22's paths: "0" to 0x61, "10" to 0x62, "11" to the sentinel. -/
theorem aab_paths : LeadsTo aabTree 4 [false] 0 ∧ LeadsTo aabTree 4 [true, false] 1 ∧ LeadsTo aabTree 4 [true, true] 2 := by
  simp only [LeadsTo]
  decide +kernel

theorem witness_IllegalWordsOnlyLatchIllegal : (∀ i, decode 0x68 ≠ .command i) ∧ ∀ i, decode 0xC0 ≠ .command i := by
  constructor <;> intro i <;> rw [show decode _ = .illegal _ from rfl] <;> simp

theorem witness_AssemblyGivesTheCommandWords : ∀ b, Instr.einit ≠ .ewbit b := by simp

theorem witness_StepRunsTheDecodedCommand :
    (State.reset.withFetchWord 8 0x59).cmd = 0x59 :: [] ∧ decode 0x59 = .command (.ewbit true) := by decide

theorem witness_StepWithoutWordChangesNothing : State.reset.cmd = [] := rfl

/-- A machine with an error latched in both units. -/
def latched (e : EncPhase) (d : DecPhase) : State :=
  { enc := { Enc.reset with err := .sequence, phase := e }, dec := { Dec.reset with err := .format, phase := d }, cmd := [] }

theorem witness_LatchedErrorLeavesOnlyInitAndClose :
    (latched .count .empty).enc.err ≠ .none ∧ (latched .count .empty).dec.err ≠ .none ∧
    (Instr.ecount.unit = .enc ∧ Instr.ecount ≠ .einit ∧ Instr.ecount ≠ .eclose) ∧ decode 0x68 = .illegal .enc ∧
    (latched .closed .closed).enc.phase = .closed ∧ (latched .count .empty).enc.phase ≠ .closed ∧
    (Instr.drun.unit = .dec ∧ Instr.drun ≠ .dinit ∧ Instr.drun ≠ .dclose) ∧ decode 0xC0 = .illegal .dec ∧
    (latched .closed .closed).dec.phase = .closed ∧ (latched .count .empty).dec.phase ≠ .closed := by decide

/-- A machine with no error and given phases. -/
def inPhase (e : EncPhase) (n : BitVec 3) (d : DecPhase) : State :=
  { enc := { Enc.reset with phase := e, nbits := n }, dec := { Dec.reset with phase := d }, cmd := [] }

theorem witness_OutOfPhaseCommandsRaiseSequence :
    (inPhase .closed 0 .closed).enc.err = .none ∧ (inPhase .closed 0 .closed).dec.err = .none ∧
    (inPhase .closed 0 .closed).enc.phase ≠ .count ∧ (inPhase .closed 0 .closed).enc.phase ≠ .final ∧
    (inPhase .closed 0 .closed).enc.phase ≠ .built ∧ (inPhase .closed 0 .closed).enc.phase ≠ .ready ∧
    ((inPhase .ready 1 .empty).enc.phase = .ready ∧ (inPhase .ready 1 .empty).enc.nbits ≠ 0) ∧
    (inPhase .closed 0 .closed).enc.phase = .closed ∧ (inPhase .closed 0 .closed).enc.phase ≠ .payload ∧
    (inPhase .closed 0 .closed).dec.phase ≠ .empty ∧ (inPhase .closed 0 .closed).dec.phase ≠ .loaded ∧
    (inPhase .closed 0 .done).dec.phase ≠ .ready ∧ (inPhase .closed 0 .closed).dec.phase = .closed := by decide

theorem witness_FirstErrorIsKept :
    (∃ t, exec .ecount (latched .count .empty) = .next t) ∧ (∃ t, exec .drun (latched .count .empty) = .next t) ∧
    (∃ t, exec .eclose (latched .count .empty) = .next t) ∧ (latched .count .empty).enc.err ≠ .none ∧
    (latched .count .empty).dec.err ≠ .none :=
  ⟨⟨_, rfl⟩, ⟨_, rfl⟩, ⟨_, rfl⟩, by decide, by decide⟩

theorem witness_CommandsStayInTheirUnit :
    (∃ t, exec .ecount (withEnc (encOn [0x61] 1)) = .next t) ∧ Instr.ecount.unit = .enc ∧
    (∃ t, exec .drbit (withDec (decReady [0xA5] 1)) = .next t) ∧ Instr.drbit.unit = .dec := by
  obtain ⟨t, h, _⟩ := next_of_after test_ecount
  obtain ⟨u, h', _⟩ := next_of_after test_drbit
  exact ⟨⟨t, h⟩, rfl, ⟨u, h'⟩, rfl⟩

/-- ECOUNT and DHDR, one word for each unit, on empty sources. -/
theorem witness_InterleavingDoesNotMatter : ∃ t, hostRun ([0x08, 0x88].map .write) State.reset = .next t := ⟨_, rfl⟩

theorem witness_PortsAreReadInPlaceAndAppendedTo :
    (∃ t, exec (.ewbit true) (withEnc { encOn [] 1 with acc := 0x52, nbits := 7 }) = .next t ∧
      t.enc.port.dst = [] ++ [0xA5]) ∧
    (∃ t, exec .einit State.reset = .next t) ∧
    (∃ t, exec .dstep (withDec (decReady [0x2C] 2)) = .next t ∧ t.dec.port.dst = [] ++ [0x61]) ∧
    ∃ t, exec .dinit State.reset = .next t := by
  obtain ⟨t, h, hp⟩ := next_of_after test_ewbit
  obtain ⟨u, h', hp'⟩ := next_of_after test_dstep
  simp only [Bool.and_eq_true, beq_iff_eq] at hp hp'
  exact ⟨⟨t, h, hp.1.1.1⟩, ⟨_, rfl⟩, ⟨u, h', hp'.1.1.1⟩, ⟨_, rfl⟩⟩

theorem witness_FrequencyTableIsFrozenAfterCounting :
    (∃ t, exec .ecount (inPhase .final 0 .loaded) = .next t) ∧ (∃ t, exec .dhdr (inPhase .final 0 .loaded) = .next t) ∧
    (inPhase .final 0 .loaded).enc.phase ≠ .count ∧ (inPhase .final 0 .loaded).dec.phase ≠ .empty :=
  ⟨⟨_, rfl⟩, ⟨_, rfl⟩, by decide, by decide⟩

theorem witness_EncoderCommandsChangeOnlyTheirFields :
    (∃ s t, exec .ecount s = .next t) ∧ (∃ s t, exec .ecountall s = .next t) ∧ (∃ s t, exec .efinal s = .next t) ∧
    (∃ s t, exec .ebuild s = .next t) ∧ (∃ s t, exec .ederive s = .next t) ∧ (∃ s t, exec .ehdr s = .next t) ∧
    (∃ s t, exec .erewind s = .next t) ∧ (∃ s t, exec .esym s = .next t) ∧ (∃ s t, exec .esymall s = .next t) ∧
    (∃ s t, exec .eeos s = .next t) ∧ (∃ s t, exec .eclose s = .next t) ∧ ∃ s t, exec (.ewbit false) s = .next t := by
  have h : ∀ {i : Instr} {s : State} {p : State → Bool}, after i s p = true → ∃ s t, exec i s = .next t :=
    fun h => ⟨_, (next_of_after h).imp fun _ h => h.1⟩
  exact ⟨h test_ecount, h test_ecountall, h test_efinal, h test_ebuild, h test_ederive, h test_ehdr_fault, h test_erewind,
    h test_esym, h test_esymall, h test_eeos, h test_eclose, h test_ewbit_fault⟩

theorem witness_DecoderCommandsChangeOnlyTheirFields :
    (∃ s t, exec .dhdr s = .next t) ∧ (∃ s t, exec .dbuild s = .next t) ∧ (∃ s t, exec .drbit s = .next t) ∧
    (∃ s t, exec .dstep s = .next t) ∧ (∃ s t, exec .dsymbol s = .next t) ∧ (∃ s t, exec .drun s = .next t) ∧
    ∃ s t, exec .dclose s = .next t := by
  have h : ∀ {i : Instr} {s : State} {p : State → Bool}, after i s p = true → ∃ s t, exec i s = .next t :=
    fun h => ⟨_, (next_of_after h).imp fun _ h => h.1⟩
  exact ⟨h test_dhdr_short, h test_dbuild, h test_drbit, h test_dstep, h test_dsymbol, h test_drun, h test_dclose⟩

/-- ECOUNT: at the end, a failing read, a full counter, a counter one below. -/
theorem witness_EcountCountsOneByte :
    (∃ s : State, s.enc.err = .none ∧ s.enc.phase = .count ∧ s.enc.port.rp = s.enc.port.src.length) ∧
    (∃ s : State, s.enc.err = .none ∧ s.enc.phase = .count ∧ s.enc.port.src[s.enc.port.rp]? = some 0x41 ∧
      s.enc.port.io.answerAt .enc .read s.enc.port.rp 0 = true) ∧
    (∃ s : State, s.enc.err = .none ∧ s.enc.phase = .count ∧ s.enc.port.src[s.enc.port.rp]? = some 0x41 ∧
      s.enc.port.io.answerAt .enc .read s.enc.port.rp 0 = false ∧ s.enc.freq.get (byteSymbol 0x41) = 0xFFFFFFFF) ∧
    ∃ s : State, s.enc.err = .none ∧ s.enc.phase = .count ∧ s.enc.port.src[s.enc.port.rp]? = some 0x41 ∧
      s.enc.port.io.answerAt .enc .read s.enc.port.rp 0 = false ∧ s.enc.freq.get (byteSymbol 0x41) ≠ 0xFFFFFFFF :=
  ⟨⟨withEnc (encOn [] 0), by decide⟩,
    ⟨withEnc { encOn [] 0 with port := failing [0x41] 0 }, by decide⟩,
    ⟨withEnc { encOn [0x41] 1 with freq := tableOf [(0x41, 0xFFFFFFFF)] }, by decide +kernel⟩,
    withEnc { encOn [0x41] 1 with freq := tableOf [(0x41, 0xFFFFFFFE)] }, by decide +kernel⟩

theorem witness_BulkCommandsRepeatTheirSingleCommand :
    ((withEnc (encOn [0x61] 1)).enc.err = .none ∧ (withEnc (encOn [0x61] 1)).enc.phase = .count ∧
      ∃ t, exec .ecount (withEnc (encOn [0x61] 1)) = .next t) ∧
    ((∃ s, s.enc.err = .none ∧ s.enc.phase = .payload ∧ ∃ t, exec .esym s = .next t) ∧
    ∃ s, s.dec.err = .none ∧ s.dec.phase = .ready ∧ ∃ t, exec .dstep s = .next t) := by
  obtain ⟨t, h, _⟩ := next_of_after test_ecount
  obtain ⟨u, h', _⟩ := next_of_after test_esym
  obtain ⟨v, h'', _⟩ := next_of_after test_dstep
  exact ⟨⟨rfl, rfl, t, h⟩, ⟨_, rfl, rfl, u, h'⟩, ⟨_, rfl, rfl, v, h''⟩⟩

theorem witness_EcountallCountsTheRestOfTheSource :
    let e := encOn [0x61, 0x61, 0x62] 3
    e.err = .none ∧ e.phase = .count ∧ e.port.rp ≤ e.port.src.length ∧ (e.eoi = true → e.port.rp = e.port.src.length) ∧
    Calm .enc (e.port.src.length - e.port.rp) e.port.io ∧
    ∀ b : Byte, (e.freq.get (byteSymbol b)).toNat + (e.port.src.drop e.port.rp).count b ≤ 0xFFFFFFFF := by
  refine ⟨rfl, rfl, by decide, by decide, calmIo_calm (by decide), fun b => ?_⟩
  have h0 : ((encOn [0x61, 0x61, 0x62] 3).freq.get (byteSymbol b)).toNat = 0 := by simp [encOn, Enc.reset]
  have h1 : ((encOn [0x61, 0x61, 0x62] 3).port.src.drop 0).count b ≤ 3 := List.count_le_length
  exact Nat.le_trans (Nat.add_le_add (Nat.le_of_eq h0) h1) (by decide)

theorem witness_CountingGivesTheHistogram :
    let e := encOn [0x61, 0x61, 0x62] 3
    e.err = .none ∧ e.phase = .count ∧ e.eoi = false ∧ e.port.rp = 0 ∧ (∀ x, e.freq.get x = 0) ∧
    Calm .enc e.port.src.length e.port.io ∧ ∀ b : Byte, e.port.src.count b ≤ 0xFFFFFFFF :=
  ⟨rfl, rfl, rfl, rfl, by simp [encOn, Enc.reset], calmIo_calm (by decide), by decide +kernel⟩

theorem witness_EfinalSetsTheSentinelsCount : State.reset.enc.err = .none ∧ State.reset.enc.phase = .count := ⟨rfl, rfl⟩

/-- The tables of "aab" and of the empty source. -/
theorem witness_EbuildMergesTheTwoLeastNodes :
    (aboutToBuild.enc.err = .none ∧ aboutToBuild.enc.phase = .final ∧ aboutToBuild.enc.freq.get sentinel ≠ 0) ∧
    ∃ s : State, s.enc.err = .none ∧ s.enc.phase = .final ∧ s.enc.freq.get sentinel ≠ 0 ∧ s.enc.freq = onlyEnd :=
  ⟨by decide +kernel, withEnc { Enc.reset with phase := .final, freq := onlyEnd }, rfl, rfl, by decide +kernel, rfl⟩

theorem witness_DbuildRebuildsTheEncodersTree :
    aboutToBuild.dec.err = .none ∧ aboutToBuild.dec.phase = .loaded ∧ aboutToBuild.dec.freq.get sentinel ≠ 0 ∧
    aboutToBuild.enc.err = .none ∧ aboutToBuild.enc.phase = .final ∧ aboutToBuild.enc.freq = aboutToBuild.dec.freq :=
  ⟨rfl, rfl, by decide +kernel, rfl, rfl, rfl⟩

theorem witness_TheMergeRulesFixTheTree :
    (TreeOf aab aabTree ∧ BuiltFrom aab aabTree) ∧ TreeOf onlyEnd endTree ∧ BuiltFrom onlyEnd endTree :=
  ⟨aab_tree, end_tree⟩

/-- ENC in phase BUILT on the tree of "aab", and on the tree of the empty source. -/
def builtState (f : Table Count 257) (a : Arena) : State := withEnc { Enc.reset with phase := .built, freq := f, arena := a }

theorem witness_EderiveRecordsTheRootToLeafPaths :
    (builtState aab aabTree).enc.err = .none ∧ (builtState aab aabTree).enc.phase = .built ∧
    TreeOf (builtState aab aabTree).enc.freq (builtState aab aabTree).enc.arena := ⟨rfl, rfl, aab_tree.1⟩

theorem witness_CodesArePrefixFreeAndComplete :
    (∃ t, exec .ederive (builtState aab aabTree) = .next t) ∧ (∃ t, exec .ederive (builtState onlyEnd endTree) = .next t) ∧
    TreeOf aab aabTree ∧ TreeOf onlyEnd endTree ∧ (∀ i, (aabTree.slotAt i).kind ≠ .nullLeaf) ∧
    BuiltFrom onlyEnd endTree ∧ (endTree.slotAt 1).kind = .nullLeaf := by
  have h1 : after .ederive (builtState aab aabTree) (fun _ => true) = true := by decide +kernel
  have h2 : after .ederive (builtState onlyEnd endTree) (fun _ => true) = true := by decide +kernel
  exact ⟨(next_of_after h1).imp fun _ h => h.1, (next_of_after h2).imp fun _ h => h.1, aab_tree.1, end_tree.1,
    fun i hi => absurd (aab_tree.2.null_iff.1 ⟨i, hi⟩ 0x61 (by decide +kernel)) (by decide), end_tree.2, by decide +kernel⟩

/-- EWBIT: a bit that does not fill the byte (`NBITS = 6`), and one that does, its write failing or not. -/
theorem witness_EwbitPacksOneBit :
    (∃ s : State, s.enc.err = .none ∧ s.enc.phase ≠ .closed ∧ s.enc.nbits ≠ 7) ∧
    (∃ s : State, s.enc.err = .none ∧ s.enc.phase ≠ .closed ∧ s.enc.nbits = 7 ∧
      s.enc.port.io.answerAt .enc .write s.enc.port.dst.length 0 = false) ∧
    ∃ s : State, s.enc.err = .none ∧ s.enc.phase ≠ .closed ∧ s.enc.nbits = 7 ∧
      s.enc.port.io.answerAt .enc .write s.enc.port.dst.length 0 = true :=
  ⟨⟨inPhase .count 6 .empty, by decide⟩, ⟨withEnc { encOn [] 1 with nbits := 7 }, by decide⟩,
    withEnc { encOn [] 0 with nbits := 7, port := failing [] 0 }, by decide⟩

/-- ECLOSE: no bit held, under a latched error; one held bit, its write failing or not; a second ECLOSE, with no error and
under one. -/
theorem witness_EcloseFlushesAndCloses :
    (∃ s : State, s.enc.phase ≠ .closed ∧ s.enc.nbits = 0 ∧ s.enc.err ≠ .none) ∧
    (∃ s : State, s.enc.phase ≠ .closed ∧ s.enc.nbits ≠ 0 ∧
      s.enc.port.io.answerAt .enc .write s.enc.port.dst.length 0 = false) ∧
    (∃ s : State, s.enc.phase ≠ .closed ∧ s.enc.nbits ≠ 0 ∧
      s.enc.port.io.answerAt .enc .write s.enc.port.dst.length 0 = true) ∧
    ((inPhase .closed 0 .empty).enc.phase = .closed ∧ (inPhase .closed 0 .empty).enc.err = .none) ∧
    (latched .closed .empty).enc.phase = .closed ∧ ∃ t, exec .eclose (latched .closed .empty) = .next t :=
  ⟨⟨latched .count .empty, by decide⟩, ⟨withEnc { encOn [] 1 with nbits := 1 }, by decide⟩,
    ⟨withEnc { encOn [] 0 with nbits := 1, port := failing [] 0 }, by decide⟩, by decide, rfl, _, rfl⟩

theorem witness_ErewindRewindsTheSource : State.reset.enc.err = .none ∧ State.reset.enc.phase ≠ .closed := by decide

/-- EHDR: no failing write, and the first and the last write failing. -/
theorem witness_EhdrWritesTheBigEndianHeader :
    (∃ s : State, s.enc.err = .none ∧ s.enc.phase = .ready ∧ s.enc.nbits = 0 ∧ Calm .enc 1028 s.enc.port.io) ∧
    ∀ n, n = 0 ∨ n = 1027 → ∃ s : State, s.enc.err = .none ∧ s.enc.phase = .ready ∧ s.enc.nbits = 0 ∧ n < 1028 ∧
      Calm .enc n s.enc.port.io ∧ s.enc.port.io.answerAt .enc .write (s.enc.port.dst.length + n) n = true :=
  ⟨⟨withEnc { encOn [] 1028 with phase := .ready }, rfl, rfl, rfl, calmIo_calm (Nat.le_refl _)⟩,
    fun n h => ⟨withEnc { encOn [] 0 with phase := .ready, port := failing [] n }, rfl, rfl, rfl, by omega,
      replicate_calm _ n 0, answerAt_nth _ _ _ n 0⟩⟩

/-- ESYM: at the end; a failing read; a byte without a code; a code of two bits after seven held ones, the write of the byte
it completes failing or not. -/
theorem witness_EsymEmitsOneCode :
    (∃ s : State, s.enc.err = .none ∧ s.enc.phase = .payload ∧ s.enc.port.rp = s.enc.port.src.length) ∧
    (∃ s : State, s.enc.err = .none ∧ s.enc.phase = .payload ∧ s.enc.port.src[s.enc.port.rp]? = some 0x62 ∧
      s.enc.port.io.answerAt .enc .read s.enc.port.rp 0 = true) ∧
    (∃ s : State, s.enc.err = .none ∧ s.enc.phase = .payload ∧ s.enc.port.src[s.enc.port.rp]? = some 0x63 ∧
      s.enc.port.io.answerAt .enc .read s.enc.port.rp 0 = false ∧ s.enc.code.get (byteSymbol 0x63) = none) ∧
    (∃ s : State, s.enc.err = .none ∧ s.enc.phase = .payload ∧ s.enc.port.src[s.enc.port.rp]? = some 0x62 ∧
      s.enc.code.get (byteSymbol 0x62) = some [true, false] ∧ 0 < (s.enc.nbits.toNat + 2) / 8 ∧
      Calm .enc (0 + 1) s.enc.port.io ∧
      s.enc.port.io.answerAt .enc .write (s.enc.port.dst.length + 0) (0 + 1) = true) ∧
    ∃ s : State, s.enc.err = .none ∧ s.enc.phase = .payload ∧ s.enc.port.src[s.enc.port.rp]? = some 0x62 ∧
      s.enc.code.get (byteSymbol 0x62) = some [true, false] ∧
      Calm .enc ((s.enc.nbits.toNat + 2) / 8 + 1) s.enc.port.io :=
  ⟨⟨withEnc { encPayload with port := portOn [] 0 }, by decide⟩,
    ⟨withEnc { encPayload with port := failing [0x62] 0 }, by decide⟩,
    ⟨withEnc { encPayload with port := portOn [0x63] 1 }, by decide +kernel⟩,
    ⟨withEnc { encPayload with nbits := 7, port := failing [0x62] 1 }, rfl, rfl, rfl, by decide +kernel, by decide,
      replicate_calm _ 1 0, answerAt_nth _ _ _ 1 0⟩,
    withEnc { encPayload with nbits := 7, port := portOn [0x62] 2 }, rfl, rfl, rfl, by decide +kernel,
    calmIo_calm (by decide)⟩

theorem witness_EsymallEmitsTheRestOfTheSource :
    encPayload.err = .none ∧ encPayload.phase = .payload ∧ encPayload.port.rp ≤ encPayload.port.src.length ∧
    (encPayload.eoi = true → encPayload.port.rp = encPayload.port.src.length) ∧
    (∀ b ∈ encPayload.port.src.drop encPayload.port.rp, (encPayload.code.get (byteSymbol b)).isSome = true) ∧
    [false, false, true, false] = (encPayload.port.src.drop encPayload.port.rp).flatMap (fun b =>
      (encPayload.code.get (byteSymbol b)).getD []) ∧
    Calm .enc (encPayload.port.src.length - encPayload.port.rp + (encPayload.nbits.toNat + 4) / 8) encPayload.port.io :=
  ⟨rfl, rfl, by decide, by decide, by decide +kernel, by decide +kernel, calmIo_calm (by decide)⟩

/-- EEOS: the sentinel's two bits after seven held ones, the write of the byte they complete failing or not. -/
theorem witness_EeosEmitsTheSentinelsCode :
    (∃ s : State, s.enc.err = .none ∧ s.enc.phase = .payload ∧ s.enc.code.get sentinel = some [true, true] ∧
      0 < (s.enc.nbits.toNat + 2) / 8 ∧ Calm .enc 0 s.enc.port.io ∧
      s.enc.port.io.answerAt .enc .write (s.enc.port.dst.length + 0) 0 = true) ∧
    ∃ s : State, s.enc.err = .none ∧ s.enc.phase = .payload ∧ s.enc.code.get sentinel = some [true, true] ∧
      Calm .enc ((s.enc.nbits.toNat + 2) / 8) s.enc.port.io :=
  ⟨⟨withEnc { encPayload with nbits := 7, port := failing [] 0 }, rfl, rfl, by decide +kernel, by decide,
      replicate_calm _ 0 0, answerAt_nth _ _ _ 0 0⟩,
    withEnc { encPayload with nbits := 7 }, rfl, rfl, by decide +kernel, calmIo_calm (by decide)⟩

/-- DHDR: whole headers (the table of "aab", and one whose sentinel's count is 2), sources of 0 and 1027 bytes, and the first
and the last read failing. -/
theorem witness_DhdrReadsAndChecksTheHeader :
    (∀ f : Table Count 257, f = aab ∨ f = tableOf [(256, 2)] → ∃ s : State, s.dec.err = .none ∧ s.dec.phase = .empty ∧
      s.dec.port.rp + 1028 ≤ s.dec.port.src.length ∧ Calm .dec 1028 s.dec.port.io ∧ s.dec.port.src = headerBytes f) ∧
    (aab.get sentinel = 1 ∧ (tableOf [(256, 2)]).get sentinel ≠ 1) ∧
    (∀ n, n = 0 ∨ n = 1027 → ∃ s : State, s.dec.err = .none ∧ s.dec.phase = .empty ∧
      s.dec.port.rp ≤ s.dec.port.src.length ∧ s.dec.port.src.length < s.dec.port.rp + 1028 ∧
      Calm .dec (s.dec.port.src.length - s.dec.port.rp) s.dec.port.io ∧ s.dec.port.src.length = n) ∧
    ∀ n, n = 0 ∨ n = 1027 → ∃ s : State, s.dec.err = .none ∧ s.dec.phase = .empty ∧
      s.dec.port.rp ≤ s.dec.port.src.length ∧ n < 1028 ∧ s.dec.port.rp + n < s.dec.port.src.length ∧
      Calm .dec n s.dec.port.io ∧ s.dec.port.io.answerAt .dec .read (s.dec.port.rp + n) n = true := by
  refine ⟨fun f _ => ⟨withDec (decOn (headerBytes f) 1028), rfl, rfl, ?_, calmIo_calm (Nat.le_refl _), rfl⟩,
    by decide +kernel,
    fun n h => ⟨withDec (decOn (List.replicate n 0) n), rfl, rfl, Nat.zero_le _, ?_, calmIo_calm ?_, ?_⟩,
    fun n h => ⟨withDec { decOn [] 0 with port := failing (List.replicate 1028 0) n }, rfl, rfl, Nat.zero_le _, by omega, ?_,
      replicate_calm _ n 0, answerAt_nth _ _ _ n 0⟩⟩
  · exact Nat.le_of_eq (by rw [show (withDec (decOn (headerBytes f) 1028)).dec.port.src = headerBytes f from rfl,
      headerBytes_length]; rfl)
  · simp only [withDec, State.setDec, decOn, portOn, Port.reset, List.length_replicate]; omega
  · simp only [withDec, State.setDec, decOn, portOn, Port.reset, List.length_replicate]; omega
  · simp only [withDec, State.setDec, decOn, portOn, List.length_replicate]
  · simp only [withDec, State.setDec, decOn, failing, Port.reset, List.length_replicate]; omega

/-- DRBIT: a buffered bit, the first and the last of its byte; nothing left; a refill, failing or not. -/
theorem witness_DrbitReadsTheNextBit :
    (∃ s : State, s.dec.err = .none ∧ s.dec.phase = .ready ∧ s.dec.cnt.val = 0 ∧
      unread s.dec = [false, false, false, false, false, false, false, true]) ∧
    (∃ s : State, s.dec.err = .none ∧ s.dec.phase = .ready ∧ s.dec.cnt.val = 7 ∧ unread s.dec = [true]) ∧
    (∃ s : State, s.dec.err = .none ∧ s.dec.phase = .ready ∧ s.dec.cnt = 8 ∧ s.dec.port.rp = s.dec.port.src.length) ∧
    (∃ s : State, s.dec.err = .none ∧ s.dec.phase = .ready ∧ s.dec.cnt = 8 ∧
      s.dec.port.src[s.dec.port.rp]? = some 0x2C ∧ s.dec.port.io.answerAt .dec .read s.dec.port.rp 0 = false ∧
      unread s.dec = [false, false, true, false, true, true, false, false]) ∧
    ∃ s : State, s.dec.err = .none ∧ s.dec.phase = .ready ∧ s.dec.cnt = 8 ∧
      s.dec.port.src[s.dec.port.rp]? = some 0x2C ∧ s.dec.port.io.answerAt .dec .read s.dec.port.rp 0 = true :=
  ⟨⟨withDec { decReady [] 0 with buf := 0x01, cnt := 0 }, by decide +kernel⟩,
    ⟨withDec { decReady [] 0 with buf := 0x01, cnt := 7 }, by decide +kernel⟩,
    ⟨withDec (decReady [] 0), by decide⟩, ⟨withDec (decReady [0x2C] 1), by decide +kernel⟩,
    withDec { decReady [] 0 with port := failing [0x2C] 0 }, by decide⟩

/-- The arrivals of DSTEP: what it needs of the bit read, the walker and the node moved to. -/
abbrev Arrives (s : State) (b : Bool) (d : Dec) (m : NodeId) (k : NodeKind) : Prop :=
  s.dec.err = .none ∧ s.dec.phase = .ready ∧ ReadsBit s.dec d b ∧
  m = (if b then (s.dec.arena.slot s.dec.cur).right else (s.dec.arena.slot s.dec.cur).left) ∧
  (s.dec.arena.slot m).kind = k

/-- Refilling from a source of one byte. -/
theorem reads_first (d : Dec) (v : Byte) (hc : d.cnt = 8) (hb : d.port.src[d.port.rp]? = some v)
    (hio : d.port.io.answerAt .dec .read d.port.rp 0 = false) : ∃ d', ReadsBit d d' (v.getLsbD 7) ∧
      d'.port = { d.port with rp := d.port.rp + 1, io := d.port.io.tick } :=
  ⟨_, .inr ⟨v, hc, hb, hio, rfl, rfl⟩, rfl⟩

/-- DSTEP: nothing unread; a failing refill; the first bit of C0 leads to an INTERNAL node; the first bit of 2C to the leaf of
0x61, whose write fails or not; the second bit of C0, buffered, to the sentinel's leaf; a bit 0 at the root of the empty
source's tree to the null leaf. -/
theorem witness_DstepMovesTheWalkerOneEdge :
    (∃ s : State, s.dec.err = .none ∧ s.dec.phase = .ready ∧ s.dec.cnt = 8 ∧ s.dec.port.rp = s.dec.port.src.length) ∧
    (∃ s : State, s.dec.err = .none ∧ s.dec.phase = .ready ∧ s.dec.cnt = 8 ∧
      s.dec.port.rp < s.dec.port.src.length ∧ s.dec.port.io.answerAt .dec .read s.dec.port.rp 0 = true) ∧
    (∃ s : State, s.dec.err = .none ∧ s.dec.phase = .ready ∧ unread s.dec = true :: (unread s.dec).tail ∧
      (s.dec.cnt = 8 → s.dec.port.io.answerAt .dec .read s.dec.port.rp 0 = false)) ∧
    (∃ s d, Arrives s true d 3 .internal) ∧
    (∀ fails, ∃ s d, Arrives s false d 0 .leaf ∧ (s.dec.arena.slot 0).sym.toNat ≠ 256 ∧
      d.port.io.answerAt .dec .write d.port.dst.length 0 = fails) ∧
    (∃ s d, Arrives s true d 2 .leaf ∧ (s.dec.arena.slot 2).sym.toNat = 256) ∧
    ∃ s d, Arrives s false d 1 .nullLeaf := by
  refine ⟨⟨withDec (decReady [] 0), by decide +kernel⟩, ⟨withDec { decReady [] 0 with port := failing [0x2C] 0 }, by decide⟩,
    ⟨withDec (decReady [0xC0] 1), by decide +kernel⟩, ?_, fun fails => ?_, ?_, ?_⟩
  · obtain ⟨d, h, _⟩ := reads_first (decReady [0xC0] 1) 0xC0 rfl rfl rfl
    exact ⟨withDec (decReady [0xC0] 1), d, rfl, rfl, h, by decide +kernel, by decide +kernel⟩
  · cases fails
    · obtain ⟨d, h, hd⟩ := reads_first (decReady [0x2C] 2) 0x2C rfl rfl rfl
      exact ⟨withDec (decReady [0x2C] 2), d, ⟨rfl, rfl, h, by decide +kernel, by decide +kernel⟩, by decide +kernel,
        by rw [hd]; rfl⟩
    · obtain ⟨d, h, hd⟩ := reads_first { decReady [] 0 with port := failing [0x2C] 1 } 0x2C rfl rfl rfl
      exact ⟨withDec { decReady [] 0 with port := failing [0x2C] 1 }, d, ⟨rfl, rfl, h, by decide +kernel, by decide +kernel⟩,
        by decide +kernel, by rw [hd]; rfl⟩
  · refine ⟨withDec { decReady [] 0 with buf := 0xC0, cnt := 1, cur := 3 }, _, ⟨rfl, rfl, .inl ⟨by decide, rfl, rfl⟩, ?_, ?_⟩, ?_⟩ <;>
      decide +kernel
  · obtain ⟨d, h, _⟩ := reads_first { decReady [0x00] 1 with freq := onlyEnd, arena := endTree, cur := 2 } 0x00 rfl rfl rfl
    exact ⟨withDec { decReady [0x00] 1 with freq := onlyEnd, arena := endTree, cur := 2 }, d, rfl, rfl, h, by decide +kernel,
      by decide +kernel⟩

/-- Three bits packed into one byte, and read back from a source that ends with it. -/
theorem witness_ReaderMirrorsThePacker :
    ∃ (e1 e2 : Enc) (l tail : List Byte), (encOn [] 1).nbits = 0 ∧ emitBits [true, false, true] (encOn [] 1) = .ok e1 () ∧
      flush e1 = .ok e2 () ∧ e2.port.dst = (encOn [] 1).port.dst ++ l ∧ (decOn l 1).cnt = 8 ∧
      (decOn l 1).port.rp ≤ (decOn l 1).port.src.length ∧ (decOn l 1).port.src.drop (decOn l 1).port.rp = l ++ tail ∧
      Calm .dec l.length (decOn l 1).port.io ∧ tail = [] :=
  ⟨_, _, [0xA0], [], rfl, rfl, rfl, rfl, rfl, by decide, rfl, calmIo_calm (by decide), rfl⟩

theorem witness_PackerWritesTheBitsMsbFirst :
    (encOn [] 1).nbits = 0 ∧ Calm .enc (([true, false, true].length + 7) / 8) (encOn [] 1).port.io :=
  ⟨rfl, calmIo_calm (by decide)⟩

/-- C0 at the root of the tree of "aab": its first bit leads to an INTERNAL node. -/
theorem witness_DstepKeepsTheWalkerInTheTree :
    (decReady [0xC0] 2).err = .none ∧ (decReady [0xC0] 2).phase = .ready ∧ TreeOf aab (decReady [0xC0] 2).arena ∧
    ((decReady [0xC0] 2).arena.slot (decReady [0xC0] 2).cur).kind = .internal ∧
    unread (decReady [0xC0] 2) = true :: [true, false, false, false, false, false, false] ∧
    Calm .dec 2 (decReady [0xC0] 2).port.io ∧
    ((decReady [0xC0] 2).arena.slot (childOf (decReady [0xC0] 2).arena (decReady [0xC0] 2).cur true)).kind ≠ .nullLeaf :=
  ⟨rfl, rfl, aab_tree.1, by decide +kernel, by decide +kernel, calmIo_calm (by decide), by decide +kernel⟩

/-- Slot 4 of the tree of "aab", in ENC and in DEC. -/
theorem witness_InspectionShowsTheArenaSlots :
    encPayload.arena.node.get 4 = inner 4 0 3 ∧ (decReady [] 0).arena.node.get 4 = inner 4 0 3 := by decide +kernel

theorem witness_SourcesAreSetBetweenOperations :
    SourceUse.begun.inUse = true ∧ SourceUse.held.inUse = true ∧ SourceUse.idle.inUse = false ∧
    SourceUse.renewed.inUse = false := by decide

/-- With no word but INIT the unit is not CLOSED, with CLOSE after it it is. -/
theorem witness_SourceIsLeftAloneFromInitUntilClosed :
    ((∀ w ∈ ([0x68] : List Byte) ++ [], decode w ≠ .command .einit) ∧
      ∃ t, hostRun (.load .enc [1] :: ([0x68] ++ 0x00 :: []).map .write) State.reset = .next t ∧ t.enc.phase ≠ .closed) ∧
    ((∀ w ∈ ([] : List Byte) ++ [0x60], decode w ≠ .command .einit) ∧
      ∃ t, hostRun (.load .enc [1] :: ([] ++ 0x00 :: [0x60]).map .write) State.reset = .next t ∧ t.enc.phase = .closed) ∧
    ((∀ w ∈ ([0xC0] : List Byte) ++ [], decode w ≠ .command .dinit) ∧
      ∃ t, hostRun (.load .dec [1] :: ([0xC0] ++ 0x80 :: []).map .write) State.reset = .next t ∧ t.dec.phase ≠ .closed) ∧
    ((∀ w ∈ ([] : List Byte) ++ [0xB8], decode w ≠ .command .dinit) ∧
      ∃ t, hostRun (.load .dec [1] :: ([] ++ 0x80 :: [0xB8]).map .write) State.reset = .next t ∧ t.dec.phase = .closed) :=
  ⟨⟨by simp; decide, _, rfl, by decide⟩, ⟨by simp; decide, _, rfl, rfl⟩,
    ⟨by simp; decide, _, rfl, by decide⟩, ⟨by simp; decide, _, rfl, rfl⟩⟩

/-- DSYMBOL on 2C, whose first code is that of 0x61, and on C0, whose first code is the sentinel's. -/
theorem witness_DsymbolDecodesOneSymbol :
    (∃ s : State, s.dec.err = .none ∧ s.dec.phase = .ready ∧
      unread s.dec = [false] ++ [false, true, false, true, true, false, false] ∧
      LeadsTo s.dec.arena s.dec.cur [false] 0 ∧ (s.dec.arena.slot 0).kind = .leaf ∧
      Calm .dec ([false].length + 1) s.dec.port.io ∧ (s.dec.arena.slot 0).sym.toNat ≠ 256) ∧
    ∃ s : State, s.dec.err = .none ∧ s.dec.phase = .ready ∧
      unread s.dec = [true, true] ++ [false, false, false, false, false, false] ∧
      LeadsTo s.dec.arena s.dec.cur [true, true] 2 ∧ (s.dec.arena.slot 2).kind = .leaf ∧
      Calm .dec ([true, true].length + 1) s.dec.port.io ∧ (s.dec.arena.slot 2).sym.toNat = 256 :=
  ⟨⟨withDec (decReady [0x2C] 3), rfl, rfl, by decide +kernel, aab_paths.1, by decide +kernel, calmIo_calm (by decide),
      by decide +kernel⟩,
    withDec (decReady [0xC0] 3), rfl, rfl, by decide +kernel, aab_paths.2.2, by decide +kernel, calmIo_calm (by decide),
    by decide +kernel⟩

/-- DRUN on 2C, "aab" and the sentinel with two pad bits; on 01, seven "a" and then one bit of a code; and on a source that is
used up. -/
theorem witness_DrunDecodesToTheSentinel :
    (decReady [0x2C] 20).err = .none ∧ (decReady [0x2C] 20).phase = .ready ∧
    (decReady [0x2C] 20).cur = (decReady [0x2C] 20).arena.root ∧ (aabTree.slot 4).kind = .internal ∧
    (∀ b ∈ ([0x61, 0x61, 0x62] : List Byte), ∃ k, LeadsTo aabTree 4 ((aabCodes.get (byteSymbol b)).getD []) k ∧
      (aabTree.slot k).kind = .leaf ∧ (aabTree.slot k).sym.toNat = b.toNat) ∧
    unread (decReady [0x2C] 20) = ([0x61, 0x61, 0x62] : List Byte).flatMap (fun b =>
      (aabCodes.get (byteSymbol b)).getD []) ++ ([true, true] ++ [false, false]) ∧
    (LeadsTo aabTree 4 [true, true] 2 ∧ (aabTree.slot 2).kind = .leaf ∧ (aabTree.slot 2).sym.toNat = 256) ∧
    Calm .dec (8 + 3) (decReady [0x2C] 20).port.io ∧
    (unread (decReady [0x01] 20) = (List.replicate 7 (0x61 : Byte)).flatMap (fun b =>
        (aabCodes.get (byteSymbol b)).getD []) ++ [true] ∧
      LeadsTo aabTree 4 [true] 3 ∧ (aabTree.slot 3).kind = .internal ∧
      Calm .dec (8 + 7) (decReady [0x01] 20).port.io) ∧
    (unread (decReady [] 0) = [] ∧ (decReady [] 0).port.rp = (decReady [] 0).port.src.length ∧ LeadsTo aabTree 4 [] 4 ∧
      Calm .dec 0 (decReady [] 0).port.io) := by
  refine ⟨rfl, rfl, rfl, by decide +kernel, ?_, by decide +kernel, ⟨aab_paths.2.2, by decide +kernel⟩,
    calmIo_calm (by decide), ⟨by decide +kernel, ?_, by decide +kernel, calmIo_calm (by decide)⟩,
    ⟨rfl, rfl, rfl, calmIo_calm (by decide)⟩⟩
  · intro b hb
    simp only [List.mem_cons, List.not_mem_nil, or_false] at hb
    rcases hb with rfl | rfl | rfl
    · exact ⟨0, aab_paths.1, by decide +kernel⟩
    · exact ⟨0, aab_paths.1, by decide +kernel⟩
    · exact ⟨1, aab_paths.2.1, by decide +kernel⟩
  · simp only [LeadsTo]
    decide +kernel

theorem witness_DcloseCloses :
    State.reset.dec.phase ≠ .closed ∧ (latched .count .done).dec.phase ≠ .closed ∧
    (inPhase .count 0 .closed).dec.phase = .closed ∧ (latched .count .closed).dec.phase = .closed ∧
    ∃ t, exec .dclose (latched .count .closed) = .next t := ⟨by decide, by decide, rfl, rfl, _, rfl⟩

/-- ENC with a source to count, DEC after reset. -/
theorem fresh_inv : Inv (withEnc (encOn [0x61] 1)) where
  enc :=
    { rp_le := by decide
      eoi_end := by decide
      err_own := by decide
      acc_held := by decide
      closed_flushed := by decide
      tables := ⟨Table.get_fill _ _, rfl, rfl⟩ }
  dec :=
    { rp_le := by decide
      eoi_end := by decide
      err_own := by decide
      tables := ⟨fun _ => Table.get_fill _ _, rfl, rfl, rfl, rfl⟩ }

theorem witness_EveryStepKeepsTheInvariant :
    Inv (withEnc (encOn [0x61] 1)) ∧ ∃ t, step (withEnc (encOn [0x61] 1)) = .next t := ⟨fresh_inv, _, rfl⟩

theorem witness_NoStepStopsTheMachine : Inv (withEnc (encOn [0x61] 1)) := fresh_inv

/-- "aab" and the empty source, with the accesses of both units calm. -/
theorem witness_EncodeWritesTheArtifact :
    (∀ b : Byte, (encOn [0x61, 0x61, 0x62] 1162).port.src.count b ≤ 0xFFFFFFFF) ∧
    Calm .enc (34 * 3 + 1060) (encOn [0x61, 0x61, 0x62] 1162).port.io ∧
    (∀ b : Byte, (encOn [] 1060).port.src.count b ≤ 0xFFFFFFFF) ∧ Calm .enc (34 * 0 + 1060) (encOn [] 1060).port.io :=
  ⟨by decide +kernel, calmIo_calm (by decide), by decide +kernel, calmIo_calm (by decide)⟩

theorem witness_EncodeIsAFunctionOfTheSource :
    (encOn [0x61, 0x61, 0x62] 2000).port.src = (encOn [0x61, 0x61, 0x62] 1162).port.src ∧
    (∀ b : Byte, (encOn [0x61, 0x61, 0x62] 1162).port.src.count b ≤ 0xFFFFFFFF) ∧
    Calm .enc (34 * 3 + 1060) (encOn [0x61, 0x61, 0x62] 1162).port.io ∧
    Calm .enc (34 * 3 + 1060) (encOn [0x61, 0x61, 0x62] 2000).port.io :=
  ⟨rfl, by decide +kernel, calmIo_calm (by decide), calmIo_calm (by decide)⟩

theorem witness_DecodeOfEncodeIsTheSource :
    (∀ b : Byte, (encOn [0x61, 0x61, 0x62] 1162).port.src.count b ≤ 0xFFFFFFFF) ∧
    Calm .enc (34 * 3 + 1060) (encOn [0x61, 0x61, 0x62] 1162).port.io ∧
    Calm .dec (257 * 3 + 1284) (decOn [] 2055).port.io :=
  ⟨by decide +kernel, calmIo_calm (by decide), calmIo_calm (by decide)⟩

end Sys2Proof.Tests
end

section
/-! PROOFS. The fields the host reads (10_state.md R25, R31, R38). -/

namespace Sys2Proof.Machine

/-- Each bit of a status register (R25). -/
theorem statusWord_getLsbD (phase err : BitVec 4) (eoi lastBit : Bool) (i : Nat) :
    (statusWord phase eoi lastBit err).getLsbD i =
      if i < 4 then phase.getLsbD i
      else if i = 4 then eoi
      else if i = 5 then lastBit
      else if i < 8 then false
      else err.getLsbD (i - 8) := by
  show ((0#4) ++ err ++ (0#1) ++ BitVec.ofBool busy ++ BitVec.ofBool lastBit ++ BitVec.ofBool eoi ++ phase :
    BitVec (4 + 4 + 1 + 1 + 1 + 1 + 4)).getLsbD i = _
  simp only [BitVec.getLsbD_append]
  grind [busy]

/-- The fields of a status register (R25). -/
theorem statusWord_fields (phase err : BitVec 4) (eoi lastBit : Bool) :
    (statusWord phase eoi lastBit err).extractLsb' 0 4 = phase ∧
    (statusWord phase eoi lastBit err).getLsbD 4 = eoi ∧
    (statusWord phase eoi lastBit err).getLsbD 5 = lastBit ∧
    (statusWord phase eoi lastBit err).getLsbD 6 = false ∧
    (statusWord phase eoi lastBit err).getLsbD 7 = false ∧
    (statusWord phase eoi lastBit err).extractLsb' 8 4 = err ∧
    (statusWord phase eoi lastBit err).extractLsb' 12 4 = 0 := by
  refine ⟨?_, ?_, ?_, ?_, ?_, ?_, ?_⟩
  · ext i hi
    simp [statusWord_getLsbD, hi]
  · rw [statusWord_getLsbD]; rfl
  · rw [statusWord_getLsbD]; rfl
  · rw [statusWord_getLsbD]; rfl
  · rw [statusWord_getLsbD]; rfl
  · ext i hi
    have : ¬ 8 + i < 4 ∧ 8 + i ≠ 4 ∧ 8 + i ≠ 5 := by omega
    simp [statusWord_getLsbD, this, hi]
  · ext i hi
    have : ¬ 12 + i < 4 ∧ 12 + i ≠ 4 ∧ 12 + i ≠ 5 ∧ 4 ≤ 12 + i - 8 := by omega
    simp [statusWord_getLsbD, this]

end Sys2Proof.Machine

open Sys2Proof Sys2Proof.Machine Sys2Proof.Safety

/-- Settles O7: both registers are status words, and the numbers are those of the tables. -/
theorem statusRegistersShowTheFields : Obligations.StatusRegistersShowTheFields := by
  refine ⟨fun e => statusWord_fields .., fun d => statusWord_fields .., ?_, ?_, ?_, ?_, ?_⟩ <;> decide

/-- Settles O52: by the four kinds of slot. -/
theorem inspectionShowsTheArenaSlots : Obligations.InspectionShowsTheArenaSlots := by
  intro s i n kind hkind
  have hshow : slotValue n = .slot kind n.sym.toNat n.weight.toNat n.left.toNat n.right.toNat := by
    obtain ⟨k, sym, weight, left, right⟩ := n
    cases k <;> cases hkind <;> rfl
  constructor
  · rintro rfl
    exact congrArg (·, s) hshow
  · rintro rfl
    exact congrArg (·, s) hshow

end

section
/-! PROOFS. The frames of the commands (10_state.md R23, R26 to R34): what each command may change of its unit, said once, and
the statements about ports, tables and fields that follow from it. -/

namespace Sys2Proof.Machine

open Sys2Proof.Safety

section EncFrames

variable {i : Instr} {s t : State} {e e' : Enc}

/-- What an ENC command may change, ERR apart; a destination is only appended to. A command of DEC changes nothing of ENC. -/
def encFrame (i : Instr) (e e' : Enc) : Prop :=
  match i with
  | .einit => e' = e.init
  | .ecount | .ecountall => CountFrame e e'
  | .efinal =>
    e' = { e with phase := e'.phase, freq := e'.freq } ∧ ∀ x, x ≠ sentinel → e'.freq.get x = e.freq.get x
  | .ebuild => e' = { e with phase := e'.phase, arena := e'.arena }
  | .ederive => e' = { e with phase := e'.phase, code := e'.code }
  | .ehdr =>
    e' = { e with phase := e'.phase, port := { e.port with dst := e'.port.dst, io := e'.port.io } } ∧
    ∃ l, e'.port.dst = e.port.dst ++ l
  | .erewind => e' = { e with eoi := e'.eoi, port := { e.port with rp := e'.port.rp } }
  | .esym | .esymall => SymFrame e e'
  | .eeos | .eclose =>
    e' = { e with
      phase := e'.phase, acc := e'.acc, nbits := e'.nbits,
      port := { e.port with dst := e'.port.dst, io := e'.port.io } } ∧
    ∃ l, e'.port.dst = e.port.dst ++ l
  | .ewbit _ => PackFrame e e'
  | _ => e' = e

theorem State.setEnc_withErr (s : State) (c : ErrCode) (h : e = e') :
    s.setEnc { e with err := c } = s.setEnc { e' with err := c } := by rw [h]

/-- What an ENC command makes of the machine: ENC changes within the command's frame, and not at all outside the command's
phases, but for an error that may be latched; nothing else changes. -/
def EncChange (i : Instr) (s t : State) : Prop :=
  ∃ e c, encFrame i s.enc e ∧ (phaseLegal i s = true ∨ e = s.enc) ∧ t = s.setEnc { e with err := c }

theorem Enc.latch_eq (c : ErrCode) (e : Enc) : e.latch c = { e with err := (e.latch c).err } := by
  unfold Enc.latch; split <;> rfl

theorem encFrame_refl (hi : i ≠ .einit) (e : Enc) : encFrame i e e := by
  cases i with
  | einit => exact absurd rfl hi
  | ecount | ecountall => exact .refl e
  | esym | esymall => exact SymFrame.refl e
  | ewbit => exact PackFrame.refl e
  | efinal => exact ⟨rfl, fun _ _ => rfl⟩
  | ehdr | eeos | eclose => exact ⟨rfl, [], (List.append_nil _).symm⟩
  | _ => exact rfl

/-- A gated command changes what its pseudocode may change. -/
theorem encGate_change {body : Enc → Ended Enc Unit} (hi : i ≠ .einit) (h : encGate i body s = .next t)
    (hb : (body s.enc).Keeps (encFrame i s.enc)) : EncChange i s t := by
  rcases encGate_next i s t h with ⟨_, rfl⟩ | ⟨_, _, rfl⟩ | ⟨_, hp, ⟨e, a, hk, rfl⟩ | ⟨e, c, hk, rfl⟩⟩
  · exact ⟨t.enc, t.enc.err, encFrame_refl hi _, .inr rfl, rfl⟩
  · exact ⟨s.enc, .sequence, encFrame_refl hi _, .inr rfl, rfl⟩
  · rw [hk] at hb; exact ⟨e, e.err, hb, .inl hp, rfl⟩
  · rw [hk] at hb; exact ⟨e, (e.latch c).err, hb, .inl hp, by rw [← Enc.latch_eq]⟩

theorem ebuildBody_frame (e : Enc) : (ebuildBody e).Keeps (encFrame .ebuild e) := by
  unfold ebuildBody
  split
  · trivial
  · exact rfl

theorem deriveBody_frame (e : Enc) : (deriveBody e).Keeps (encFrame .ederive e) := by
  unfold deriveBody
  split
  · trivial
  · exact rfl

theorem headerBody_encFrame (e : Enc) : (headerBody e).Keeps (encFrame .ehdr e) := by
  have hframe : (e.write (headerBytes e.freq)).Keeps (encFrame .ehdr e) :=
    ((writeBytes_frame .enc (headerBytes e.freq) e.port).into fun p ⟨hp, hl⟩ => ⟨by rw [hp], hl⟩)
  exact hframe.bind (fun _ h => h) fun e' _ ⟨he, hl⟩ => ⟨by rw [he], hl⟩

theorem eosBody_frame (e : Enc) : (eosBody e).Keeps (encFrame .eeos e) := by
  unfold eosBody
  split
  · trivial
  · exact (emitBits_frame _ e).bind (fun _ ⟨he, hl⟩ => ⟨by rw [he], hl⟩) fun e' _ ⟨he, hl⟩ => ⟨by rw [he], hl⟩

theorem execEclose_change (h : execEclose s = .next t) : EncChange .eclose s t := by
  rcases execEclose_cases s with ⟨_, hc⟩ | ⟨hp, e, hk, hc⟩ <;> rw [hc] at h <;> cases h
  · exact ⟨s.enc, (s.enc.latch .sequence).err, encFrame_refl (by decide) _, .inr rfl, by rw [← Enc.latch_eq]⟩
  · have hlegal : phaseLegal .eclose s = true := decide_eq_true hp
    rcases closeBody_cases s.enc with ⟨_, hb⟩ | ⟨_, _, hb⟩ | ⟨_, _, hb⟩ <;> rw [hb] at hk <;> cases hk
    · exact ⟨{ s.enc with phase := .closed }, _, ⟨rfl, [], (List.append_nil _).symm⟩, .inl hlegal, rfl⟩
    · exact ⟨{ s.enc with
        phase := .closed, acc := 0, nbits := 0,
        port := { s.enc.port with
          dst := s.enc.port.dst ++ [toTop s.enc.acc s.enc.nbits.toNat], io := s.enc.port.io.tick } }, _,
        ⟨rfl, _, rfl⟩, .inl hlegal, rfl⟩
    · exact ⟨{ s.enc with
        phase := .closed, acc := 0, nbits := 0, port := { s.enc.port with io := s.enc.port.io.tick } }, _,
        ⟨rfl, [], (List.append_nil _).symm⟩, .inl hlegal, rfl⟩

/-- What each ENC command makes of the machine. -/
theorem exec_encChange (hu : i.unit = .enc) (h : exec i s = .next t) : EncChange i s t := by
  cases i with
  | einit => cases h; exact ⟨s.enc.init, .none, rfl, .inl rfl, rfl⟩
  | ecount => exact encGate_change (by decide) h (countBody_frame _)
  | ecountall => exact encGate_change (by decide) h (countAllBody_frame _)
  | efinal => exact encGate_change (by decide) h ⟨rfl, fun x hx => Table.get_set_ne _ hx.symm _⟩
  | ebuild => exact encGate_change (by decide) h (ebuildBody_frame _)
  | ederive => exact encGate_change (by decide) h (deriveBody_frame _)
  | ehdr => exact encGate_change (by decide) h (headerBody_encFrame _)
  | erewind => exact encGate_change (by decide) h rfl
  | esym => exact encGate_change (by decide) h (symBody_frame _)
  | esymall => exact encGate_change (by decide) h (symAllBody_frame _)
  | eeos => exact encGate_change (by decide) h (eosBody_frame _)
  | ewbit b => exact encGate_change nofun h (writeBit_frame b _)
  | eclose => exact execEclose_change h
  | dinit | dhdr | dbuild | drbit | dstep | dsymbol | drun | dclose => cases hu

/-- No ENC command changes its source (R34, 20_memory.md R61). -/
theorem encFrame_src (h : encFrame i e e') : e'.port.src = e.port.src := by
  cases i with
  | einit => rw [show e' = e.init from h]; rfl
  | ecount | ecountall | efinal | ehdr | esym | esymall | eeos | eclose | ewbit => exact congrArg (·.port.src) h.1
  | _ => exact congrArg (·.port.src) h

/-- The ENC commands that write to the destination (R34). -/
def writesEnc (i : Instr) : Prop :=
  i = .ehdr ∨ i = .esym ∨ i = .esymall ∨ i = .eeos ∨ i = .eclose ∨ ∃ b, i = .ewbit b

/-- Every ENC command but EINIT only appends to the destination, and only those that write do (20_memory.md R60, R68). -/
theorem encFrame_dst (hi : i ≠ .einit) (h : encFrame i e e') :
    ∃ l, e'.port.dst = e.port.dst ++ l ∧ (l ≠ [] → writesEnc i) := by
  have silent (hd : e'.port.dst = e.port.dst) : ∃ l, e'.port.dst = e.port.dst ++ l ∧ (l ≠ [] → writesEnc i) :=
    ⟨[], hd.trans (List.append_nil _).symm, absurd rfl⟩
  cases i with
  | einit => exact absurd rfl hi
  | ecount | ecountall | efinal => exact silent (congrArg (·.port.dst) h.1)
  | ehdr | esym | esymall | eeos | eclose | ewbit =>
    obtain ⟨l, hl⟩ := h.2
    exact ⟨l, hl, fun _ => by simp [writesEnc]⟩
  | _ => exact silent (congrArg (·.port.dst) h)

/-- Past COUNT no ENC command but EINIT changes the frequency table (R30). -/
theorem EncChange.freq (hi : i ≠ .einit) (hp : s.enc.phase ≠ .count) (h : EncChange i s t) :
    t.enc.freq = s.enc.freq := by
  obtain ⟨e, c, hf, hlegal, rfl⟩ := h
  have stays (hcount : phaseLegal i s = decide (s.enc.phase = .count)) : e.freq = s.enc.freq := by
    rw [hcount, decide_eq_true_eq] at hlegal
    rw [hlegal.resolve_left hp]
  cases i with
  | einit => exact absurd rfl hi
  | ecount | ecountall | efinal => exact stays rfl
  | ehdr | esym | esymall | eeos | eclose | ewbit => exact congrArg (·.freq) hf.1
  | _ => exact congrArg (·.freq) hf

end EncFrames

section DecFrames

variable {i : Instr} {s t : State} {d d' : Dec}

/-- What a DEC command may change, ERR apart; a destination is only appended to. A command of ENC changes nothing of DEC. -/
def decFrame (i : Instr) (d d' : Dec) : Prop :=
  match i with
  | .dinit => d' = d.init
  | .dhdr =>
    d' = { d with
      phase := d'.phase, eoi := d'.eoi, freq := d'.freq, port := { d.port with rp := d'.port.rp, io := d'.port.io } }
  | .dbuild => d' = { d with phase := d'.phase, arena := d'.arena, cur := d'.cur }
  | .drbit =>
    d' = { d with
      eoi := d'.eoi, lastBit := d'.lastBit, buf := d'.buf, cnt := d'.cnt,
      port := { d.port with rp := d'.port.rp, io := d'.port.io } }
  | .dstep | .dsymbol | .drun => WalkFrame d d'
  | .dclose => d' = { d with phase := d'.phase }
  | _ => d' = d

theorem State.setDec_withErr (s : State) (c : ErrCode) (h : d = d') :
    s.setDec { d with err := c } = s.setDec { d' with err := c } := by rw [h]

/-- What a DEC command makes of the machine: DEC changes within the command's frame, and not at all outside the command's
phases, but for an error that may be latched; nothing else changes. -/
def DecChange (i : Instr) (s t : State) : Prop :=
  ∃ d c, decFrame i s.dec d ∧ (phaseLegal i s = true ∨ d = s.dec) ∧ t = s.setDec { d with err := c }

theorem Dec.latch_eq (c : ErrCode) (d : Dec) : d.latch c = { d with err := (d.latch c).err } := by
  unfold Dec.latch; split <;> rfl

theorem decFrame_refl (hi : i ≠ .dinit) (d : Dec) : decFrame i d d := by
  cases i with
  | dinit => exact absurd rfl hi
  | dstep | dsymbol | drun => exact WalkFrame.refl d
  | _ => exact rfl

/-- A gated command changes what its pseudocode may change. -/
theorem decGate_change {body : Dec → Ended Dec Unit} (hi : i ≠ .dinit) (h : decGate i body s = .next t)
    (hb : (body s.dec).Keeps (decFrame i s.dec)) : DecChange i s t := by
  rcases decGate_next i s t h with ⟨_, rfl⟩ | ⟨_, _, rfl⟩ | ⟨_, hp, ⟨d, a, hk, rfl⟩ | ⟨d, c, hk, rfl⟩⟩
  · exact ⟨t.dec, t.dec.err, decFrame_refl hi _, .inr rfl, rfl⟩
  · exact ⟨s.dec, .sequence, decFrame_refl hi _, .inr rfl, rfl⟩
  · rw [hk] at hb; exact ⟨d, d.err, hb, .inl hp, rfl⟩
  · rw [hk] at hb; exact ⟨d, (d.latch c).err, hb, .inl hp, by rw [← Dec.latch_eq]⟩

theorem dhdrBody_frame (d : Dec) : (dhdrBody d).Keeps (decFrame .dhdr d) := by
  have hmono : ∀ d', HeaderFrame d d' → decFrame .dhdr d d' := fun d' h => by
    rw [HeaderFrame] at h
    rw [h]; exact rfl
  refine (readHeader_frame Config.hdrLen d).bind hmono fun d' bytes h => ?_
  rw [HeaderFrame] at h
  simp only
  split
  · show _ = _
    rw [h]
  · exact hmono d' h

theorem dbuildBody_frame (d : Dec) : (dbuildBody d).Keeps (decFrame .dbuild d) := by
  unfold dbuildBody
  split
  · trivial
  · exact rfl

theorem readBitBody_frame (d : Dec) : (readBitBody d).Keeps (decFrame .drbit d) := by
  have hmono : ∀ d', ReadFrame d d' → decFrame .drbit d d' := fun d' h => by
    rw [ReadFrame] at h
    rw [h]; exact rfl
  refine (readBit_frame d).bind hmono fun d' r h => ?_
  cases r with
  | none => exact hmono d' h
  | some b =>
    rw [ReadFrame] at h
    show _ = _
    rw [h]

theorem execDclose_change (h : execDclose s = .next t) : DecChange .dclose s t := by
  rcases execDclose_cases s with ⟨_, hc⟩ | ⟨hp, hc⟩ <;> rw [hc] at h <;> cases h
  · exact ⟨s.dec, (s.dec.latch .sequence).err, rfl, .inr rfl, by rw [← Dec.latch_eq]⟩
  · exact ⟨{ s.dec with phase := .closed }, _, rfl, .inl (decide_eq_true hp), rfl⟩

/-- What each DEC command makes of the machine. -/
theorem exec_decChange (hu : i.unit = .dec) (h : exec i s = .next t) : DecChange i s t := by
  cases i with
  | dinit => cases h; exact ⟨s.dec.init, .none, rfl, .inl rfl, rfl⟩
  | dhdr => exact decGate_change (by decide) h (dhdrBody_frame _)
  | dbuild => exact decGate_change (by decide) h (dbuildBody_frame _)
  | drbit => exact decGate_change (by decide) h (readBitBody_frame _)
  | dstep => exact decGate_change (body := fun d => (stepBody d).unit) (by decide) h (unit_keeps (stepBody_frame _))
  | dsymbol => exact decGate_change (body := fun d => (symbolBody d).unit) (by decide) h (unit_keeps (walk_frame _ _ _))
  | drun => exact decGate_change (body := fun d => (runBody d).unit) (by decide) h (unit_keeps (walk_frame _ _ _))
  | dclose => exact execDclose_change h
  | einit | ecount | ecountall | efinal | ebuild | ederive | ehdr | erewind | esym | esymall | eeos | ewbit | eclose =>
    cases hu

/-- No DEC command changes its source (R34, 20_memory.md R61). -/
theorem decFrame_src (h : decFrame i d d') : d'.port.src = d.port.src := by
  cases i with
  | dinit => rw [show d' = d.init from h]; rfl
  | dstep | dsymbol | drun => exact congrArg (·.port.src) h.1
  | _ => exact congrArg (·.port.src) h

/-- Every DEC command but DINIT only appends to the destination, and only the walker does, in phase READY (20_memory.md R60,
R68, 46_decoder.md R233). -/
theorem DecChange.dst (hi : i ≠ .dinit) (h : DecChange i s t) :
    ∃ l, t.dec.port.dst = s.dec.port.dst ++ l ∧
      (l ≠ [] → (i = .dstep ∨ i = .dsymbol ∨ i = .drun) ∧ s.dec.phase = .ready) := by
  obtain ⟨d, c, hf, hlegal, rfl⟩ := h
  rcases hlegal with hlegal | rfl
  · have silent (hd : d.port.dst = s.dec.port.dst) : ∃ l, d.port.dst = s.dec.port.dst ++ l ∧
        (l ≠ [] → (i = .dstep ∨ i = .dsymbol ∨ i = .drun) ∧ s.dec.phase = .ready) :=
      ⟨[], hd.trans (List.append_nil _).symm, absurd rfl⟩
    cases i with
    | dinit => exact absurd rfl hi
    | dstep | dsymbol | drun =>
      obtain ⟨l, hl⟩ := hf.2
      exact ⟨l, hl, fun _ => ⟨by simp, of_decide_eq_true hlegal⟩⟩
    | _ => exact silent (congrArg (·.port.dst) hf)
  · exact ⟨[], (List.append_nil _).symm, absurd rfl⟩

/-- Past EMPTY no DEC command but DINIT changes the frequency table (R30). -/
theorem DecChange.freq (hi : i ≠ .dinit) (hp : s.dec.phase ≠ .empty) (h : DecChange i s t) :
    t.dec.freq = s.dec.freq := by
  obtain ⟨d, c, hf, hlegal, rfl⟩ := h
  cases i with
  | dinit => exact absurd rfl hi
  | dhdr => rw [hlegal.resolve_left fun h => hp (of_decide_eq_true h)]; rfl
  | dstep | dsymbol | drun => exact congrArg (·.freq) hf.1
  | _ => exact congrArg (·.freq) hf

end DecFrames

end Sys2Proof.Machine

open Sys2Proof Sys2Proof.Machine Sys2Proof.Safety

/-- Settles O17: each command changes what its frame names, and ERR. -/
theorem encoderCommandsChangeOnlyTheirFields : Obligations.EncoderCommandsChangeOnlyTheirFields := by
  intro s t
  refine ⟨fun h => ?_, fun h => ?_, fun h => ?_, fun h => ?_, fun h => ?_, fun h => ?_, fun h => ?_, fun h => ?_,
    fun b h => ?_⟩
  · rcases h with h | h
    all_goals
      obtain ⟨e, c, ⟨he, hs⟩, -, rfl⟩ := exec_encChange rfl h
      exact ⟨s.setEnc_withErr c he, hs⟩
  · obtain ⟨e, c, ⟨he, hs⟩, -, rfl⟩ := exec_encChange rfl h
    exact ⟨s.setEnc_withErr c he, hs⟩
  · obtain ⟨e, c, he, -, rfl⟩ := exec_encChange rfl h
    exact s.setEnc_withErr c he
  · obtain ⟨e, c, he, -, rfl⟩ := exec_encChange rfl h
    exact s.setEnc_withErr c he
  · obtain ⟨e, c, ⟨he, -⟩, -, rfl⟩ := exec_encChange rfl h
    exact s.setEnc_withErr c he
  · obtain ⟨e, c, he, -, rfl⟩ := exec_encChange rfl h
    exact s.setEnc_withErr c he
  · rcases h with h | h
    all_goals
      obtain ⟨e, c, ⟨he, -⟩, -, rfl⟩ := exec_encChange rfl h
      exact s.setEnc_withErr c he
  · rcases h with h | h
    all_goals
      obtain ⟨e, c, ⟨he, -⟩, -, rfl⟩ := exec_encChange rfl h
      exact s.setEnc_withErr c he
  · obtain ⟨e, c, ⟨he, -⟩, -, rfl⟩ := exec_encChange rfl h
    exact s.setEnc_withErr c he

/-- Settles O18: each command changes what its frame names, and ERR. -/
theorem decoderCommandsChangeOnlyTheirFields : Obligations.DecoderCommandsChangeOnlyTheirFields := by
  intro s t
  refine ⟨fun h => ?_, fun h => ?_, fun h => ?_, fun h => ?_, fun h => ?_⟩
  · obtain ⟨d, c, hd, -, rfl⟩ := exec_decChange rfl h
    exact s.setDec_withErr c hd
  · obtain ⟨d, c, hd, -, rfl⟩ := exec_decChange rfl h
    exact s.setDec_withErr c hd
  · obtain ⟨d, c, hd, -, rfl⟩ := exec_decChange rfl h
    exact s.setDec_withErr c hd
  · rcases h with h | h | h
    all_goals
      obtain ⟨d, c, ⟨hd, -⟩, -, rfl⟩ := exec_decChange rfl h
      exact s.setDec_withErr c hd
  · obtain ⟨d, c, hd, -, rfl⟩ := exec_decChange rfl h
    exact s.setDec_withErr c hd

/-- Settles O15: no frame holds a source, every frame but that of INIT only appends to a destination, and the other unit's ports
stay as they are. -/
theorem portsAreReadInPlaceAndAppendedTo : Obligations.PortsAreReadInPlaceAndAppendedTo := by
  intro i s t h
  cases hu : i.unit with
  | enc =>
    obtain ⟨e, c, hf, -, rfl⟩ := exec_encChange hu h
    refine ⟨⟨encFrame_src (e' := e) hf, rfl⟩, fun hi => encFrame_dst (e' := e) hi hf, ?_,
      fun _ => ⟨[], (List.append_nil _).symm, absurd rfl⟩, ?_⟩
    · rintro rfl
      rw [show e = s.enc.init from hf]; rfl
    · rintro rfl
      cases hu
  | dec =>
    have hchange := exec_decChange hu h
    refine ⟨?_, fun _ => ?_, ?_, fun hi => hchange.dst hi, ?_⟩ <;> obtain ⟨d, c, hf, -, rfl⟩ := hchange
    · exact ⟨rfl, decFrame_src (d' := d) hf⟩
    · exact ⟨[], (List.append_nil _).symm, absurd rfl⟩
    · rintro rfl
      cases hu
    · rintro rfl
      rw [show d = s.dec.init from hf]; rfl

/-- Settles O16: past COUNT and EMPTY the counting commands are out of phase, and no other frame holds the table. -/
theorem frequencyTableIsFrozenAfterCounting : Obligations.FrequencyTableIsFrozenAfterCounting := by
  intro i s t h
  cases hu : i.unit with
  | enc =>
    have hchange := exec_encChange hu h
    refine ⟨fun hp hi => hchange.freq hi hp, fun _ _ => ?_⟩
    obtain ⟨e, c, -, -, rfl⟩ := hchange
    rfl
  | dec =>
    have hchange := exec_decChange hu h
    refine ⟨fun _ _ => ?_, fun hp hi => hchange.freq hi hp⟩
    obtain ⟨d, c, -, -, rfl⟩ := hchange
    rfl

end

section
/-! PROOFS. The invariant of the machine between commands (10_state.md R39): what each write to a field leaves of it, each
stretch of pseudocode, each command, and the step. -/

namespace Sys2Proof.Machine

section Endings

variable {σ α β : Type}

/-- How a stretch of pseudocode ends, said of its result and of its error as well: running through leaves `P`, a raise `Q`.
`Ended.Keeps` is the case of one predicate on the state alone. -/
def Ended.Meets (P : σ → α → Prop) (Q : σ → ErrCode → Prop) : Ended σ α → Prop
  | .ok s a => P s a
  | .raised s c => Q s c
  | .stuck _ => True

theorem Ended.Meets.bind {P : σ → α → Prop} {R : σ → β → Prop} {Q : σ → ErrCode → Prop} {x : Ended σ α}
    {k : σ → α → Ended σ β} (hx : x.Meets P Q) (hk : ∀ s a, P s a → (k s a).Meets R Q) : (x.bind k).Meets R Q := by
  cases x with
  | ok s a => exact hk s a hx
  | raised s c => exact hx
  | stuck f => trivial

theorem Ended.Meets.mono {P R : σ → α → Prop} {Q S : σ → ErrCode → Prop} {x : Ended σ α} (hx : x.Meets P Q)
    (hP : ∀ s a, P s a → R s a) (hQ : ∀ s c, Q s c → S s c) : x.Meets R S := by
  cases x with
  | ok s a => exact hP s a hx
  | raised s c => exact hQ s c hx
  | stuck f => trivial

/-- A loop whose body leaves `P` where it stops, and its own invariant `I` where it goes on, leaves `P`. -/
theorem repeatUntil_meets {I : σ → Prop} {P : σ → α → Prop} {Q : σ → ErrCode → Prop} {body : σ → Ended σ α}
    {stop : σ → α → Bool}
    (hbody : ∀ s, I s → (body s).Meets (fun s' a => if stop s' a then P s' a else I s') Q) (n : Nat) (s : σ) (hs : I s) :
    (repeatUntil body stop n s).Meets P Q := by
  induction n generalizing s with
  | zero => trivial
  | succ n ih =>
    refine (hbody s hs).bind fun s' a h => ?_
    split at h
    · rw [if_pos ‹_›]; exact h
    · rw [if_neg ‹_›]; exact ih s' h

/-- Where a command's pseudocode runs through with `P`, and raises with `P` once the error is latched, the command ends with
`P`, and it changes nothing but its unit. -/
theorem encGate_meets {P : Enc → Prop} {i : Instr} {body : Enc → Ended Enc Unit} {s t : State}
    (h : encGate i body s = .next t) (hs : P s.enc) (hseq : P (s.enc.latch .sequence))
    (hb : s.enc.err = .none → phaseLegal i s = true →
      (body s.enc).Meets (fun e _ => P e) fun e c => P (e.latch c)) : t = s.setEnc t.enc ∧ P t.enc := by
  rcases encGate_next i s t h with ⟨_, rfl⟩ | ⟨he, _, rfl⟩ | ⟨he, hp, ⟨e, a, hk, rfl⟩ | ⟨e, c, hk, rfl⟩⟩
  · exact ⟨rfl, hs⟩
  · exact ⟨rfl, by rwa [Enc.latch_of_none _ _ he] at hseq⟩
  · have := hb he hp; rw [hk] at this; exact ⟨rfl, this⟩
  · have := hb he hp; rw [hk] at this; exact ⟨rfl, this⟩

/-- The same of a DEC command. -/
theorem decGate_meets {P : Dec → Prop} {i : Instr} {body : Dec → Ended Dec Unit} {s t : State}
    (h : decGate i body s = .next t) (hs : P s.dec) (hseq : P (s.dec.latch .sequence))
    (hb : s.dec.err = .none → phaseLegal i s = true →
      (body s.dec).Meets (fun d _ => P d) fun d c => P (d.latch c)) : t = s.setDec t.dec ∧ P t.dec := by
  rcases decGate_next i s t h with ⟨_, rfl⟩ | ⟨he, _, rfl⟩ | ⟨he, hp, ⟨d, a, hk, rfl⟩ | ⟨d, c, hk, rfl⟩⟩
  · exact ⟨rfl, hs⟩
  · exact ⟨rfl, by rwa [Dec.latch_of_none _ _ he] at hseq⟩
  · have := hb he hp; rw [hk] at this; exact ⟨rfl, this⟩
  · have := hb he hp; rw [hk] at this; exact ⟨rfl, this⟩

/-- Everything a step can do when it answers a next state (60_exceptions.md R264, R274): nothing with no word written, else
the command the word decodes to, or ILLEGAL, on the machine with the word taken. -/
theorem step_next {s t : State} (h : step s = .next t) :
    (s.cmd = [] ∧ t = s) ∨
    (∃ w rest i, s.cmd = w :: rest ∧ decode w = .command i ∧ exec i { s with cmd := rest } = .next t) ∨
    (∃ w rest u, s.cmd = w :: rest ∧ decode w = .illegal u ∧ t = illegalWord u { s with cmd := rest }) := by
  unfold step nextWord at h
  cases hc : s.cmd with
  | nil =>
    simp only [hc, Host.Outcome.next.injEq] at h
    exact .inl ⟨rfl, h.symm⟩
  | cons w rest =>
    simp only [hc] at h
    cases hd : decode w with
    | command i =>
      simp only [hd] at h
      exact .inr (.inl ⟨w, rest, i, rfl, hd, h⟩)
    | illegal u =>
      simp only [hd, Host.Outcome.next.injEq] at h
      exact .inr (.inr ⟨w, rest, u, rfl, hd, h.symm⟩)

/-- Writing bytes raises no error but IO (20_memory.md R63, R64). -/
theorem writeBytes_raises {u : UnitId} {vs : List Byte} {p p' : Port} {c : ErrCode}
    (h : writeBytes u vs p = .raised p' c) : c = .io := by
  induction vs generalizing p with
  | nil => cases h
  | cons v vs ih =>
    rw [writeBytes] at h
    cases hio : p.io.answerAt u .write p.dst.length 0 with
    | true => rw [memWrite_fault _ _ _ hio] at h; cases h; rfl
    | false => rw [memWrite_ok _ _ _ hio] at h; exact ih h

end Endings

end Sys2Proof.Machine

namespace Sys2Proof.Safety

open Sys2Proof.Machine

section EncInvariant

/-! What each write to a field of ENC leaves of the invariant. -/

variable {e : Enc}

theorem encTables_count (hp : e.phase = .count) : EncTables e ↔ EncOpen e := by simp only [EncTables, hp]

theorem encTables_final (hp : e.phase = .final) : EncTables e ↔ EncFrozen e := by simp only [EncTables, hp]

theorem encTables_built (hp : e.phase = .built) : EncTables e ↔ EncTreed e := by simp only [EncTables, hp]

theorem encTables_coded (hp : e.phase = .ready ∨ e.phase = .payload ∨ e.phase = .ended) :
    EncTables e ↔ EncCoded e := by
  rcases hp with hp | hp | hp <;> simp only [EncTables, hp]

theorem encTables_closed (hp : e.phase = .closed) :
    EncTables e ↔ EncOpen e ∨ EncFrozen e ∨ EncTreed e ∨ EncCoded e := by simp only [EncTables, hp]

/-- The tables of every phase are tables a CLOSED unit may have. -/
theorem EncTables.close (h : EncTables e) : EncTables { e with phase := .closed } := by
  rw [encTables_closed rfl]
  cases hp : e.phase with
  | count => exact .inl ((encTables_count hp).1 h)
  | final => exact .inr (.inl ((encTables_final hp).1 h))
  | built => exact .inr (.inr (.inl ((encTables_built hp).1 h)))
  | ready => exact .inr (.inr (.inr ((encTables_coded (.inl hp)).1 h)))
  | payload => exact .inr (.inr (.inr ((encTables_coded (.inr (.inl hp))).1 h)))
  | ended => exact .inr (.inr (.inr ((encTables_coded (.inr (.inr hp))).1 h)))
  | closed => exact (encTables_closed hp).1 h

theorem EncInv.setErr (h : EncInv e) {c : ErrCode} (hc : c ∈ encErrors) : EncInv { e with err := c } :=
  { h with err_own := hc }

theorem EncInv.latch (h : EncInv e) {c : ErrCode} (hc : c ∈ encErrors) : EncInv (e.latch c) := by
  unfold Enc.latch
  split
  · exact h.setErr hc
  · exact h

theorem EncInv.eoi (h : EncInv e) (hend : e.port.src.length ≤ e.port.rp) : EncInv { e with eoi := true } :=
  { h with eoi_end := fun _ => Nat.le_antisymm h.rp_le hend }

theorem EncInv.io (h : EncInv e) (io : IoInput) : EncInv { e with port := { e.port with io := io } } := { h with }

/-- A byte at `RP` shows that EOI is not set, so moving past it leaves both in step. -/
theorem EncInv.advance (h : EncInv e) {b : Byte} (hb : e.port.src[e.port.rp]? = some b) (io : IoInput) :
    EncInv { e with port := { e.port with rp := e.port.rp + 1, io := io } } :=
  have hlt : e.port.rp < e.port.src.length := (List.getElem?_eq_some_iff.1 hb).1
  { h with
    rp_le := hlt
    eoi_end := fun he => absurd (h.eoi_end he) (Nat.ne_of_lt hlt) }

theorem EncInv.rewind (h : EncInv e) : EncInv { e with port := { e.port with rp := 0 }, eoi := false } :=
  { h with
    rp_le := Nat.zero_le _
    eoi_end := nofun }

/-- The bit-writer's registers and the destination may change in any phase but CLOSED. -/
theorem EncInv.pack (h : EncInv e) (hp : e.phase ≠ .closed) {acc : BitVec 8} {nbits : BitVec 3}
    (hacc : acc.toNat < 2 ^ nbits.toNat) (dst : List Byte) (io : IoInput) :
    EncInv { e with acc := acc, nbits := nbits, port := { e.port with dst := dst, io := io } } :=
  { h with
    acc_held := hacc
    closed_flushed := fun hc => absurd hc hp }

theorem EncInv.countByte (h : EncInv e) (hp : e.phase = .count) (b : Byte) (c : Count) :
    EncInv { e with freq := e.freq.set (byteSymbol b) c } :=
  have ⟨hs, ha, hc⟩ := (encTables_count hp).1 h.tables
  { h with
    tables := (encTables_count (e := { e with freq := e.freq.set (byteSymbol b) c }) hp).2
      ⟨(Table.get_set_ne _ (sentinel_ne_byteSymbol b) _).trans hs, ha, hc⟩ }

theorem EncInv.close (h : EncInv e) (hn : e.nbits = 0) : EncInv { e with phase := .closed } :=
  { h with
    closed_flushed := fun _ => hn
    tables := h.tables.close }

theorem EncInv.init (e : Enc) : EncInv e.init where
  rp_le := Nat.zero_le _
  eoi_end := nofun
  err_own := List.mem_cons_self
  acc_held := Nat.two_pow_pos _
  closed_flushed := nofun
  tables := (encTables_count rfl).2 ⟨Table.get_fill _ _, rfl, rfl⟩

/-- A stretch of ENC's pseudocode runs through into phase `p` with the invariant, or raises an error that leaves the
invariant once it is latched. -/
def EncSound {α : Type} (p : EncPhase) (x : Ended Enc α) : Prop :=
  x.Meets (fun e _ => EncInv e ∧ e.phase = p) fun e c => EncInv (e.latch c)

theorem writeBit_sound (b : Bool) (h : EncInv e) (hp : e.phase ≠ .closed) : EncSound e.phase (writeBit b e) := by
  rcases writeBit_cases b e with ⟨hk, hw⟩ | ⟨_, _, hw⟩ | ⟨_, _, hw⟩ <;> rw [hw]
  · have hnb : (e.nbits + 1).toNat = e.nbits.toNat + 1 := by
      have h1 : (1 : BitVec 3).toNat = 1 := rfl
      rw [BitVec.toNat_add, h1]; omega
    exact ⟨h.pack hp (by rw [hnb]; exact shiftIn_lt b e.acc h.acc_held) e.port.dst e.port.io, rfl⟩
  · exact ⟨h.pack hp (by decide) _ _, rfl⟩
  · exact (h.pack hp (by decide) _ _).latch (by decide)

theorem emitBits_sound {p : EncPhase} (c : Bits) (h : EncInv e) (he : e.phase = p) (hp : p ≠ .closed) :
    EncSound p (emitBits c e) := by
  induction c generalizing e with
  | nil => exact ⟨h, he⟩
  | cons b bs ih =>
    have hw := writeBit_sound b h (he ▸ hp)
    rw [he] at hw
    exact hw.bind fun e' _ h' => ih h'.1 h'.2

theorem countBody_sound (h : EncInv e) (hp : e.phase = .count) : EncSound .count (countBody e) := by
  rcases countBody_cases e with ⟨hend, hk⟩ | ⟨b, _, _, hk⟩ | ⟨b, hb, _, _, hk⟩ | ⟨b, hb, _, _, hk⟩ <;> rw [hk]
  · exact ⟨h.eoi hend, hp⟩
  · exact (h.io _).latch (by decide)
  · exact (h.advance hb _).latch (by decide)
  · exact ⟨(h.advance hb _).countByte hp b _, hp⟩

theorem symBody_sound (h : EncInv e) (hp : e.phase = .payload) : EncSound .payload (symBody e) := by
  rcases symBody_cases e with ⟨hend, hk⟩ | ⟨b, _, _, hk⟩ | ⟨b, hb, _, _, hk⟩ | ⟨b, p, hb, _, _, hk⟩ <;> rw [hk]
  · exact ⟨h.eoi hend, hp⟩
  · exact (h.io _).latch (by decide)
  · exact (h.advance hb _).latch (by decide)
  · exact emitBits_sound p (h.advance hb _) hp (by decide)

/-- A bulk command's loop is sound where its body is. -/
theorem repeatUntil_encSound {p : EncPhase} {body : Enc → Ended Enc Unit} {stop : Enc → Unit → Bool}
    (hbody : ∀ e, EncInv e → e.phase = p → EncSound p (body e)) (n : Nat) (h : EncInv e) (hp : e.phase = p) :
    EncSound p (repeatUntil body stop n e) :=
  repeatUntil_meets (I := fun e => EncInv e ∧ e.phase = p)
    (fun e' h' => (hbody e' h'.1 h'.2).mono (fun _ _ hs => by split <;> exact hs) fun _ _ hc => hc) n e ⟨h, hp⟩

theorem finalBody_sound (h : EncInv e) (hp : e.phase = .count) : EncSound .final (finalBody e) :=
  have ⟨_, ha, hc⟩ := (encTables_count hp).1 h.tables
  ⟨{ h with
      closed_flushed := nofun
      tables := (encTables_final rfl).2 ⟨Table.get_set_self _ _ _, ha, hc⟩ }, rfl⟩

theorem ebuildBody_sound (h : EncInv e) (hp : e.phase = .final) : EncSound .built (ebuildBody e) := by
  obtain ⟨hs, _, hc⟩ := (encTables_final hp).1 h.tables
  obtain ⟨a, hbuild, htree, _⟩ := treeBuild_some e.freq (by rw [hs]; decide)
  simp only [ebuildBody, hbuild]
  exact ⟨{ h with
    closed_flushed := nofun
    tables := (encTables_built rfl).2 ⟨hs, htree, hc⟩ }, rfl⟩

theorem deriveBody_sound (h : EncInv e) (hp : e.phase = .built) : EncSound .ready (deriveBody e) := by
  obtain ⟨hs, htree, _⟩ := (encTables_built hp).1 h.tables
  obtain ⟨codes, hd, _⟩ := derive_some htree
  simp only [deriveBody, hd]
  exact ⟨{ h with
    closed_flushed := nofun
    tables := (encTables_coded (.inl rfl)).2 ⟨hs, htree, derive_coded htree hd⟩ }, rfl⟩

theorem Enc.write_sound (vs : List Byte) (h : EncInv e) (hp : e.phase ≠ .closed) : EncSound e.phase (e.write vs) := by
  have hframe := writeBytes_frame .enc vs e.port
  unfold Enc.write
  cases hw : writeBytes .enc vs e.port with
  | ok p _ =>
    rw [hw] at hframe
    rw [hframe.1]
    exact ⟨h.pack hp h.acc_held _ _, rfl⟩
  | raised p c =>
    rw [hw] at hframe
    rw [hframe.1, writeBytes_raises hw]
    exact (h.pack hp h.acc_held _ _).latch (by decide)
  | stuck f => trivial

theorem headerBody_sound (h : EncInv e) (hp : e.phase = .ready) : EncSound .payload (headerBody e) :=
  (Enc.write_sound _ h (by rw [hp]; decide)).bind fun e' _ ⟨h', hp'⟩ =>
    have hcoded := (encTables_coded (.inl (hp'.trans hp))).1 h'.tables
    ⟨{ h' with
      closed_flushed := nofun
      tables := (encTables_coded (.inr (.inl rfl))).2 hcoded }, rfl⟩

theorem eosBody_sound (h : EncInv e) (hp : e.phase = .payload) : EncSound .ended (eosBody e) := by
  unfold eosBody
  split
  · trivial
  · refine (emitBits_sound _ h hp (by decide)).bind fun e' _ ⟨h', hp'⟩ => ?_
    have hcoded := (encTables_coded (.inr (.inl hp'))).1 h'.tables
    exact ⟨{ h' with
      closed_flushed := nofun
      tables := (encTables_coded (.inr (.inr rfl))).2 hcoded }, rfl⟩

theorem closeBody_sound (h : EncInv e) (hp : e.phase ≠ .closed) : EncSound .closed (closeBody e) := by
  rcases closeBody_cases e with ⟨hn, hk⟩ | ⟨_, _, hk⟩ | ⟨_, _, hk⟩ <;> rw [hk]
  · exact ⟨h.close hn, rfl⟩
  · exact ⟨(h.pack hp (by decide) _ _).close rfl, rfl⟩
  · have hclosed := (h.pack (acc := 0) (nbits := 0) hp (by decide) e.port.dst e.port.io.tick).close rfl
    have herr : (if e.err = .none then .io else e.err) ∈ encErrors := by
      split
      · decide
      · exact h.err_own
    exact ⟨hclosed.setErr herr, rfl⟩

/-- A gated ENC command whose pseudocode is sound keeps the invariant, and changes nothing but ENC. -/
theorem encGate_sound {i : Instr} {body : Enc → Ended Enc Unit} {s t : State} {p : EncPhase} (h : EncInv s.enc)
    (hx : encGate i body s = .next t) (hb : phaseLegal i s = true → EncSound p (body s.enc)) :
    t = s.setEnc t.enc ∧ EncInv t.enc :=
  encGate_meets hx h (h.latch (by decide)) fun _ hp => (hb hp).mono (fun _ _ h' => h'.1) fun _ _ h' => h'

theorem execEclose_sound {s t : State} (h : EncInv s.enc) (hx : execEclose s = .next t) :
    t = s.setEnc t.enc ∧ EncInv t.enc := by
  rcases execEclose_cases s with ⟨_, hc⟩ | ⟨hp, e, hk, hc⟩ <;> rw [hc] at hx <;> cases hx
  · exact ⟨rfl, h.latch (by decide)⟩
  · have hs := closeBody_sound h hp
    rw [hk] at hs
    exact ⟨rfl, hs.1⟩

/-- Every ENC command keeps the invariant of ENC, and changes nothing but ENC. -/
theorem exec_keeps_encInv {i : Instr} {s t : State} (hu : i.unit = .enc) (h : EncInv s.enc) (hx : exec i s = .next t) :
    t = s.setEnc t.enc ∧ EncInv t.enc := by
  cases i with
  | einit => cases hx; exact ⟨rfl, .init _⟩
  | ecount => exact encGate_sound h hx fun hp => countBody_sound h (of_decide_eq_true hp)
  | ecountall =>
    exact encGate_sound h hx fun hp =>
      repeatUntil_encSound (fun _ => countBody_sound) _ h (of_decide_eq_true hp)
  | efinal => exact encGate_sound h hx fun hp => finalBody_sound h (of_decide_eq_true hp)
  | ebuild => exact encGate_sound h hx fun hp => ebuildBody_sound h (of_decide_eq_true hp)
  | ederive => exact encGate_sound h hx fun hp => deriveBody_sound h (of_decide_eq_true hp)
  | ehdr => exact encGate_sound h hx fun hp => headerBody_sound h (of_decide_eq_true hp).1
  | erewind => exact encGate_sound h hx fun _ => ⟨h.rewind, rfl⟩
  | esym => exact encGate_sound h hx fun hp => symBody_sound h (of_decide_eq_true hp)
  | esymall =>
    exact encGate_sound h hx fun hp => repeatUntil_encSound (fun _ => symBody_sound) _ h (of_decide_eq_true hp)
  | eeos => exact encGate_sound h hx fun hp => eosBody_sound h (of_decide_eq_true hp)
  | ewbit b => exact encGate_sound h hx fun hp => writeBit_sound b h (of_decide_eq_true hp)
  | eclose => exact execEclose_sound h hx
  | dinit | dhdr | dbuild | drbit | dstep | dsymbol | drun | dclose => cases hu

end EncInvariant

section DecInvariant

/-! What each write to a field of DEC leaves of the invariant. -/

variable {d : Dec}

theorem decTables_empty (hp : d.phase = .empty) : DecTables d ↔ (∀ s, d.freq.get s = 0) ∧ DecBare d := by
  simp only [DecTables, hp]

theorem decTables_loaded (hp : d.phase = .loaded) : DecTables d ↔ d.freq.get sentinel = 1 ∧ DecBare d := by
  simp only [DecTables, hp]

theorem decTables_ready (hp : d.phase = .ready) :
    DecTables d ↔ DecTreed d ∧ (d.err = .none → (d.arena.slot d.cur).kind = .internal) := by
  simp only [DecTables, hp]

theorem decTables_done (hp : d.phase = .done) : DecTables d ↔ DecTreed d ∧ d.arena.slot d.cur = leafNode sentinel 1 := by
  simp only [DecTables, hp]

theorem decTables_closed (hp : d.phase = .closed) : DecTables d ↔ DecBare d ∨ DecTreed d := by
  simp only [DecTables, hp]

/-- Only phase READY says more of a unit with no error than of one with an error. -/
theorem DecTables.setErr (h : DecTables d) {c : ErrCode} (hc : c ≠ .none) : DecTables { d with err := c } := by
  cases hp : d.phase with
  | empty => exact (decTables_empty rfl).2 ((decTables_empty hp).1 h)
  | loaded => exact (decTables_loaded rfl).2 ((decTables_loaded hp).1 h)
  | ready => exact (decTables_ready rfl).2 ⟨((decTables_ready hp).1 h).1, fun he => absurd he hc⟩
  | done => exact (decTables_done rfl).2 ((decTables_done hp).1 h)
  | closed => exact (decTables_closed rfl).2 ((decTables_closed hp).1 h)

theorem DecTables.close (h : DecTables d) : DecTables { d with phase := .closed } := by
  rw [decTables_closed rfl]
  cases hp : d.phase with
  | empty => exact .inl ((decTables_empty hp).1 h).2
  | loaded => exact .inl ((decTables_loaded hp).1 h).2
  | ready => exact .inr ((decTables_ready hp).1 h).1
  | done => exact .inr ((decTables_done hp).1 h).1
  | closed => exact (decTables_closed hp).1 h

theorem DecInv.latch (h : DecInv d) {c : ErrCode} (hc : c ∈ decErrors) (hne : c ≠ .none) : DecInv (d.latch c) := by
  unfold Dec.latch
  split
  · exact { h with
      err_own := hc
      tables := h.tables.setErr hne }
  · exact h

theorem DecInv.eoi (h : DecInv d) (hend : d.port.src.length ≤ d.port.rp) : DecInv { d with eoi := true } :=
  { h with eoi_end := fun _ => Nat.le_antisymm h.rp_le hend }

theorem DecInv.io (h : DecInv d) (io : IoInput) : DecInv { d with port := { d.port with io := io } } := { h with }

/-- A byte at `RP` shows that EOI is not set, so moving past it leaves both in step. -/
theorem DecInv.advance (h : DecInv d) {b : Byte} (hb : d.port.src[d.port.rp]? = some b) (io : IoInput) :
    DecInv { d with port := { d.port with rp := d.port.rp + 1, io := io } } :=
  have hlt : d.port.rp < d.port.src.length := (List.getElem?_eq_some_iff.1 hb).1
  { h with
    rp_le := hlt
    eoi_end := fun he => absurd (h.eoi_end he) (Nat.ne_of_lt hlt) }

/-- The bit-reader's registers may change once there is a tree. -/
theorem DecInv.buffer (h : DecInv d) (hp : d.phase = .ready) (buf : Byte) (cnt : Fin 9) :
    DecInv { d with buf := buf, cnt := cnt } :=
  { h with tables := (decTables_ready (d := { d with buf := buf, cnt := cnt }) hp).2 ((decTables_ready hp).1 h.tables) }

theorem DecInv.close (h : DecInv d) : DecInv { d with phase := .closed } := { h with tables := h.tables.close }

theorem DecInv.init (d : Dec) : DecInv d.init where
  rp_le := Nat.zero_le _
  eoi_end := nofun
  err_own := List.mem_cons_self
  tables := (decTables_empty rfl).2 ⟨fun _ => Table.get_fill _ _, rfl, rfl, rfl, rfl⟩

/-- A stretch of DEC's pseudocode runs through into phase `p` with the invariant and no error, or raises an error that leaves
the invariant once it is latched. -/
def DecSound {α : Type} (p : DecPhase) (x : Ended Dec α) : Prop :=
  x.Meets (fun d _ => DecInv d ∧ d.phase = p ∧ d.err = .none) fun d c => DecInv (d.latch c)

theorem Dec.nextByte_sound {p : DecPhase} (h : DecInv d) (hp : d.phase = p) (he : d.err = .none) :
    DecSound p d.nextByte := by
  rcases d.nextByte_cases with ⟨hend, hk⟩ | ⟨b, hb, _, hk⟩ | ⟨b, _, _, hk⟩ <;> rw [hk]
  · exact ⟨h.eoi hend, hp, he⟩
  · exact ⟨h.advance hb _, hp, he⟩
  · exact (h.io _).latch (by decide) (by decide)

theorem readHeader_sound {p : DecPhase} (n : Nat) (h : DecInv d) (hp : d.phase = p) (he : d.err = .none) :
    DecSound p (readHeader n d) := by
  induction n generalizing d with
  | zero => exact ⟨h, hp, he⟩
  | succ n ih =>
    refine (Dec.nextByte_sound h hp he).bind fun d' r ⟨h', hp', he'⟩ => ?_
    cases r with
    | none => exact h'.latch (by decide) (by decide)
    | some b => exact (ih h' hp' he').bind fun _ _ hd => hd

theorem dhdrBody_sound (h : DecInv d) (hp : d.phase = .empty) (he : d.err = .none) : DecSound .loaded (dhdrBody d) := by
  refine (readHeader_sound Config.hdrLen h hp he).bind fun d' bytes ⟨h', hp', he'⟩ => ?_
  obtain ⟨_, hbare⟩ := (decTables_empty hp').1 h'.tables
  simp only
  split
  · exact ⟨{ h' with tables := (decTables_loaded rfl).2 ⟨‹_›, hbare⟩ }, rfl, he'⟩
  · exact h'.latch (by decide) (by decide)

theorem dbuildBody_sound (h : DecInv d) (hp : d.phase = .loaded) (he : d.err = .none) :
    DecSound .ready (dbuildBody d) := by
  obtain ⟨hs, _⟩ := (decTables_loaded hp).1 h.tables
  obtain ⟨a, hbuild, htree, _⟩ := treeBuild_some d.freq (by rw [hs]; decide)
  have hroot : a.root.toNat < a.nnodes.toNat := by have := htree.root_last; omega
  simp only [dbuildBody, hbuild]
  exact ⟨{ h with tables := (decTables_ready rfl).2 ⟨⟨hs, htree, hroot⟩, fun _ => htree.root_internal⟩ }, rfl, he⟩

theorem readBit_sound (h : DecInv d) (hp : d.phase = .ready) (he : d.err = .none) : DecSound .ready (readBit d) := by
  rcases readBit_cases d with ⟨_, hk⟩ | ⟨_, hend, hk⟩ | ⟨_, b, hb, _, hk⟩ | ⟨_, b, _, _, hk⟩ <;> rw [hk]
  · exact ⟨h.buffer hp _ _, hp, he⟩
  · exact ⟨h.eoi hend, hp, he⟩
  · exact ⟨(h.advance hb _).buffer hp _ _, hp, he⟩
  · exact (h.io _).latch (by decide) (by decide)

theorem readBitBody_sound (h : DecInv d) (hp : d.phase = .ready) (he : d.err = .none) :
    DecSound .ready (readBitBody d) := by
  refine (readBit_sound h hp he).bind fun d' r ⟨h', hp', he'⟩ => ?_
  cases r with
  | none => exact ⟨h', hp', he'⟩
  | some b => exact ⟨{ h' with }, hp', he'⟩

/-- The walker may move to any slot of the tree, to an INTERNAL one where no error is latched, and the destination may
change. -/
theorem DecInv.walk (h : DecInv d) (hp : d.phase = .ready) {n : NodeId} (hn : n.toNat < d.arena.nnodes.toNat)
    (hw : d.err = .none → (d.arena.slot n).kind = .internal) (dst : List Byte) (io : IoInput) :
    DecInv { d with cur := n, port := { d.port with dst := dst, io := io } } :=
  have ⟨⟨hs, htree, _⟩, _⟩ := (decTables_ready hp).1 h.tables
  { h with
    tables := (decTables_ready (d := { d with cur := n, port := { d.port with dst := dst, io := io } }) hp).2
      ⟨⟨hs, htree, hn⟩, hw⟩ }

/-- An error raised with the walker on any slot of the tree leaves the invariant. -/
theorem DecInv.raiseAt (h : DecInv d) (hp : d.phase = .ready) (he : d.err = .none) {n : NodeId}
    (hn : n.toNat < d.arena.nnodes.toNat) {c : ErrCode} (hc : c ∈ decErrors) (hne : c ≠ .none) (io : IoInput) :
    DecInv (Dec.latch c { d with cur := n, port := { d.port with io := io } }) := by
  have hl := h.latch hc hne
  rw [Dec.latch_of_none _ _ he] at hl
  rw [Dec.latch_of_none c { d with cur := n, port := { d.port with io := io } } he]
  exact hl.walk hp hn (fun h0 => absurd h0 hne) d.port.dst io

/-- The LEAF that carries the sentinel is the sentinel's leaf (41_tree.md R124). -/
theorem TreeOf.sentinel_leaf {f : Table Count 257} {a : Arena} (h : TreeOf f a) {n : NodeId}
    (hn : n.toNat < a.nnodes.toNat) (hk : (a.slot n).kind = .leaf) (hs : (a.slot n).sym = symbolField sentinel) :
    a.slot n = leafNode sentinel (f.get sentinel) := by
  obtain ⟨s, _, hslot⟩ := h.leaf_node n.toNat hn hk
  have hsym : symbolField s = symbolField sentinel := by
    rw [← hs, Arena.slot, hslot]; rfl
  have hval := congrArg BitVec.toNat hsym
  rw [symbolField_toNat, symbolField_toNat] at hval
  rw [Arena.slot, hslot, Fin.ext hval]

/-- How a pass of R236 leaves DEC when it runs through: walking on, or DONE on a leaf. -/
def Walked (d : Dec) (leaf : Bool) : Prop :=
  DecInv d ∧ d.err = .none ∧ (d.phase = .ready ∨ (d.phase = .done ∧ leaf = true))

theorem arrive_sound (h : DecInv d) (hp : d.phase = .ready) (he : d.err = .none) (b : Bool) :
    (arrive { d with cur := childOf d.arena d.cur b }).Meets Walked fun d' c => DecInv (d'.latch c) := by
  obtain ⟨⟨hs, htree, hcur⟩, hwalk⟩ := (decTables_ready hp).1 h.tables
  have hn : (childOf d.arena d.cur b).toNat < d.arena.nnodes.toNat := (htree.child_lt (hwalk he) b).trans hcur
  have hroot : d.arena.root.toNat < d.arena.nnodes.toNat := by have := htree.root_last; omega
  unfold arrive
  split
  · exact ⟨h.walk hp hn (fun _ => ‹_›) _ _, he, .inl hp⟩
  · split
    · have hleaf := htree.sentinel_leaf hn ‹_› ‹_›
      rw [hs] at hleaf
      exact ⟨{ h with tables := (decTables_done rfl).2 ⟨⟨hs, htree, hn⟩, hleaf⟩ }, he, .inr ⟨rfl, rfl⟩⟩
    · unfold Dec.write
      cases hio : d.port.io.answerAt .dec .write d.port.dst.length 0 with
      | true =>
        rw [memWrite_fault _ _ _ hio]
        exact h.raiseAt hp he hn (by decide) (by decide) _
      | false =>
        rw [memWrite_ok _ _ _ hio]
        exact ⟨h.walk hp hroot (fun _ => htree.root_internal) _ _, he, .inl hp⟩
  · exact h.raiseAt hp he hn (by decide) (by decide) _
  · trivial

theorem stepBody_sound (h : DecInv d) (hp : d.phase = .ready) (he : d.err = .none) :
    (stepBody d).Meets Walked fun d' c => DecInv (d'.latch c) := by
  refine (readBit_sound h hp he).bind fun d' r ⟨h', hp', he'⟩ => ?_
  cases r with
  | none => exact h'.latch (by decide) (by decide)
  | some b => exact arrive_sound h' hp' he' b

/-- A loop of R236 that goes on only in phase READY keeps the invariant. -/
theorem walk_sound {stop : Dec → Bool → Bool}
    (hstop : ∀ d leaf, Walked d leaf → stop d leaf ≠ true → d.phase = .ready) (n : Nat) (h : DecInv d)
    (hp : d.phase = .ready) (he : d.err = .none) :
    (repeatUntil stepBody stop n d).Meets (fun d' _ => DecInv d') fun d' c => DecInv (d'.latch c) := by
  refine repeatUntil_meets (I := fun d => DecInv d ∧ d.phase = .ready ∧ d.err = .none)
    (fun d' ⟨h', hp', he'⟩ => (stepBody_sound h' hp' he').mono (fun d'' leaf hw => ?_) fun _ _ hc => hc) n d ⟨h, hp, he⟩
  split
  · exact hw.1
  · exact ⟨hw.1, hstop d'' leaf hw ‹_›, hw.2.1⟩

theorem symbolBody_sound (h : DecInv d) (hp : d.phase = .ready) (he : d.err = .none) :
    (symbolBody d).Meets (fun d' _ => DecInv d') fun d' c => DecInv (d'.latch c) :=
  walk_sound (fun _ _ ⟨_, _, hw⟩ hgo => hw.resolve_right fun hdone => hgo hdone.2) _ h hp he

theorem runBody_sound (h : DecInv d) (hp : d.phase = .ready) (he : d.err = .none) :
    (runBody d).Meets (fun d' _ => DecInv d') fun d' c => DecInv (d'.latch c) :=
  walk_sound (fun _ _ ⟨_, _, hw⟩ hgo => hw.resolve_right fun hdone => hgo (decide_eq_true hdone.1)) _ h hp he

/-- A gated DEC command whose pseudocode keeps the invariant keeps it, and changes nothing but DEC. -/
theorem decGate_sound {i : Instr} {body : Dec → Ended Dec Unit} {s t : State} (h : DecInv s.dec)
    (hx : decGate i body s = .next t)
    (hb : s.dec.err = .none → phaseLegal i s = true →
      (body s.dec).Meets (fun d _ => DecInv d) fun d c => DecInv (d.latch c)) :
    t = s.setDec t.dec ∧ DecInv t.dec :=
  decGate_meets hx h (h.latch (by decide) (by decide)) hb

theorem DecSound.keeps {α : Type} {p : DecPhase} {x : Ended Dec α} (h : DecSound p x) :
    x.Meets (fun d _ => DecInv d) fun d c => DecInv (d.latch c) :=
  h.mono (fun _ _ hd => hd.1) fun _ _ hd => hd

theorem execDclose_sound {s t : State} (h : DecInv s.dec) (hx : execDclose s = .next t) :
    t = s.setDec t.dec ∧ DecInv t.dec := by
  rcases execDclose_cases s with ⟨_, hc⟩ | ⟨_, hc⟩ <;> rw [hc] at hx <;> cases hx
  · exact ⟨rfl, h.latch (by decide) (by decide)⟩
  · exact ⟨rfl, h.close⟩

/-- Every DEC command keeps the invariant of DEC, and changes nothing but DEC. -/
theorem exec_keeps_decInv {i : Instr} {s t : State} (hu : i.unit = .dec) (h : DecInv s.dec) (hx : exec i s = .next t) :
    t = s.setDec t.dec ∧ DecInv t.dec := by
  cases i with
  | dinit => cases hx; exact ⟨rfl, .init _⟩
  | dhdr => exact decGate_sound h hx fun he hp => (dhdrBody_sound h (of_decide_eq_true hp) he).keeps
  | dbuild => exact decGate_sound h hx fun he hp => (dbuildBody_sound h (of_decide_eq_true hp) he).keeps
  | drbit => exact decGate_sound h hx fun he hp => (readBitBody_sound h (of_decide_eq_true hp) he).keeps
  | dstep =>
    exact decGate_sound (i := .dstep) (body := fun d => (stepBody d).unit) h hx fun he hp =>
      (stepBody_sound h (of_decide_eq_true hp) he).bind fun _ _ hw => hw.1
  | dsymbol =>
    exact decGate_sound (i := .dsymbol) (body := fun d => (symbolBody d).unit) h hx fun he hp =>
      (symbolBody_sound h (of_decide_eq_true hp) he).bind fun _ _ hd => hd
  | drun =>
    exact decGate_sound (i := .drun) (body := fun d => (runBody d).unit) h hx fun he hp =>
      (runBody_sound h (of_decide_eq_true hp) he).bind fun _ _ hd => hd
  | dclose => exact execDclose_sound h hx
  | einit | ecount | ecountall | efinal | ebuild | ederive | ehdr | erewind | esym | esymall | eeos | ewbit | eclose =>
    cases hu

end DecInvariant

section Invariant

variable {s t : State}

/-- Every command keeps the invariant of the machine. -/
theorem exec_keeps_inv {i : Instr} (h : Inv s) (hx : exec i s = .next t) : Inv t := by
  cases hu : i.unit with
  | enc =>
    obtain ⟨ht, he⟩ := exec_keeps_encInv hu h.enc hx
    exact ⟨he, by rw [ht]; exact h.dec⟩
  | dec =>
    obtain ⟨ht, hd⟩ := exec_keeps_decInv hu h.dec hx
    exact ⟨by rw [ht]; exact h.enc, hd⟩

theorem illegalWord_keeps_inv (u : UnitId) (h : Inv s) : Inv (illegalWord u s) := by
  cases u with
  | enc => exact ⟨h.enc.latch (by decide), h.dec⟩
  | dec => exact ⟨h.enc, h.dec.latch (by decide) (by decide)⟩

end Invariant

end Sys2Proof.Safety

open Sys2Proof Sys2Proof.Machine Sys2Proof.Safety

/-- Settles O45: a command keeps the invariant of its unit and leaves the other unit alone, and an illegal word only latches
an error. -/
theorem everyStepKeepsTheInvariant : Obligations.EveryStepKeepsTheInvariant := by
  intro s t h hx
  rcases step_next hx with ⟨_, rfl⟩ | ⟨_, rest, _, _, _, hi⟩ | ⟨_, rest, u, _, _, rfl⟩
  · exact h
  · exact exec_keeps_inv (s := { s with cmd := rest }) ⟨h.enc, h.dec⟩ hi
  · exact illegalWord_keeps_inv u (s := { s with cmd := rest }) ⟨h.enc, h.dec⟩

/-- Settles O44: both units stand as their INIT leaves them. -/
theorem resetMeetsTheInvariant : Obligations.ResetMeetsTheInvariant := ⟨.init Enc.reset, .init Dec.reset⟩

end

section
/-! PROOFS. The two units are apart (20_memory.md R72, 60_exceptions.md R272): a word to a unit reads and changes that unit
alone, however the words to the other are interleaved with it. -/

namespace Sys2Proof

/-- The unit a decoded word is addressed to. -/
def Decoded.unit : Decoded → UnitId
  | .command i => i.unit
  | .illegal u => u

end Sys2Proof

namespace Sys2Proof.Machine

section Apart

variable {u v : UnitId} {s s' t : State} {i : Instr} {w : Byte} {use use' : SourceUses} {ws : List Byte}

/-- `s` with unit `u` as it stands in `t`. -/
def State.takeUnit (u : UnitId) (s t : State) : State :=
  match u with
  | .enc => s.setEnc t.enc
  | .dec => s.setDec t.dec

/-- Unit `u` stands alike in two states. -/
def SameUnit (u : UnitId) (s t : State) : Prop :=
  match u with
  | .enc => s.enc = t.enc
  | .dec => s.dec = t.dec

theorem State.takeUnit_takeUnit (u : UnitId) (r s t : State) : (r.takeUnit u s).takeUnit u t = r.takeUnit u t := by
  cases u <;> rfl

theorem sameUnit_takeUnit (u : UnitId) (s t : State) : SameUnit u (s.takeUnit u t) t := by
  cases u <;> rfl

theorem sameUnit_takeUnit_of_ne (h : u ≠ v) (s t : State) : SameUnit u s (s.takeUnit v t) := by
  cases u <;> cases v
  · exact absurd rfl h
  · rfl
  · rfl
  · exact absurd rfl h

theorem SameUnit.refl (u : UnitId) (s : State) : SameUnit u s s := by
  cases u <;> rfl

theorem SameUnit.trans {r : State} (h : SameUnit u r s) (h' : SameUnit u s t) : SameUnit u r t := by
  cases u <;> exact Eq.trans h h'

/-- Taking a unit from a state in which it stands alike changes nothing. -/
theorem SameUnit.takeUnit_eq (h : SameUnit u s t) : s.takeUnit u t = s := by
  cases u with
  | enc => rw [State.takeUnit, ← show s.enc = t.enc from h]; rfl
  | dec => rw [State.takeUnit, ← show s.dec = t.dec from h]; rfl

/-- What `run` does is done to unit `u` alone, and from that unit alone. -/
def StaysIn (u : UnitId) (run : State → Host.Outcome State Fault Refusal) : Prop :=
  ∀ s t, run s = .next t → t = s.takeUnit u t ∧ ∀ s', SameUnit u s' s → run s' = .next (s'.takeUnit u t)

/-- What is made of pseudocode on ENC stays in ENC. -/
theorem encFinish_staysIn {run : State → Host.Outcome State Fault Refusal} {body : Enc → Ended Enc Unit}
    (h : ∀ s, run s = encFinish s (body s.enc)) : StaysIn .enc run := by
  intro s t hrun
  rw [h] at hrun
  rcases encFinish_next s t hrun with ⟨e, a, hb, rfl⟩ | ⟨e, c, hb, rfl⟩
  all_goals exact ⟨rfl, fun s' hs => by rw [h, show s'.enc = s.enc from hs, hb]; rfl⟩

/-- What is made of pseudocode on DEC stays in DEC. -/
theorem decFinish_staysIn {run : State → Host.Outcome State Fault Refusal} {body : Dec → Ended Dec Unit}
    (h : ∀ s, run s = decFinish s (body s.dec)) : StaysIn .dec run := by
  intro s t hrun
  rw [h] at hrun
  rcases decFinish_next s t hrun with ⟨d, a, hb, rfl⟩ | ⟨d, c, hb, rfl⟩
  all_goals exact ⟨rfl, fun s' hs => by rw [h, show s'.dec = s.dec from hs, hb]; rfl⟩

/-- A command's phase condition asks of its own unit only (30_encoding.md R86). -/
theorem phaseLegal_congr (h : SameUnit i.unit s t) : phaseLegal i s = phaseLegal i t := by
  cases i with
  | einit | dinit => rfl
  | ecount | ecountall | efinal | ebuild | ederive | ehdr | erewind | esym | esymall | eeos | ewbit | eclose =>
    exact congrArg (fun e => phaseLegal _ ⟨e, s.dec, s.cmd⟩) (show s.enc = t.enc from h)
  | dhdr | dbuild | drbit | dstep | dsymbol | drun | dclose =>
    exact congrArg (fun d => phaseLegal _ ⟨s.enc, d, s.cmd⟩) (show s.dec = t.dec from h)

/-- The checks before an ENC command and its pseudocode, as pseudocode on ENC. -/
def encGated (i : Instr) (body : Enc → Ended Enc Unit) (e : Enc) : Ended Enc Unit :=
  if e.err ≠ .none then .ok e ()
  else if phaseLegal i (State.reset.setEnc e) then body e
  else .ok (e.latch .sequence) ()

/-- The checks before a DEC command and its pseudocode, as pseudocode on DEC. -/
def decGated (i : Instr) (body : Dec → Ended Dec Unit) (d : Dec) : Ended Dec Unit :=
  if d.err ≠ .none then .ok d ()
  else if phaseLegal i (State.reset.setDec d) then body d
  else .ok (d.latch .sequence) ()

theorem encGate_staysIn (hu : i.unit = .enc) (body : Enc → Ended Enc Unit) : StaysIn .enc (encGate i body) := by
  refine encFinish_staysIn (body := encGated i body) fun s => ?_
  have hp : phaseLegal i s = phaseLegal i (State.reset.setEnc s.enc) := phaseLegal_congr (hu ▸ rfl)
  unfold encGate encGated
  rw [hp]
  split
  · rfl
  · split <;> rfl

theorem decGate_staysIn (hu : i.unit = .dec) (body : Dec → Ended Dec Unit) : StaysIn .dec (decGate i body) := by
  refine decFinish_staysIn (body := decGated i body) fun s => ?_
  have hp : phaseLegal i s = phaseLegal i (State.reset.setDec s.dec) := phaseLegal_congr (hu ▸ rfl)
  unfold decGate decGated
  rw [hp]
  split
  · rfl
  · split <;> rfl

theorem execEclose_staysIn : StaysIn .enc execEclose :=
  encFinish_staysIn
    (body := fun e => if e.phase ≠ .closed then closeBody e else .ok (e.latch .sequence) ()) fun s => by
      simp only [execEclose, encCloseGate, phaseLegal, decide_eq_true_eq]
      split <;> rfl

theorem execDclose_staysIn : StaysIn .dec execDclose :=
  decFinish_staysIn
    (body := fun d => if d.phase ≠ .closed then .ok { d with phase := .closed } () else .ok (d.latch .sequence) ())
    fun s => by
      simp only [execDclose, decCloseGate, phaseLegal, decide_eq_true_eq]
      split <;> rfl

/-- Every command stays in its unit. -/
theorem exec_staysIn (i : Instr) : StaysIn i.unit (exec i) := by
  cases i with
  | einit => exact encFinish_staysIn (body := fun e => .ok e.init ()) fun _ => rfl
  | dinit => exact decFinish_staysIn (body := fun d => .ok d.init ()) fun _ => rfl
  | eclose => exact execEclose_staysIn
  | dclose => exact execDclose_staysIn
  | ecount | ecountall | efinal | ebuild | ederive | ehdr | erewind | esym | esymall | eeos | ewbit =>
    exact encGate_staysIn rfl _
  | dhdr | dbuild | drbit => exact decGate_staysIn rfl _
  | dstep => exact decGate_staysIn (i := .dstep) rfl fun d => (stepBody d).unit
  | dsymbol => exact decGate_staysIn (i := .dsymbol) rfl fun d => (symbolBody d).unit
  | drun => exact decGate_staysIn (i := .drun) rfl fun d => (runBody d).unit

theorem illegalWord_staysIn (u : UnitId) : StaysIn u fun s => .next (illegalWord u s) := by
  cases u with
  | enc => exact encFinish_staysIn (body := fun e => .ok (e.latch .illegal) ()) fun _ => rfl
  | dec => exact decFinish_staysIn (body := fun d => .ok (d.latch .illegal) ()) fun _ => rfl

/-- The opcode table of a unit holds commands to that unit (30_encoding.md R83, R84). -/
theorem opTable_unit {n : Nat} (h : opTable u n = some i) : i.unit = u := by
  cases u with
  | enc =>
    change encTable n = some i at h
    unfold encTable at h
    split at h <;> cases h <;> rfl
  | dec =>
    change decTable n = some i at h
    unfold decTable at h
    split at h <;> cases h <;> rfl

/-- A word is addressed to the unit that its bit 7 names (R80, R87). -/
theorem decode_unit (w : Byte) : (decode w).unit = wordUnit w := by
  unfold decode
  split
  · next h => exact h.1.symm
  · split
    · rfl
    · split
      · next h => exact opTable_unit h
      · rfl

theorem step_putWord_command (h : decode w = .command i) (s : State) : step (putWord w s) = exec i s := by
  simp only [step, nextWord_putWord, h]

theorem step_putWord_illegal (h : decode w = .illegal u) (s : State) :
    step (putWord w s) = .next (illegalWord u s) := by
  simp only [step, nextWord_putWord, h]

/-- Every word stays in the unit it is addressed to. -/
theorem step_putWord_staysIn (w : Byte) : StaysIn (wordUnit w) fun s => step (putWord w s) := by
  rw [← decode_unit]
  cases hd : decode w with
  | command i => simpa only [step_putWord_command hd, Decoded.unit] using exec_staysIn i
  | illegal u => simpa only [step_putWord_illegal hd, Decoded.unit] using illegalWord_staysIn u

/-- A session's first event and the session after it. -/
theorem hostRunFrom_cons_next {ev : HostEvent} {evs : List HostEvent} (h : hostRunFrom use (ev :: evs) s = .next t) :
    ∃ r, hostStep use ev s = .next r ∧ hostRunFrom (use.next ev s r) evs r = .next t := by
  rw [hostRunFrom] at h
  split at h
  · next r hr => exact ⟨r, hr, h⟩
  · cases h
  · cases h

theorem hostRunFrom_cons {ev : HostEvent} {r : State} (h : hostStep use ev s = .next r) (evs : List HostEvent) :
    hostRunFrom use (ev :: evs) s = hostRunFrom (use.next ev s r) evs r := by
  rw [hostRunFrom, h]

/-- After any words written, unit `u` stands where the words addressed to it alone bring it, from any state in which it
stands alike and whatever sources are in use. -/
theorem hostRunFrom_words_of_unit (u : UnitId) (h : hostRunFrom use (ws.map .write) s = .next t) (hs : SameUnit u s' s) :
    hostRunFrom use' ((ws.filter fun w => wordUnit w = u).map .write) s' = .next (s'.takeUnit u t) := by
  induction ws generalizing use use' s s' with
  | nil => cases h; exact congrArg _ hs.takeUnit_eq.symm
  | cons w ws ih =>
    obtain ⟨r, hr, hrest⟩ := hostRunFrom_cons_next h
    obtain ⟨hchange, hlocal⟩ := step_putWord_staysIn w s r hr
    by_cases hw : wordUnit w = u
    · subst hw
      rw [List.filter_cons_of_pos (by simp), List.map_cons, hostRunFrom_cons (ev := .write w) (hlocal s' hs),
        ih hrest (sameUnit_takeUnit ..), State.takeUnit_takeUnit]
    · rw [List.filter_cons_of_neg (by simpa using hw)]
      have hkept : SameUnit u s r := hchange ▸ sameUnit_takeUnit_of_ne (Ne.symm hw) s r
      exact ih hrest (hs.trans hkept)

theorem wordUnit_eq_enc (w : Byte) : decide (wordUnit w = .enc) = !w.getLsbD 7 := by
  unfold wordUnit; cases w.getLsbD 7 <;> rfl

theorem wordUnit_eq_dec (w : Byte) : decide (wordUnit w = .dec) = w.getLsbD 7 := by
  unfold wordUnit; cases w.getLsbD 7 <;> rfl

end Apart

end Sys2Proof.Machine

open Sys2Proof Sys2Proof.Machine Sys2Proof.Safety

/-- Settles O13: the checks before a command and its pseudocode are made of its own unit. -/
theorem commandsStayInTheirUnit : Obligations.CommandsStayInTheirUnit := by
  intro i s t h
  obtain ⟨hchange, hlocal⟩ := exec_staysIn i s t h
  cases hu : i.unit with
  | enc =>
    rw [hu] at hchange hlocal
    exact ⟨congrArg (·.cmd) hchange, fun _ => ⟨congrArg (·.dec) hchange, hlocal⟩, nofun⟩
  | dec =>
    rw [hu] at hchange hlocal
    exact ⟨congrArg (·.cmd) hchange, nofun, fun _ => ⟨congrArg (·.enc) hchange, hlocal⟩⟩

/-- Settles O14, by induction on the words: a word to the other unit leaves this one as it is, and a word to this one does not
see what the other has become. -/
theorem interleavingDoesNotMatter : Obligations.InterleavingDoesNotMatter := by
  intro ws s t h
  have henc := hostRunFrom_words_of_unit (use' := .idle) .enc h (.refl _ _)
  have hdec := hostRunFrom_words_of_unit (use' := .idle) .dec h (.refl _ _)
  simp only [wordUnit_eq_enc] at henc
  simp only [wordUnit_eq_dec] at hdec
  exact ⟨henc, hdec⟩

end

section
/-! PROOFS. When the host may set a source (20_memory.md R61, 60_exceptions.md R275): what the words to a unit make of the
use of its source, from the moment it is set, through the unit's INIT, until the unit is CLOSED. -/

namespace Sys2Proof.Machine

section Source

variable {u : UnitId} {x y : List Byte} {s t : State} {i : Instr} {w : Byte} {use : SourceUses} {ws : List Byte}
  {evs : List HostEvent}

/-- The ports of a unit. -/
def State.port (u : UnitId) (s : State) : Port :=
  match u with
  | .enc => s.enc.port
  | .dec => s.dec.port

/-- Whether a unit is CLOSED. -/
def State.closed (u : UnitId) (s : State) : Bool :=
  match u with
  | .enc => s.enc.phase = .closed
  | .dec => s.dec.phase = .closed

/-- The use of a unit's source. -/
def SourceUses.of (u : UnitId) (use : SourceUses) : SourceUse :=
  match u with
  | .enc => use.enc
  | .dec => use.dec

/-- A unit's INIT. -/
def initOf (u : UnitId) : Instr :=
  match u with
  | .enc => .einit
  | .dec => .dinit

theorem SameUnit.port_eq (h : SameUnit u s t) : s.port u = t.port u := by
  cases u with
  | enc => exact congrArg Enc.port h
  | dec => exact congrArg Dec.port h

theorem SameUnit.closed_eq (h : SameUnit u s t) : s.closed u = t.closed u := by
  cases u with
  | enc => exact congrArg (fun e : Enc => decide (e.phase = .closed)) h
  | dec => exact congrArg (fun d : Dec => decide (d.phase = .closed)) h

/-- A word to another unit leaves a unit as it stands. -/
theorem sameUnit_of_word (hu : wordUnit w ≠ u) (h : step (putWord w s) = .next t) : SameUnit u t s := by
  obtain ⟨hchange, -⟩ := step_putWord_staysIn w s t h
  have hkept := sameUnit_takeUnit_of_ne (Ne.symm hu) s t
  rw [← hchange] at hkept
  cases u <;> exact Eq.symm hkept

/-- What a word to a unit makes of the use of its source. -/
theorem SourceUses.of_next_write (hu : wordUnit w = u) :
    (use.next (.write w) s t).of u =
      (use.of u).afterWord (decode w = .command (initOf u)) (wordRuns w s) (t.closed u) := by
  cases u <;> simp only [SourceUses.next, hu] <;> rfl

/-- A word to another unit leaves the use of a source as it is. -/
theorem SourceUses.of_next_write_ne (hu : wordUnit w ≠ u) : (use.next (.write w) s t).of u = use.of u := by
  cases u <;> cases hw : wordUnit w
  · exact absurd hw hu
  · simp only [SourceUses.next, hw]; rfl
  · simp only [SourceUses.next, hw]; rfl
  · exact absurd hw hu

theorem illegalWord_port (u v : UnitId) (s : State) : (illegalWord v s).port u = s.port u := by
  cases u <;> cases v
  · exact Enc.latch_port ..
  · rfl
  · rfl
  · exact Dec.latch_port ..

theorem illegalWord_closed (u v : UnitId) (s : State) : (illegalWord v s).closed u = s.closed u := by
  cases u <;> cases v
  · exact congrArg (fun p => decide (p = .closed)) (Enc.latch_phase ..)
  · rfl
  · rfl
  · exact congrArg (fun p => decide (p = .closed)) (Dec.latch_phase ..)

/-- No word changes a source (10_state.md R34). -/
theorem word_keeps_src (u : UnitId) (h : step (putWord w s) = .next t) : (t.port u).src = (s.port u).src := by
  cases hd : decode w with
  | command i =>
    rw [step_putWord_command hd] at h
    obtain ⟨⟨henc, hdec⟩, -⟩ := portsAreReadInPlaceAndAppendedTo i s t h
    cases u
    · exact henc
    · exact hdec
  | illegal v =>
    rw [step_putWord_illegal hd] at h
    cases h
    rw [illegalWord_port]

/-- In CLOSED no command of the unit is in its phases but INIT (30_encoding.md R86). -/
theorem phaseLegal_closed (hi : i ≠ initOf i.unit) (hc : s.closed i.unit = true) : phaseLegal i s = false := by
  cases i with
  | einit | dinit => exact absurd rfl hi
  | ecount | ecountall | efinal | ebuild | ederive | ehdr | erewind | esym | esymall | eeos | ewbit | eclose =>
    have hp : s.enc.phase = .closed := of_decide_eq_true hc
    simp [phaseLegal, hp]
  | dhdr | dbuild | drbit | dstep | dsymbol | drun | dclose =>
    have hp : s.dec.phase = .closed := of_decide_eq_true hc
    simp [phaseLegal, hp]

/-- A CLOSED unit stays CLOSED, whatever command of it but INIT follows. -/
theorem exec_keeps_closed (hi : i ≠ initOf i.unit) (hc : s.closed i.unit = true) (h : exec i s = .next t) :
    t.closed i.unit = true := by
  have hillegal : ¬ phaseLegal i s = true := by simp [phaseLegal_closed hi hc]
  cases hu : i.unit with
  | enc =>
    obtain ⟨e, c, -, hlegal, rfl⟩ := exec_encChange hu h
    rw [hlegal.resolve_left hillegal]
    rwa [hu] at hc
  | dec =>
    obtain ⟨d, c, -, hlegal, rfl⟩ := exec_decChange hu h
    rw [hlegal.resolve_left hillegal]
    rwa [hu] at hc

/-- A CLOSED unit stays CLOSED, whatever word but its INIT follows. -/
theorem word_keeps_closed (hw : decode w ≠ .command (initOf u)) (hc : s.closed u = true)
    (h : step (putWord w s) = .next t) : t.closed u = true := by
  by_cases hu : wordUnit w = u
  · rw [← decode_unit] at hu
    cases hd : decode w with
    | command i =>
      rw [hd] at hu hw
      rw [step_putWord_command hd] at h
      subst hu
      exact exec_keeps_closed (fun hi => hw (congrArg _ hi)) hc h
    | illegal v =>
      rw [step_putWord_illegal hd] at h
      cases h
      rwa [illegalWord_closed]
  · rwa [(sameUnit_of_word hu h).closed_eq]

/-- INIT leaves no unit CLOSED (45_encoder.md R200, 46_decoder.md R230). -/
theorem init_not_closed (hw : decode w = .command (initOf u)) (h : step (putWord w s) = .next t) :
    t.closed u = false := by
  rw [step_putWord_command hw] at h
  cases u <;> cases h <;> rfl

theorem wordUnit_of_init (hw : decode w = .command (initOf u)) : wordUnit w = u := by
  rw [← decode_unit, hw]
  cases u <;> rfl

/-- Before INIT, no other word begins an operation that only CLOSED or INIT ends. -/
theorem SourceUse.afterWord_awaits {use : SourceUse} (h : use = .idle ∨ use = .begun) (ran closed : Bool) :
    use.afterWord false ran closed = .idle ∨ use.afterWord false ran closed = .begun := by
  revert ran closed
  rcases h with rfl | rfl <;> decide

/-- The unit's source is `x`, and the unit has had no INIT since it was set. -/
def AwaitsInit (u : UnitId) (x : List Byte) (use : SourceUses) (s : State) : Prop :=
  (s.port u).src = x ∧ (use.of u = .idle ∨ use.of u = .begun)

/-- The unit's source is `x`, and an operation holds it until the unit is CLOSED. -/
def HeldUntilClosed (u : UnitId) (x : List Byte) (use : SourceUses) (s : State) : Prop :=
  (s.port u).src = x ∧ use.of u = if s.closed u then .idle else .held

/-- Before the unit's INIT no word begins an operation that holds the source. -/
theorem AwaitsInit.word (hw : decode w ≠ .command (initOf u)) (hs : AwaitsInit u x use s)
    (h : step (putWord w s) = .next t) : AwaitsInit u x (use.next (.write w) s t) t := by
  obtain ⟨hsrc, huse⟩ := hs
  refine ⟨(word_keeps_src u h).trans hsrc, ?_⟩
  by_cases hu : wordUnit w = u
  · rw [SourceUses.of_next_write hu, decide_eq_false hw]
    exact SourceUse.afterWord_awaits huse _ _
  · rwa [SourceUses.of_next_write_ne hu]

/-- The unit's first INIT begins an operation that holds the source. -/
theorem AwaitsInit.init (hw : decode w = .command (initOf u)) (hs : AwaitsInit u x use s)
    (h : step (putWord w s) = .next t) : HeldUntilClosed u x (use.next (.write w) s t) t := by
  obtain ⟨hsrc, huse⟩ := hs
  refine ⟨(word_keeps_src u h).trans hsrc, ?_⟩
  rw [SourceUses.of_next_write (wordUnit_of_init hw), decide_eq_true hw, init_not_closed hw h,
    SourceUse.afterWord_init huse]
  rfl

/-- After the unit's INIT the source is held until the unit is CLOSED, whatever words but INIT follow. -/
theorem HeldUntilClosed.word (hw : decode w ≠ .command (initOf u)) (hs : HeldUntilClosed u x use s)
    (h : step (putWord w s) = .next t) : HeldUntilClosed u x (use.next (.write w) s t) t := by
  obtain ⟨hsrc, huse⟩ := hs
  refine ⟨(word_keeps_src u h).trans hsrc, ?_⟩
  by_cases hu : wordUnit w = u
  · rw [SourceUses.of_next_write hu, decide_eq_false hw, huse]
    cases ht : t.closed u with
    | true => rfl
    | false =>
      have hsopen : s.closed u = false :=
        Bool.eq_false_of_not_eq_true fun hc => Bool.false_ne_true (ht.symm.trans (word_keeps_closed hw hc h))
      rw [hsopen]
      exact SourceUse.afterWord_held _
  · rwa [SourceUses.of_next_write_ne hu, (sameUnit_of_word hu h).closed_eq]

/-- What each word of a session keeps holds when they are written, and the session goes on from there. -/
theorem hostRunFrom_words {P : SourceUses → State → Prop}
    (hP : ∀ w ∈ ws, ∀ use s t, P use s → step (putWord w s) = .next t → P (use.next (.write w) s t) t)
    (hs : P use s) (h : hostRunFrom use (ws.map .write ++ evs) s = .next t) :
    ∃ use' r, P use' r ∧ ∀ evs', hostRunFrom use (ws.map .write ++ evs') s = hostRunFrom use' evs' r := by
  induction ws generalizing use s with
  | nil => exact ⟨use, s, hs, fun _ => rfl⟩
  | cons w ws ih =>
    obtain ⟨r, hr, hrest⟩ := hostRunFrom_cons_next h
    obtain ⟨use', r', hr', hgo⟩ := ih (fun v hv => hP v (.tail _ hv)) (hP w (.head _) use s r hs hr) hrest
    exact ⟨use', r', hr', fun evs' => (hostRunFrom_cons hr _).trans (hgo evs')⟩

theorem hostStep_load (use : SourceUses) (u : UnitId) (x : List Byte) (s : State) :
    hostStep use (.load u x) s = setSource u (use.of u) (hostAct (.load u x) s) := by
  cases u <;> rfl

theorem hostAct_load_src (u : UnitId) (x : List Byte) (s : State) : ((hostAct (.load u x) s).port u).src = x := by
  cases u <;> rfl

theorem SourceUses.of_next_load (u : UnitId) (x : List Byte) (s t : State) : (use.next (.load u x) s t).of u = .idle := by
  cases u <;> rfl

/-- A source that is not in use is set, and the session goes on. -/
theorem hostRunFrom_load (hfree : (use.of u).inUse = false) (x : List Byte) (s : State) (evs : List HostEvent) :
    hostRunFrom use (.load u x :: evs) s =
      hostRunFrom (use.next (.load u x) s (hostAct (.load u x) s)) evs (hostAct (.load u x) s) :=
  hostRunFrom_cons ((hostStep_load ..).trans (setSource_free _ _ hfree)) evs

/-- A session begins with no source in use. -/
theorem SourceUses.idle_free (u : UnitId) : (SourceUses.idle.of u).inUse = false := by
  cases u <;> rfl

theorem hostRunFrom_refused {ev : HostEvent} {r : Refusal} (h : hostStep use ev s = .refused r) (evs : List HostEvent) :
    hostRunFrom use (ev :: evs) s = .refused r := by
  rw [hostRunFrom, h]

/-- A source in use is not set, and the session ends. -/
theorem hostRunFrom_load_refused (huse : (use.of u).inUse = true) (y : List Byte) (s : State) (evs : List HostEvent) :
    hostRunFrom use (.load u y :: evs) s = .refused (.sourceInUse u) :=
  hostRunFrom_refused ((hostStep_load ..).trans (setSource_inUse _ _ huse)) evs

/-- DEC's source in use is not set from ENC's destination either. -/
theorem hostRunFrom_moveArtifact_refused (huse : (use.of .dec).inUse = true) (s : State) (evs : List HostEvent) :
    hostRunFrom use (.moveArtifact :: evs) s = .refused (.sourceInUse .dec) :=
  hostRunFrom_refused (ev := .moveArtifact) (setSource_inUse .dec _ huse) evs

/-- A source just set is held from the unit's first INIT on, whatever words come before it and whatever words but INIT after
it. -/
theorem hostRun_heldUntilClosed {before after : List Byte} (hinit : decode w = .command (initOf u))
    (hw : ∀ v ∈ before ++ after, decode v ≠ .command (initOf u))
    (h : hostRun (.load u x :: (before ++ w :: after).map .write) s = .next t) :
    ∃ use, HeldUntilClosed u x use t ∧
      ∀ evs, hostRun (.load u x :: (before ++ w :: after).map .write ++ evs) s = hostRunFrom use evs t := by
  have hload : AwaitsInit u x (SourceUses.idle.next (.load u x) s (hostAct (.load u x) s)) (hostAct (.load u x) s) :=
    ⟨hostAct_load_src .., .inl (SourceUses.of_next_load ..)⟩
  rw [List.map_append, List.map_cons, hostRun, hostRunFrom_load (SourceUses.idle_free u)] at h
  obtain ⟨use1, s1, h1, hgo1⟩ := hostRunFrom_words (P := AwaitsInit u x)
    (fun v hv use s t hs => hs.word (hw v (List.mem_append_left _ hv))) hload h
  rw [hgo1] at h
  obtain ⟨s2, hstep, h⟩ := hostRunFrom_cons_next h
  rw [← List.append_nil (after.map _)] at h
  obtain ⟨use3, s3, h3, hgo3⟩ := hostRunFrom_words (P := HeldUntilClosed u x)
    (fun v hv use s t hs => hs.word (hw v (List.mem_append_right _ hv))) (h1.init hinit hstep) h
  rw [hgo3] at h
  cases h
  refine ⟨use3, h3, fun evs => ?_⟩
  rw [List.map_append, List.map_cons, List.cons_append, List.append_assoc, hostRun,
    hostRunFrom_load (SourceUses.idle_free u), hgo1, List.cons_append, hostRunFrom_cons hstep, hgo3]
/-- An illegal word runs no command, so the source may be set anew after it. -/
theorem hostRun_load_illegal_load (hw : decode w = .illegal u) (x y : List Byte) (s : State) :
    ∃ t, hostRun [.load u x, .write w, .load u y] s = .next t ∧ (t.port u).src = y := by
  refine ⟨hostAct (.load u y) (illegalWord u (hostAct (.load u x) s)), ?_, hostAct_load_src ..⟩
  have hu : wordUnit w = u := by rw [← decode_unit, hw]; rfl
  rw [hostRun, hostRunFrom_load (SourceUses.idle_free u), hostRunFrom_cons (ev := .write w) (step_putWord_illegal hw _)]
  refine hostRunFrom_load ?_ y _ []
  have hruns : wordRuns w (hostAct (.load u x) s) = false := by simp [wordRuns, hw]
  rw [SourceUses.of_next_write hu, SourceUses.of_next_load, hruns, decide_eq_false (by simp [hw])]
  cases (illegalWord u (hostAct (.load u x) s)).closed u <;> rfl

theorem HeldUntilClosed.inUse (h : HeldUntilClosed u x use s) : (use.of u).inUse = !s.closed u := by
  rw [h.2]
  cases s.closed u <;> rfl

theorem HeldUntilClosed.inUse_of_open (h : HeldUntilClosed u x use s) (hopen : s.closed u = false) :
    (use.of u).inUse = true := by
  rw [h.inUse, hopen]; rfl

/-- Once the unit is CLOSED its source is set. -/
theorem HeldUntilClosed.load (h : HeldUntilClosed u x use s) (hclosed : s.closed u = true) (y : List Byte) :
    hostRunFrom use [.load u y] s = .next (hostAct (.load u y) s) :=
  hostRunFrom_load (by rw [h.inUse, hclosed]; rfl) y s []

end Source

end Sys2Proof.Machine

open Sys2Proof Sys2Proof.Machine Sys2Proof.Safety

/-- Settles O54: from the unit's first INIT on the source is held until the unit is CLOSED, and a unit once CLOSED stays so. -/
theorem sourceIsLeftAloneFromInitUntilClosed : Obligations.SourceIsLeftAloneFromInitUntilClosed := by
  intro s t x y before after evs
  constructor
  · intro hw h
    obtain ⟨use, hheld, hgo⟩ := hostRun_heldUntilClosed (u := .enc) (by decide) hw h
    refine ⟨hheld.1, fun hopen => ?_, fun hclosed => ?_⟩
    · have huse := hheld.inUse_of_open (decide_eq_false hopen)
      exact (hgo _).trans (hostRunFrom_load_refused huse ..)
    · exact (hgo _).trans (hheld.load (decide_eq_true hclosed) y)
  · intro hw h
    obtain ⟨use, hheld, hgo⟩ := hostRun_heldUntilClosed (u := .dec) (by decide) hw h
    refine ⟨hheld.1, fun hopen => ?_, fun hclosed => ?_⟩
    · have huse := hheld.inUse_of_open (decide_eq_false hopen)
      exact ⟨(hgo _).trans (hostRunFrom_load_refused huse ..), (hgo _).trans (hostRunFrom_moveArtifact_refused huse ..)⟩
    · exact (hgo _).trans (hheld.load (decide_eq_true hclosed) y)

/-- Settles O53: setting a source asks its use and nothing else, INIT holds it, CLOSED and a further INIT give it back, and an
illegal word does neither. -/
theorem sourcesAreSetBetweenOperations : Obligations.SourcesAreSetBetweenOperations := by
  refine ⟨fun use bytes s => ⟨setSource_inUse .enc _, setSource_free .enc _, fun huse => ?_, fun hfree => ?_⟩,
    fun s x y evs => ?_⟩
  · exact ⟨setSource_inUse .dec _ huse, setSource_inUse .dec _ huse⟩
  · exact ⟨setSource_free .dec _ hfree, setSource_free .dec _ hfree⟩
  · have hheld (t : State) (before : List Byte) := sourceIsLeftAloneFromInitUntilClosed s t x y before [] evs
    obtain ⟨-, henc, -⟩ := (hheld _ []).1 nofun rfl
    obtain ⟨-, hdec, -⟩ := (hheld _ []).2 nofun rfl
    obtain ⟨-, henc', -⟩ := (hheld _ [0x68]).1 (by decide) rfl
    obtain ⟨-, hdec', -⟩ := (hheld _ [0xC0]).2 (by decide) rfl
    exact ⟨henc nofun, (hdec nofun).1, (hdec nofun).2, henc' nofun, (hdec' nofun).1,
      hostRun_load_illegal_load (u := .enc) (by decide) x y s, hostRun_load_illegal_load (u := .dec) (by decide) x y s,
      ⟨_, rfl, rfl⟩, ⟨_, rfl, rfl⟩, ⟨_, rfl, rfl⟩, ⟨_, rfl, rfl⟩⟩

end

section
/-! PROOFS. Words and commands (30_encoding.md R80 to R89): a word is its fields, the decoder undoes the encoder, which words are
legal, what an illegal word does, and what assembly text gives. -/

namespace Sys2Proof

section Fields

variable (w : Byte)

/-- A word is its four fields, from bit 7 down (R80). -/
theorem wordFields_append :
    BitVec.ofBool (wordUnit w).bit ++ wordOp w ++ wordRes w ++ BitVec.ofBool (wordB w) = w := by
  have hu : (wordUnit w).bit = w.getLsbD 7 := by unfold wordUnit; cases w.getLsbD 7 <;> rfl
  rw [hu]
  ext k hk
  simp only [BitVec.getElem_append]
  interval_cases k <;> simp [wordOp, wordRes, wordB, BitVec.getLsbD_eq_getElem]

theorem wordOp_toNat : (wordOp w).toNat = w.toNat / 8 % 16 := by
  simp [wordOp, Nat.shiftRight_eq_div_pow]

theorem wordOp_eq_iff (op : BitVec 4) : wordOp w = op ↔ w.toNat / 8 % 16 = op.toNat := by
  rw [← BitVec.toNat_inj, wordOp_toNat]

theorem wordRes_eq_zero_iff : wordRes w = 0 ↔ w.getLsbD 1 = false ∧ w.getLsbD 2 = false := by
  simp only [BitVec.eq_of_getLsbD_eq_iff, wordRes, BitVec.getLsbD_extractLsb', Nat.forall_lt_succ_left]
  simp

end Fields

section Decoder

variable {u : UnitId} {i : Instr} {w : Byte}

/-- The fields of a command's word are the command's own (R80, R82 to R84). -/
theorem encode_fields (i : Instr) : Laws.EncodeLegal.Statement i := by
  cases i with
  | einit => exact Laws.EncodeLegal.einit
  | ecount => exact Laws.EncodeLegal.ecount
  | ecountall => exact Laws.EncodeLegal.ecountall
  | efinal => exact Laws.EncodeLegal.efinal
  | ebuild => exact Laws.EncodeLegal.ebuild
  | ederive => exact Laws.EncodeLegal.ederive
  | ehdr => exact Laws.EncodeLegal.ehdr
  | erewind => exact Laws.EncodeLegal.erewind
  | esym => exact Laws.EncodeLegal.esym
  | esymall => exact Laws.EncodeLegal.esymall
  | eeos => exact Laws.EncodeLegal.eeos
  | ewbit b => exact Laws.EncodeLegal.ewbit b
  | eclose => exact Laws.EncodeLegal.eclose
  | dinit => exact Laws.EncodeLegal.dinit
  | dhdr => exact Laws.EncodeLegal.dhdr
  | dbuild => exact Laws.EncodeLegal.dbuild
  | drbit => exact Laws.EncodeLegal.drbit
  | dstep => exact Laws.EncodeLegal.dstep
  | dsymbol => exact Laws.EncodeLegal.dsymbol
  | drun => exact Laws.EncodeLegal.drun
  | dclose => exact Laws.EncodeLegal.dclose

theorem decode_encode (i : Instr) : decode (encode i) = .command i := by
  obtain ⟨-, -, hu, hop, hres, hb⟩ := encode_fields i
  unfold decode
  rw [hu, hop, hres, hb]
  cases i <;> rfl

/-- The opcode table of a unit holds each command at its opcode, and no command with an operand (R83, R84). -/
theorem opTable_opcode {n : Nat} (h : opTable u n = some i) : i.opcode.toNat = n ∧ i.bitField = false := by
  cases u with
  | enc =>
    change encTable n = some i at h
    unfold encTable at h
    split at h <;> cases h <;> exact ⟨rfl, rfl⟩
  | dec =>
    change decTable n = some i at h
    unfold decTable at h
    split at h <;> cases h <;> exact ⟨rfl, rfl⟩

/-- The decoder answers a command only for a word with the command's own fields. -/
theorem decode_fields (h : decode w = .command i) :
    wordUnit w = i.unit ∧ wordOp w = i.opcode ∧ wordRes w = 0 ∧ wordB w = i.bitField := by
  have hu : wordUnit w = i.unit := by rw [← Machine.decode_unit, h]; rfl
  refine ⟨hu, ?_⟩
  unfold decode at h
  split at h
  · next hw =>
    obtain ⟨-, hop, hres⟩ := hw
    cases h
    exact ⟨hop, hres, rfl⟩
  · split at h
    · cases h
    · next hrest =>
      obtain ⟨hres, hb⟩ := not_or.mp hrest
      split at h
      · next j hj =>
        cases h
        obtain ⟨hop, hbit⟩ := opTable_opcode hj
        exact ⟨(BitVec.eq_of_toNat_eq hop).symm, not_not.mp hres, (Bool.eq_false_of_not_eq_true hb).trans hbit.symm⟩
      · cases h

/-- Which opcodes ENC's table holds: all but the reserved 13..15 and EWBIT's own 11 (R83, R85). -/
theorem encTable_isSome_iff (n : Nat) : (∃ i, opTable .enc n = some i) ↔ n < 13 ∧ n ≠ 11 := by
  change (∃ i, encTable n = some i) ↔ _
  by_cases hn : n < 13
  · interval_cases n <;> simp [encTable]
  · obtain ⟨k, rfl⟩ := Nat.exists_eq_add_of_le' (not_lt.mp hn)
    simp [encTable]

/-- Which opcodes DEC's table holds: all but the reserved 8..15 (R84, R85). -/
theorem decTable_isSome_iff (n : Nat) : (∃ i, opTable .dec n = some i) ↔ n < 8 := by
  change (∃ i, decTable n = some i) ↔ _
  by_cases hn : n < 8
  · interval_cases n <;> simp [decTable]
  · obtain ⟨k, rfl⟩ := Nat.exists_eq_add_of_le' (not_lt.mp hn)
    simp [decTable]

/-- A word is a command when its `RES` is 0 and it is EWBIT's, or has `B = 0` and an opcode of its unit's table (R87). -/
theorem decode_command_iff (w : Byte) :
    (∃ i, decode w = .command i) ↔
      wordRes w = 0 ∧ (wordUnit w = .enc ∧ wordOp w = 11 ∨
        wordB w = false ∧ ∃ i, opTable (wordUnit w) (wordOp w).toNat = some i) := by
  unfold decode
  split
  · next hew =>
    obtain ⟨hu, hop, hres⟩ := hew
    exact iff_of_true ⟨_, rfl⟩ ⟨hres, .inl ⟨hu, hop⟩⟩
  · next hew =>
    split
    · next hill =>
      refine iff_of_false nofun ?_
      rintro ⟨hres, hw | ⟨hb, -⟩⟩
      · exact hew ⟨hw.1, hw.2, hres⟩
      · simp [hres, hb] at hill
    · next hill =>
      obtain ⟨hres, hb⟩ : wordRes w = 0 ∧ wordB w = false := by simpa using hill
      have hplain : ¬(wordUnit w = .enc ∧ wordOp w = 11) := fun h => hew ⟨h.1, h.2, hres⟩
      rw [or_iff_right hplain]
      cases opTable (wordUnit w) (wordOp w).toNat <;> simp [hres, hb]

/-- A word that is no command is ILLEGAL of the unit its bit 7 names (R87). -/
theorem decode_eq_illegal (h : ∀ i, decode w ≠ .command i) : decode w = .illegal (wordUnit w) := by
  have hu := Machine.decode_unit w
  cases hd : decode w with
  | command i => exact absurd hd (h i)
  | illegal u => rw [← hu, hd]; rfl

end Decoder

end Sys2Proof

namespace Sys2Proof.Machine

section Latch

/-- The latch as one field's new value (60_exceptions.md R262). -/
theorem Enc.latch_eq_ite (c : ErrCode) (e : Enc) : e.latch c = { e with err := if e.err = .none then c else e.err } :=
  (Enc.latch_eq c e).trans (by rw [Enc.latch_err])

/-- The latch as one field's new value (60_exceptions.md R262). -/
theorem Dec.latch_eq_ite (c : ErrCode) (d : Dec) : d.latch c = { d with err := if d.err = .none then c else d.err } :=
  (Dec.latch_eq c d).trans (by rw [Dec.latch_err])

end Latch

section Text

/-- The commands but EWBIT are those that take no operand (30_encoding.md R82). -/
theorem mem_plainCommands {i : Instr} (h : ∀ b, i ≠ .ewbit b) : i ∈ plainCommands := by
  cases i with
  | ewbit b => exact absurd rfl (h b)
  | _ => decide

/-- The mnemonic of a command without an operand is the text of its word (R88). -/
theorem assemble_mnemonic : ∀ i ∈ plainCommands, assemble [(mnemonic i).toList] = some [encode i] := by decide

end Text

end Sys2Proof.Machine

open Sys2Proof Sys2Proof.Machine Sys2Proof.Safety

/-- Settles O1: a word is its fields, and a word that decodes to a command has the command's fields. -/
theorem decodeInvertsEncode : Obligations.DecodeInvertsEncode := by
  intro w i
  constructor
  · intro h
    obtain ⟨hu, hop, hres, hb⟩ := decode_fields h
    rw [← wordFields_append w, hu, hop, hres, hb]
    rfl
  · rintro rfl
    exact decode_encode i

/-- Settles O2: the tables' words are the commands' own, and the reserved opcodes are evaluated. -/
theorem opcodeTableWordsDecode : Obligations.OpcodeTableWordsDecode := by
  refine ⟨?_, ?_, ?_⟩
  · simp only [decodeInvertsEncode _ _]; decide
  · simp only [decodeInvertsEncode _ _]; decide
  · decide

/-- Settles O3: the decoder's conditions on the fields are R85's on the bits, the count runs over all 256 words, and what an
illegal word does is the latch. -/
theorem illegalWordsOnlyLatchIllegal : Obligations.IllegalWordsOnlyLatchIllegal := by
  refine ⟨fun w => ?_, by decide, fun w s hw => ?_⟩
  · rw [decode_command_iff, wordRes_eq_zero_iff, wordOp_eq_iff, wordOp_toNat, wordUnit]
    cases w.getLsbD 7 with
    | false =>
      simp only [wordB, Bool.false_eq_true, if_false, encTable_isSome_iff]
      grind
    | true =>
      simp only [wordB, if_true, decTable_isSome_iff]
      grind
  · rw [step_putWord_illegal (decode_eq_illegal hw), wordUnit]
    cases w.getLsbD 7 with
    | false =>
      change Host.Outcome.next (s.setEnc (s.enc.latch .illegal)) = _
      rw [Enc.latch_eq_ite]; rfl
    | true =>
      change Host.Outcome.next (s.setDec (s.dec.latch .illegal)) = _
      rw [Dec.latch_eq_ite]; rfl

/-- Settles O4: by evaluating the lines, and for a mnemonic alone over the commands without an operand. -/
theorem assemblyGivesTheCommandWords : Obligations.AssemblyGivesTheCommandWords :=
  ⟨by decide, by decide, by decide, by decide, by decide, by decide, by decide, by decide,
    fun i hi => assemble_mnemonic i (mem_plainCommands hi)⟩

end

section
/-! PROOFS. What a command does outside its phases (30_encoding.md R86). -/

namespace Sys2Proof.Machine

section Phases

variable {i : Instr} {s : State}

/-- Outside its phases, and with no error latched, a CLOSE raises SEQUENCE as the gated commands do (30_encoding.md R86). -/
theorem encCloseGate_sequence {body : Enc → Ended Enc Unit} (he : s.enc.err = .none) (hp : phaseLegal i s = false) :
    encCloseGate i body s = .next (s.setEnc { s.enc with err := .sequence }) := by
  simp [encCloseGate, hp, Enc.latch_of_none _ _ he]

/-- Outside its phases, and with no error latched, a CLOSE raises SEQUENCE as the gated commands do (R86). -/
theorem decCloseGate_sequence {body : Dec → Ended Dec Unit} (he : s.dec.err = .none) (hp : phaseLegal i s = false) :
    decCloseGate i body s = .next (s.setDec { s.dec with err := .sequence }) := by
  simp [decCloseGate, hp, Dec.latch_of_none _ _ he]

/-- Outside its phases and with no error latched, a command of ENC raises SEQUENCE (30_encoding.md R86). -/
theorem exec_enc_sequence (hu : i.unit = .enc) (he : s.enc.err = .none) (hp : phaseLegal i s = false) :
    exec i s = .next { s with enc := { s.enc with err := .sequence } } := by
  cases i with
  | einit => cases hp
  | eclose => exact encCloseGate_sequence he hp
  | ecount | ecountall | efinal | ebuild | ederive | ehdr | erewind | esym | esymall | eeos | ewbit =>
    exact encGate_sequence _ s he hp
  | dinit | dhdr | dbuild | drbit | dstep | dsymbol | drun | dclose => cases hu

/-- Outside its phases and with no error latched, a command of DEC raises SEQUENCE (R86). -/
theorem exec_dec_sequence (hu : i.unit = .dec) (he : s.dec.err = .none) (hp : phaseLegal i s = false) :
    exec i s = .next { s with dec := { s.dec with err := .sequence } } := by
  cases i with
  | dinit => cases hp
  | dclose => exact decCloseGate_sequence (body := fun d => .ok { d with phase := .closed } ()) he hp
  | dhdr | dbuild | drbit => exact decGate_sequence _ s he hp
  | dstep => exact decGate_sequence (body := fun d => (stepBody d).unit) .dstep s he hp
  | dsymbol => exact decGate_sequence (body := fun d => (symbolBody d).unit) .dsymbol s he hp
  | drun => exact decGate_sequence (body := fun d => (runBody d).unit) .drun s he hp
  | _ => cases hu

end Phases

end Sys2Proof.Machine

open Sys2Proof Sys2Proof.Machine Sys2Proof.Safety

/-- Settles O11: each premise says that the phase condition of its commands fails, and INIT has none. -/
theorem outOfPhaseCommandsRaiseSequence : Obligations.OutOfPhaseCommandsRaiseSequence := by
  intro s
  refine ⟨?_, ?_, ⟨_, rfl, rfl⟩, ⟨_, rfl, rfl⟩⟩
  · rintro he _ rfl
    have raises {i : Instr} (hu : i.unit = .enc) := exec_enc_sequence hu he
    refine ⟨fun hp => ?_, fun hp => ?_, fun hp => ?_, fun hp => ?_, fun hp => ?_, fun hp => ?_⟩
    · have hout := decide_eq_false hp
      exact ⟨raises rfl hout, raises rfl hout, raises rfl hout⟩
    · exact raises rfl (decide_eq_false hp)
    · exact raises rfl (decide_eq_false hp)
    · exact raises rfl (decide_eq_false (not_and_or.mpr hp))
    · have hout := decide_eq_false (not_not_intro hp)
      exact ⟨raises rfl hout, fun _ => raises rfl hout, raises rfl hout⟩
    · have hout := decide_eq_false hp
      exact ⟨raises rfl hout, raises rfl hout, raises rfl hout⟩
  · rintro he _ rfl
    have raises {i : Instr} (hu : i.unit = .dec) := exec_dec_sequence hu he
    refine ⟨fun hp => ?_, fun hp => ?_, fun hp => ?_, fun hp => ?_⟩
    · exact raises rfl (decide_eq_false hp)
    · exact raises rfl (decide_eq_false hp)
    · have hout := decide_eq_false hp
      exact ⟨raises rfl hout, raises rfl hout, raises rfl hout, raises rfl hout⟩
    · exact raises rfl (decide_eq_false (not_not_intro hp))

end

section
/-! PROOFS. Frequency counting (40_frequency.md R101 to R105): ECOUNT's pseudocode case by case, what counting a list of bytes
makes of the counters, and the histogram. -/

namespace Sys2Proof

/-- A table's cells are what reading them gives, in order. -/
theorem Table.cells_eq_ofFn {α : Type} {n : Nat} (t : Table α n) : t.cells = List.ofFn t.get :=
  List.ext_getElem (by simp [t.size]) fun i _ _ => by simp [Table.get]

end Sys2Proof

namespace Sys2Proof.Machine

open Sys2Proof.Safety

section Counting

variable {e : Enc} {s : State} {b : Byte} {f : Table Count 257} {l : List Byte}

/-- At the end of the source only EOI is set (40_frequency.md R101). -/
theorem countBody_eoi (h : e.port.src.length ≤ e.port.rp) : countBody e = .ok { e with eoi := true } () := by
  simp [countBody, Enc.nextByte, takeByte_eoi _ _ h]

/-- A failing read moves nothing and raises IO (R101). -/
theorem countBody_fault (hb : e.port.src[e.port.rp]? = some b) (hio : e.port.io.answerAt .enc .read e.port.rp 0 = true) :
    countBody e = .raised { e with port := { e.port with io := e.port.io.tick } } .io := by
  simp [countBody, Enc.nextByte, takeByte_fault _ _ hb hio]

/-- A full counter is kept, and its byte is consumed (R101). -/
theorem countBody_overflow (hb : e.port.src[e.port.rp]? = some b)
    (hio : e.port.io.answerAt .enc .read e.port.rp 0 = false) (hf : e.freq.get (byteSymbol b) = Config.cntMax) :
    countBody e = .raised { e with port := { e.port with rp := e.port.rp + 1, io := e.port.io.tick } } .overflow := by
  simp [countBody, Enc.nextByte, takeByte_byte _ _ hb hio, hf]

/-- A counter that is not full counts its byte (R101). -/
theorem countBody_byte (hb : e.port.src[e.port.rp]? = some b)
    (hio : e.port.io.answerAt .enc .read e.port.rp 0 = false) (hf : e.freq.get (byteSymbol b) ≠ Config.cntMax) :
    countBody e = .ok { e with
      freq := e.freq.set (byteSymbol b) (e.freq.get (byteSymbol b) + 1),
      port := { e.port with rp := e.port.rp + 1, io := e.port.io.tick } } () := by
  simp [countBody, Enc.nextByte, takeByte_byte _ _ hb hio, hf]

/-- In COUNT and with no error latched, ECOUNT is its pseudocode (60_exceptions.md R264). -/
theorem exec_ecount (he : s.enc.err = .none) (hp : s.enc.phase = .count) :
    exec .ecount s = encFinish s (countBody s.enc) :=
  encGate_run .ecount s he (decide_eq_true hp)

/-- In COUNT and with no error latched, ECOUNTALL is its pseudocode (R264). -/
theorem exec_ecountall (he : s.enc.err = .none) (hp : s.enc.phase = .count) :
    exec .ecountall s = encFinish s (countAllBody s.enc) :=
  encGate_run .ecountall s he (decide_eq_true hp)

/-- In COUNT and with no error latched, EFINAL sets the sentinel's count to 1 and enters FINAL (40_frequency.md R103). -/
theorem exec_efinal (he : s.enc.err = .none) (hp : s.enc.phase = .count) :
    exec .efinal s = .next (s.setEnc { s.enc with freq := s.enc.freq.set sentinel 1, phase := .final }) :=
  encGate_run .efinal s he (decide_eq_true hp)

theorem byteSymbol_inj {b c : Byte} : byteSymbol b = byteSymbol c ↔ b = c := by
  simp [byteSymbol, Fin.ext_iff, BitVec.toNat_inj]

/-- The counters once the bytes of a list have been counted as well (R104). -/
def addCounts (f : Table Count 257) (l : List Byte) : Table Count 257 :=
  Table.ofFn fun x => f.get x + BitVec.ofNat 32 (l.countP fun b => b.toNat == x.val)

@[simp] theorem addCounts_nil (f : Table Count 257) : addCounts f [] = f :=
  Table.ext_get fun x => by simp [addCounts]

/-- Counting a list counts its first byte and then the others. -/
theorem addCounts_cons (f : Table Count 257) (b : Byte) (l : List Byte) :
    addCounts f (b :: l) = addCounts (f.set (byteSymbol b) (f.get (byteSymbol b) + 1)) l := by
  refine Table.ext_get fun x => ?_
  simp only [addCounts, Table.get_ofFn, Table.get_set, List.countP_cons, beq_iff_eq]
  by_cases h : byteSymbol b = x
  · have hx : b.toNat = x.val := congrArg Fin.val h
    rw [if_pos h, if_pos hx, h, BitVec.ofNat_add]
    ac_rfl
  · have hx : b.toNat ≠ x.val := fun hx => h (Fin.ext hx)
    rw [if_neg h, if_neg hx, Nat.add_zero]

/-- The counter of a byte value counts that value. -/
theorem addCounts_byteSymbol (f : Table Count 257) (l : List Byte) (b : Byte) :
    (addCounts f l).get (byteSymbol b) = f.get (byteSymbol b) + BitVec.ofNat 32 (l.count b) := by
  have hcount : (l.countP fun c => c.toNat == (byteSymbol b).val) = l.count b :=
    List.countP_congr fun c _ => by simp [byteSymbol, BitVec.toNat_inj]
  rw [addCounts, Table.get_ofFn, hcount]

/-- No counter passes 0xFFFFFFFF while the bytes of the list are counted (R101). -/
def CountsFit (f : Table Count 257) (l : List Byte) : Prop :=
  ∀ b : Byte, (f.get (byteSymbol b)).toNat + l.count b ≤ 0xFFFFFFFF

/-- A counter that still has its byte to count is not full. -/
theorem CountsFit.not_full (h : CountsFit f (b :: l)) : f.get (byteSymbol b) ≠ Config.cntMax := by
  intro hmax
  have hb := h b
  rw [hmax, List.count_cons_self, show Config.cntMax.toNat = 0xFFFFFFFF from rfl] at hb
  omega

theorem CountsFit.tail (h : CountsFit f (b :: l)) :
    CountsFit (f.set (byteSymbol b) (f.get (byteSymbol b) + 1)) l := by
  intro c
  have hc := h c
  rw [Table.get_set]
  by_cases hbc : b = c
  · subst hbc
    rw [List.count_cons_self] at hc
    have hone : (1 : Count).toNat = 1 := rfl
    rw [if_pos rfl, BitVec.toNat_add_of_lt (by rw [hone]; omega), hone]
    omega
  · rw [List.count_cons_of_ne hbc] at hc
    rwa [if_neg fun h => hbc (byteSymbol_inj.1 h)]

/-- With no failing read and no counter that would pass 0xFFFFFFFF, ECOUNTALL's pseudocode counts the rest of the source
(R102, R104). -/
theorem countAllBody_ok (n : Nat) : ∀ e : Enc, e.port.rp + n = e.port.src.length → (n ≠ 0 → e.eoi = false) →
    Calm .enc n e.port.io → CountsFit e.freq (e.port.src.drop e.port.rp) →
    countAllBody e = .ok { e with
      eoi := true,
      freq := addCounts e.freq (e.port.src.drop e.port.rp),
      port := { e.port with rp := e.port.src.length, io := ioAfter n e.port.io } } () := by
  induction n with
  | zero =>
    intro e hn _ _ _
    have hend : e.port.rp = e.port.src.length := hn
    rw [countAllBody_unfold, countBody_eoi hend.ge, List.drop_eq_nil_of_le hend.ge, addCounts_nil, ← hend]
    rfl
  | succ n ih =>
    intro e hn heoi hcalm hfit
    have hlt : e.port.rp < e.port.src.length := by omega
    have hopen : e.eoi = false := heoi n.succ_ne_zero
    rw [List.drop_eq_getElem_cons hlt] at hfit ⊢
    have hbody := countBody_byte (List.getElem?_eq_getElem hlt) (hcalm.head _ _) hfit.not_full
    rw [countAllBody_unfold, hbody, addCounts_cons, Ended.bind_ok, if_neg (Bool.eq_false_iff.1 hopen), ← ioAfter_tick]
    exact ih _ (by simp only; omega) (fun _ => hopen) hcalm.tick hfit.tail

/-- ECOUNTALL counts the rest of the source, as the state it leaves (R102, R104). -/
theorem exec_ecountall_ok (he : s.enc.err = .none) (hp : s.enc.phase = .count)
    (hrp : s.enc.port.rp ≤ s.enc.port.src.length) (heoi : s.enc.eoi = true → s.enc.port.rp = s.enc.port.src.length)
    (hcalm : Calm .enc (s.enc.port.src.length - s.enc.port.rp) s.enc.port.io)
    (hfit : CountsFit s.enc.freq (s.enc.port.src.drop s.enc.port.rp)) :
    exec .ecountall s = .next (s.setEnc { s.enc with
      eoi := true,
      freq := addCounts s.enc.freq (s.enc.port.src.drop s.enc.port.rp),
      port := { s.enc.port with
        rp := s.enc.port.src.length,
        io := ioAfter (s.enc.port.src.length - s.enc.port.rp) s.enc.port.io } }) := by
  have hgoes : s.enc.port.src.length - s.enc.port.rp ≠ 0 → s.enc.eoi = false := fun hne =>
    Bool.eq_false_iff.2 fun h => hne (by rw [heoi h, Nat.sub_self])
  rw [exec_ecountall he hp, countAllBody_ok _ s.enc (Nat.add_sub_cancel' hrp) hgoes hcalm hfit, encFinish]

/-- Every byte of a list is counted under exactly one byte value. -/
theorem sum_count_eq_length (l : List Byte) : ∑ i : Fin 256, l.count (BitVec.ofFin i) = l.length := by
  have hcount (i : Fin 256) : (l.map BitVec.toFin).count i = l.count (BitVec.ofFin i) :=
    List.count_map_of_injective l BitVec.toFin (fun _ _ h => BitVec.eq_of_toFin_eq h) (BitVec.ofFin i)
  calc ∑ i : Fin 256, l.count (BitVec.ofFin i)
    _ = ∑ i : Fin 256, (Multiset.ofList (l.map BitVec.toFin)).count i := Finset.sum_congr rfl fun i _ => by
      rw [Multiset.coe_count, hcount]
    _ = (l.map BitVec.toFin).length := Multiset.sum_count_eq_card fun a _ => Finset.mem_univ a
    _ = l.length := List.length_map _

/-- The 257 counters of a histogram sum to the source's length and the sentinel's 1 (R105). -/
theorem sum_of_histogram (hbyte : ∀ b : Byte, (f.get (byteSymbol b)).toNat = l.count b) (hsent : f.get sentinel = 1) :
    (f.cells.map BitVec.toNat).sum = l.length + 1 := by
  rw [Table.cells_eq_ofFn, List.map_ofFn, List.sum_ofFn, Fin.sum_univ_castSucc, ← sum_count_eq_length l]
  refine congrArg₂ _ (Finset.sum_congr rfl fun i _ => hbyte (BitVec.ofFin i)) ?_
  exact congrArg BitVec.toNat hsent

end Counting

section Repeating

variable {s t : State}

theorem encFinish_setEnc {α : Type} (s : State) (e : Enc) (x : Ended Enc α) :
    encFinish (s.setEnc e) x = encFinish s x := by
  cases x <;> rfl

theorem decFinish_setDec {α : Type} (s : State) (d : Dec) (x : Ended Dec α) :
    decFinish (s.setDec d) x = decFinish s x := by
  cases x <;> rfl

/-- Of a stretch of ENC's pseudocode begun in `e`: running through, it leaves ERR and the phase as they were; raising, it has
an error to latch (60_exceptions.md R262). -/
def EncGoesOn (e : Enc) (x : Ended Enc Unit) : Prop :=
  x.Meets (fun e' _ => e'.err = e.err ∧ e'.phase = e.phase) fun _ c => c ≠ .none

/-- Of a stretch of DEC's pseudocode begun in `d`: running through, it leaves ERR as it was, and the phase but for entering
DONE; raising, it has an error to latch (R262). -/
def DecGoesOn {α : Type} (d : Dec) (x : Ended Dec α) : Prop :=
  x.Meets (fun d' _ => d'.err = d.err ∧ (d'.phase = d.phase ∨ d'.phase = .done)) fun _ c => c ≠ .none

/-- Once an error is raised, one is latched (60_exceptions.md R262). -/
theorem Enc.latch_err_ne {c : ErrCode} (hc : c ≠ .none) (e : Enc) : (e.latch c).err ≠ .none := by
  rw [Enc.latch_err]
  split
  · exact hc
  · assumption

/-- Once an error is raised, one is latched (R262). -/
theorem Dec.latch_err_ne {c : ErrCode} (hc : c ≠ .none) (d : Dec) : (d.latch c).err ≠ .none := by
  rw [Dec.latch_err]
  split
  · exact hc
  · assumption

/-- A bulk command of ENC, whose pseudocode is another command's and then, unless EOI is 1, itself again, is that command
repeated (40_frequency.md R102, 45_encoder.md R206). -/
theorem encGate_repeats {one all : Instr} {body loop : Enc → Ended Enc Unit} (he : s.enc.err = .none)
    (hone : phaseLegal one s = true) (hall : ∀ e : Enc, e.phase = s.enc.phase → phaseLegal all (s.setEnc e) = true)
    (hbody : EncGoesOn s.enc (body s.enc))
    (hloop : loop s.enc = (body s.enc).bind fun e a => if e.eoi then .ok e a else loop e)
    (hx : encGate one body s = .next t) :
    encGate all loop s = if t.enc.err ≠ .none ∨ t.enc.eoi = true then .next t else encGate all loop t := by
  rw [encGate_run one s he hone] at hx
  rw [encGate_run all s he (hall s.enc rfl), hloop]
  rcases encFinish_next s t hx with ⟨e, a, hk, rfl⟩ | ⟨e, c, hk, rfl⟩ <;> rw [hk] at hbody ⊢
  · obtain ⟨herr, hphase⟩ := hbody
    have herr' : (s.setEnc e).enc.err = .none := herr.trans he
    rw [encGate_run all (s.setEnc e) herr' (hall e hphase), encFinish_setEnc, Ended.bind_ok]
    by_cases heoi : e.eoi = true
    · rw [if_pos heoi, if_pos (.inr heoi), encFinish]
    · have hgoes : ¬ ((s.setEnc e).enc.err ≠ .none ∨ (s.setEnc e).enc.eoi = true) :=
        not_or.2 ⟨not_not_intro herr', heoi⟩
      rw [if_neg heoi, if_neg hgoes, State.setEnc_enc]
  · rw [if_pos (.inl (Enc.latch_err_ne hbody e)), Ended.bind_raised, encFinish]

theorem countBody_goesOn (e : Enc) : EncGoesOn e (countBody e) := by
  rcases countBody_cases e with ⟨_, h⟩ | ⟨_, _, _, h⟩ | ⟨_, _, _, _, h⟩ | ⟨_, _, _, _, h⟩ <;> rw [h]
  · exact ⟨rfl, rfl⟩
  · exact nofun
  · exact nofun
  · exact ⟨rfl, rfl⟩

theorem emitBits_goesOn (p : Bits) (e : Enc) : EncGoesOn e (emitBits p e) := by
  induction p generalizing e with
  | nil => exact ⟨rfl, rfl⟩
  | cons b bs ih =>
    rw [emitBits]
    rcases writeBit_cases b e with ⟨_, h⟩ | ⟨_, _, h⟩ | ⟨_, _, h⟩ <;> rw [h]
    · exact ih _
    · exact ih _
    · exact nofun

theorem symBody_goesOn (e : Enc) : EncGoesOn e (symBody e) := by
  rcases symBody_cases e with ⟨_, h⟩ | ⟨_, _, _, h⟩ | ⟨_, _, _, _, h⟩ | ⟨_, p, _, _, _, h⟩ <;> rw [h]
  · exact ⟨rfl, rfl⟩
  · exact nofun
  · exact nofun
  · exact emitBits_goesOn p _

/-- A bulk command of DEC, whose pseudocode is R236's and then, unless it halts, itself again, is DSTEP repeated, where DONE
makes it halt (46_decoder.md R237, R238). -/
theorem decGate_repeats {all : Instr} {loop : Dec → Ended Dec Bool} {halt : Dec → Prop} [DecidablePred halt]
    (he : s.dec.err = .none) (hp : s.dec.phase = .ready)
    (hall : ∀ r : State, phaseLegal all r = decide (r.dec.phase = .ready)) (hdone : ∀ d : Dec, d.phase = .done → halt d)
    (hbody : DecGoesOn s.dec (stepBody s.dec))
    (hloop : loop s.dec = (stepBody s.dec).bind fun d a => if halt d then .ok d a else loop d)
    (hx : exec .dstep s = .next t) :
    decGate all (fun d => (loop d).unit) s =
      if t.dec.err ≠ .none ∨ halt t.dec then .next t else decGate all (fun d => (loop d).unit) t := by
  have hlegal (r : State) (hr : r.dec.phase = .ready) : phaseLegal all r = true := (hall r).trans (decide_eq_true hr)
  have hstep : exec .dstep s = decFinish s (stepBody s.dec).unit :=
    decGate_run (body := fun d => (stepBody d).unit) .dstep s he (decide_eq_true hp)
  rw [decGate_run all s he (hlegal s hp), hloop]
  rw [hstep] at hx
  cases hk : stepBody s.dec with
  | ok d a =>
    rw [hk] at hbody hx
    cases hx
    obtain ⟨herr, hphase⟩ := hbody
    have herr' : (s.setDec d).dec.err = .none := herr.trans he
    by_cases hhalt : halt d
    · rw [if_pos (.inr hhalt), Ended.bind_ok, if_pos hhalt]; rfl
    · have hready : (s.setDec d).dec.phase = .ready := (hphase.resolve_right fun h => hhalt (hdone d h)).trans hp
      have hgoes : ¬ ((s.setDec d).dec.err ≠ .none ∨ halt (s.setDec d).dec) := not_or.2 ⟨not_not_intro herr', hhalt⟩
      rw [if_neg hgoes, decGate_run all _ herr' (hlegal _ hready), decFinish_setDec,
        Ended.bind_ok, if_neg hhalt, State.setDec_dec]
  | raised d c =>
    rw [hk] at hbody hx
    cases hx
    rw [if_pos (.inl (Dec.latch_err_ne hbody d))]; rfl
  | stuck f => rw [hk] at hx; cases hx

theorem readBit_goesOn (d : Dec) : DecGoesOn d (readBit d) := by
  rcases readBit_cases d with ⟨_, h⟩ | ⟨_, _, h⟩ | ⟨_, _, _, _, h⟩ | ⟨_, _, _, _, h⟩ <;> rw [h]
  · exact ⟨rfl, .inl rfl⟩
  · exact ⟨rfl, .inl rfl⟩
  · exact ⟨rfl, .inl rfl⟩
  · exact nofun

theorem arrive_goesOn (d : Dec) : DecGoesOn d (arrive d) := by
  unfold arrive
  split
  · exact ⟨rfl, .inl rfl⟩
  · split
    · exact ⟨rfl, .inr rfl⟩
    · unfold Dec.write
      cases hio : d.port.io.answerAt .dec .write d.port.dst.length 0 with
      | true => rw [memWrite_fault _ _ _ hio]; exact nofun
      | false => rw [memWrite_ok _ _ _ hio]; exact ⟨rfl, .inl rfl⟩
  · exact nofun
  · trivial

theorem stepBody_goesOn (d : Dec) : DecGoesOn d (stepBody d) := by
  refine (readBit_goesOn d).bind fun d' r ⟨herr, hphase⟩ => ?_
  cases r with
  | none => exact nofun
  | some b =>
    exact (arrive_goesOn _).mono (fun d'' _ ⟨herr', hphase'⟩ =>
      ⟨herr'.trans herr, hphase'.elim (fun h => hphase.imp h.trans h.trans) .inr⟩) fun _ _ h => h

/-- DSYMBOL goes on until the phase is DONE or a byte was written (46_decoder.md R237). -/
theorem symbolBody_unfold_halt (d : Dec) (hp : d.phase ≠ .done) :
    symbolBody d = (stepBody d).bind fun d' a =>
      if d'.phase = .done ∨ d'.port.dst ≠ d.port.dst then .ok d' a else symbolBody d' := by
  rw [symbolBody_unfold]
  cases hk : stepBody d with
  | ok d' a => simp only [Ended.bind_ok, stepBody_flag d d' a hp hk]
  | raised d' c => rfl
  | stuck f => rfl

end Repeating

end Sys2Proof.Machine

open Sys2Proof Sys2Proof.Machine Sys2Proof.Safety

/-- Settles O19: one equation of ECOUNT's pseudocode for each case. -/
theorem ecountCountsOneByte : Obligations.EcountCountsOneByte := by
  refine ⟨by decide, fun s he hp => ?_⟩
  rw [exec_ecount he hp]
  refine ⟨fun hend => ?_, fun b hb => ⟨fun hio => ?_, fun hio => ⟨fun hf => ?_, fun hf => ?_⟩⟩⟩
  · rw [countBody_eoi hend.ge]; rfl
  · rw [countBody_fault hb hio, encFinish, Enc.latch_eq_ite, if_pos he]; rfl
  · rw [countBody_overflow hb hio hf, encFinish, Enc.latch_eq_ite, if_pos he]; rfl
  · rw [countBody_byte hb hio hf]; rfl

/-- Settles O20: each bulk command's pseudocode is its single command's and then itself again. -/
theorem bulkCommandsRepeatTheirSingleCommand : Obligations.BulkCommandsRepeatTheirSingleCommand := by
  intro s t
  refine ⟨fun he hp hx => ?_, fun he hp hx => ?_, fun he hp hx => ?_, fun he hp hx => ?_⟩
  · exact encGate_repeats (one := .ecount) (all := .ecountall) he (decide_eq_true hp)
      (fun e h => decide_eq_true (h.trans hp)) (countBody_goesOn _) (countAllBody_unfold _) hx
  · exact encGate_repeats (one := .esym) (all := .esymall) he (decide_eq_true hp)
      (fun e h => decide_eq_true (h.trans hp)) (symBody_goesOn _) (symAllBody_unfold _) hx
  · exact decGate_repeats (all := .dsymbol) (halt := fun d => d.phase = .done ∨ d.port.dst ≠ s.dec.port.dst) he hp
      (fun _ => rfl) (fun _ => .inl) (stepBody_goesOn _) (symbolBody_unfold_halt _ (by rw [hp]; decide)) hx
  · exact decGate_repeats (all := .drun) (halt := fun d => d.phase = .done) he hp (fun _ => rfl) (fun _ => id)
      (stepBody_goesOn _) (runBody_unfold _) hx

/-- Settles O21: by induction on the bytes left. -/
theorem ecountallCountsTheRestOfTheSource : Obligations.EcountallCountsTheRestOfTheSource :=
  fun _ he hp hrp heoi hcalm hfit => exec_ecountall_ok he hp hrp heoi hcalm hfit

/-- Settles O22: ECOUNTALL adds the counts of the whole source to zeros, and EFINAL sets the sentinel's. -/
theorem countingGivesTheHistogram : Obligations.CountingGivesTheHistogram := by
  intro s he hp heoi hrp hzero hcalm hcount
  have hdrop : s.enc.port.src.drop s.enc.port.rp = s.enc.port.src := by rw [hrp, List.drop_zero]
  have hfit : CountsFit s.enc.freq (s.enc.port.src.drop s.enc.port.rp) := fun b => by simpa [hdrop, hzero] using hcount b
  have hall := exec_ecountall_ok he hp (hrp ▸ Nat.zero_le _) (by simp [heoi]) (by rwa [hrp]) hfit
  refine ⟨_, _, hall, exec_efinal he hp, he, rfl, ?_⟩
  have hbyte (b : Byte) : (((addCounts s.enc.freq (s.enc.port.src.drop s.enc.port.rp)).set sentinel 1).get
      (byteSymbol b)).toNat = s.enc.port.src.count b := by
    have hlt := hcount b
    rw [Table.get_set_ne _ (sentinel_ne_byteSymbol b).symm, addCounts_byteSymbol, hdrop, hzero, zero_add,
      BitVec.toNat_ofNat, Nat.mod_eq_of_lt (by omega)]
  have hsent := Table.get_set_self (addCounts s.enc.freq (s.enc.port.src.drop s.enc.port.rp)) sentinel 1
  exact ⟨hbyte, hsent, sum_of_histogram hbyte hsent⟩

/-- Settles O23: by EFINAL's pseudocode. -/
theorem efinalSetsTheSentinelsCount : Obligations.EfinalSetsTheSentinelsCount :=
  ⟨by decide, fun _ he hp => exec_efinal he hp⟩

end

section
/-! PROOFS. Building a tree (41_tree.md): the merge rules fix the arena, and EBUILD and DBUILD make the one they fix. The arena
is fixed slot by slot: where two arenas built from one table agree below a slot, they agree at it. -/

namespace Sys2Proof.Machine

/-- A node is its five fields (10_state.md R31). -/
theorem Node.eq_of_fields {n n' : Node} (hkind : n.kind = n'.kind) (hsym : n.sym = n'.sym)
    (hweight : n.weight = n'.weight) (hleft : n.left = n'.left) (hright : n.right = n'.right) : n = n' := by
  cases n
  cases n'
  exact (Node.mk.injEq ..).mpr ⟨hkind, hsym, hweight, hleft, hright⟩

/-- The node table of an arena is what its slots read. -/
theorem Arena.node_eq_of_slotAt {a a' : Arena} (h : ∀ i, a.slotAt i = a'.slotAt i) : a.node = a'.node := by
  have hget (b : Arena) (i : Fin 513) : b.slotAt i = b.node.get i :=
    List.getD_eq_getElem _ _ (by rw [b.node.size]; exact i.isLt)
  exact Table.ext_get fun i => by rw [← hget, ← hget, h]

end Sys2Proof.Machine

namespace Sys2Proof.Safety

open Sys2Proof.Machine

section Agree

variable {a a' : Arena} {i j k : Nat}

/-- Two arenas hold the same nodes below slot `i`. -/
def AgreeBelow (a a' : Arena) (i : Nat) : Prop := ∀ j, j < i → a.slotAt j = a'.slotAt j

theorem AgreeBelow.symm (h : AgreeBelow a a' i) : AgreeBelow a' a i := fun j hj => (h j hj).symm

theorem AgreeBelow.isParent_iff (h : AgreeBelow a a' i) (hj : j < i) : IsParent a j k ↔ IsParent a' j k := by
  rw [IsParent, IsParent, h j hj]

/-- The queue node `i` is made from depends on the slots below it alone (R121). -/
theorem AgreeBelow.waiting_iff (h : AgreeBelow a a' i) : Waiting a i j ↔ Waiting a' i j :=
  and_congr_right fun _ => forall₂_congr fun _ hk => not_congr (h.isParent_iff hk)

theorem AgreeBelow.keyBefore_iff (h : AgreeBelow a a' i) (hj : j < i) (hk : k < i) :
    KeyBefore a j k ↔ KeyBefore a' j k := by
  rw [KeyBefore, KeyBefore, h j hj, h k hk]

theorem KeyBefore.asymm (h : KeyBefore a j k) : ¬ KeyBefore a k j := by
  unfold KeyBefore at *
  omega

/-- Two nodes of one queue are the same if, were they not, each would come before the other in one of the arenas (R122). -/
theorem AgreeBelow.first_eq (h : AgreeBelow a a' i) (hj : Waiting a i j) (hk : Waiting a i k)
    (hjk : j ≠ k → KeyBefore a j k) (hkj : j ≠ k → KeyBefore a' k j) : j = k := by
  by_contra hne
  exact (hjk hne).asymm ((h.keyBefore_iff hk.1 hj.1).2 (hkj hne))

/-- The two least nodes of a queue are merged in one way only (R125). -/
theorem AgreeBelow.merged_children (h : AgreeBelow a a' i) (hm : MergedLeast a i) (hm' : MergedLeast a' i)
    (hne : (a.slotAt i).left ≠ (a.slotAt i).right) (hne' : (a'.slotAt i).left ≠ (a'.slotAt i).right) :
    (a.slotAt i).left = (a'.slotAt i).left ∧ (a.slotAt i).right = (a'.slotAt i).right := by
  have hleft : (a.slotAt i).left = (a'.slotAt i).left := BitVec.eq_of_toNat_eq <|
    h.first_eq hm.left_waits (h.waiting_iff.2 hm'.left_waits)
      (fun hd => hm.left_least _ (h.waiting_iff.2 hm'.left_waits) hd.symm)
      (fun hd => hm'.left_least _ (h.waiting_iff.1 hm.left_waits) hd)
  have hr : (a'.slotAt i).right.toNat ≠ (a.slotAt i).left.toNat := fun hd =>
    hne' (hleft.symm.trans (BitVec.eq_of_toNat_eq hd.symm))
  have hr' : (a.slotAt i).right.toNat ≠ (a'.slotAt i).left.toNat := fun hd =>
    hne (hleft.trans (BitVec.eq_of_toNat_eq hd.symm))
  exact ⟨hleft, BitVec.eq_of_toNat_eq <|
    h.first_eq hm.right_waits (h.waiting_iff.2 hm'.right_waits)
      (fun hd => hm.right_next _ (h.waiting_iff.2 hm'.right_waits) hr hd.symm)
      (fun hd => hm'.right_next _ (h.waiting_iff.1 hm.right_waits) hr' hd)⟩

end Agree

section Slots

variable {f : Table Count 257} {a a' : Arena} {i j : Nat}

/-- A slot that holds a node is below `NNODES` (R31). -/
theorem TreeOf.lt_of_kind (h : TreeOf f a) {k : NodeKind} (hi : (a.slotAt i).kind = k) (hk : k ≠ .empty := by decide) :
    i < a.nnodes.toNat := by
  by_contra hc
  rw [h.unused_above i (Nat.le_of_not_lt hc)] at hi
  exact hk hi.symm

/-- A slot that holds none is not. -/
theorem TreeOf.nnodes_le_of_empty (h : TreeOf f a) (hi : (a.slotAt i).kind = .empty) : a.nnodes.toNat ≤ i :=
  Nat.le_of_not_lt fun hlt => h.used_below i hlt hi

/-- Once the last node is made only the root waits (R126, R129). -/
theorem TreeOf.root_of_waiting (h : TreeOf f a) (hi : (a.slotAt i).kind = .empty) (hw : Waiting a i j)
    (hj : (a.slotAt j).kind ≠ .empty) : j = a.root.toNat := by
  have hlast := h.root_last
  have hjn := h.lt_of_kind rfl hj
  have hin := h.nnodes_le_of_empty hi
  by_contra hne
  obtain ⟨k, hk, hpar⟩ := h.parent j (by omega)
  exact hw.2 k (by omega) hpar

/-- Two arenas built from one table that agree below slot `i`. -/
structure Twins (f : Table Count 257) (a a' : Arena) (i : Nat) : Prop where
  tree : TreeOf f a
  built : BuiltFrom f a
  tree' : TreeOf f a'
  built' : BuiltFrom f a'
  agree : AgreeBelow a a' i

theorem Twins.symm (t : Twins f a a' i) : Twins f a' a i := ⟨t.tree', t.built', t.tree, t.built, t.agree.symm⟩

/-- The leaf at slot `i` of one arena is in the other too, and not below slot `i`. -/
theorem Twins.leaf_later (t : Twins f a a' i) (hi : (a.slotAt i).kind = .leaf) :
    ∃ k, i ≤ k ∧ k < a'.nnodes.toNat ∧ a'.slotAt k = a.slotAt i := by
  obtain ⟨s, hs, hslot⟩ := t.tree.leaf_node i (t.tree.lt_of_kind hi) hi
  obtain ⟨k, hk, hslot'⟩ := t.tree'.leaf_of s hs
  have hsame : a'.slotAt k = a.slotAt i := hslot'.trans hslot.symm
  refine ⟨k, Nat.le_of_not_lt fun hlt => ?_, hk, hsame⟩
  have hik := t.tree.leaf_unique i k hi (hsame.symm.trans (t.agree k hlt).symm)
  omega

theorem Twins.nullLeaf_kind (t : Twins f a a' i) (hi : (a.slotAt i).kind = .nullLeaf) :
    (a'.slotAt i).kind = .nullLeaf := by
  obtain ⟨k, hk⟩ := t.built'.null_iff.2 (t.built.null_iff.1 ⟨i, hi⟩)
  rwa [t.built.null_second i hi, ← t.built'.null_second k hk]

theorem Twins.leaf_kind (t : Twins f a a' i) (hi : (a.slotAt i).kind = .leaf) : (a'.slotAt i).kind = .leaf := by
  obtain ⟨k, hik, hk, hsame⟩ := t.leaf_later hi
  have hin : i < a'.nnodes.toNat := by omega
  have hkl : (a'.slotAt k).kind = .leaf := by rw [hsame, hi]
  cases hkind : (a'.slotAt i).kind with
  | leaf => rfl
  | empty => exact absurd hkind (t.tree'.used_below i hin)
  | nullLeaf => rw [t.symm.nullLeaf_kind hkind] at hi; cases hi
  | internal =>
    have hki := (t.tree'.leaves_first k hk).2 (((t.tree'.leaves_first i hin).1 hkind).trans hik)
    rw [hki] at hkl; cases hkl

theorem Twins.internal_kind (t : Twins f a a' i) (hi : (a.slotAt i).kind = .internal) :
    (a'.slotAt i).kind = .internal := by
  cases hkind : (a'.slotAt i).kind with
  | internal => rfl
  | leaf => rw [t.symm.leaf_kind hkind] at hi; cases hi
  | nullLeaf => rw [t.symm.nullLeaf_kind hkind] at hi; cases hi
  | empty =>
    have hin := t.tree.lt_of_kind hi
    obtain ⟨_, _, hne, _⟩ := t.tree.internal_node i hin hi
    have hm := t.built.merged i hi
    have hroot {j : Nat} (hw : Waiting a i j) : j = a'.root.toNat :=
      t.tree'.root_of_waiting hkind (t.agree.waiting_iff.1 hw)
        (t.agree j hw.1 ▸ t.tree.used_below j (hw.1.trans hin))
    exact absurd (BitVec.eq_of_toNat_eq ((hroot hm.left_waits).trans (hroot hm.right_waits).symm)) hne

theorem Twins.kind_eq (t : Twins f a a' i) : (a.slotAt i).kind = (a'.slotAt i).kind := by
  cases hi : (a.slotAt i).kind with
  | leaf => exact (t.leaf_kind hi).symm
  | nullLeaf => exact (t.nullLeaf_kind hi).symm
  | internal => exact (t.internal_kind hi).symm
  | empty =>
    cases hi' : (a'.slotAt i).kind with
    | empty => rfl
    | leaf => rw [t.symm.leaf_kind hi'] at hi; cases hi
    | nullLeaf => rw [t.symm.nullLeaf_kind hi'] at hi; cases hi
    | internal => rw [t.symm.internal_kind hi'] at hi; cases hi

/-- A leaf at slot `i` carries no greater symbol in the other arena, as leaves ascend (R124). -/
theorem Twins.leaf_sym_le (t : Twins f a a' i) (hi : (a.slotAt i).kind = .leaf) :
    (a'.slotAt i).sym.toNat ≤ (a.slotAt i).sym.toNat := by
  obtain ⟨k, hik, _, hsame⟩ := t.leaf_later hi
  rcases hik.eq_or_lt with rfl | hlt
  · rw [hsame]
  · have := t.built'.leaves_sorted i k hlt (t.leaf_kind hi) (by rw [hsame, hi])
    rw [hsame] at this
    exact this.le

/-- Agreeing below a slot, the arenas agree at it. -/
theorem Twins.slot_eq (t : Twins f a a' i) : a.slotAt i = a'.slotAt i := by
  have hkind := t.kind_eq
  cases hi : (a.slotAt i).kind with
  | empty =>
    have hi' := hkind.symm.trans hi
    rw [t.tree.unused_above i (t.tree.nnodes_le_of_empty hi), t.tree'.unused_above i (t.tree'.nnodes_le_of_empty hi')]
  | nullLeaf =>
    have hi' := hkind.symm.trans hi
    rw [t.tree.null_node i (t.tree.lt_of_kind hi) hi,
      t.tree'.null_node i (t.tree'.lt_of_kind hi') hi']
  | leaf =>
    have hi' := hkind.symm.trans hi
    obtain ⟨s, _, hs⟩ := t.tree.leaf_node i (t.tree.lt_of_kind hi) hi
    obtain ⟨s', _, hs'⟩ := t.tree'.leaf_node i (t.tree'.lt_of_kind hi') hi'
    have hle := t.leaf_sym_le hi
    have hge := t.symm.leaf_sym_le hi'
    simp only [hs, hs', leafNode, symbolField_toNat] at hle hge
    rw [hs, hs', Fin.ext (Nat.le_antisymm hge hle)]
  | internal =>
    have hi' := hkind.symm.trans hi
    obtain ⟨hl, hr, hne, hw, hsym⟩ := t.tree.internal_node i (t.tree.lt_of_kind hi) hi
    obtain ⟨_, _, hne', hw', hsym'⟩ := t.tree'.internal_node i (t.tree'.lt_of_kind hi') hi'
    obtain ⟨hleft, hright⟩ := t.agree.merged_children (t.built.merged i hi) (t.built'.merged i hi') hne hne'
    have hweight : (a.slotAt i).weight = (a'.slotAt i).weight := by
      rw [hw, hw', ← hleft, ← hright, Arena.slot, Arena.slot, t.agree _ hl, t.agree _ hr]
      rfl
    exact Node.eq_of_fields hkind (hsym.trans hsym'.symm) hweight hleft hright

/-- Two arenas built from one table agree at every slot. -/
theorem BuiltFrom.slotAt_eq (hb : BuiltFrom f a) (h : TreeOf f a) (h' : TreeOf f a') (hb' : BuiltFrom f a') (i : Nat) :
    a.slotAt i = a'.slotAt i := by
  induction i using Nat.strong_induction_on with
  | _ i ih => exact Twins.slot_eq ⟨h, hb, h', hb', ih⟩

/-- `NNODES` and `ROOT` of a tree follow from its slots (R129). -/
theorem TreeOf.arena_ext (h : TreeOf f a) (h' : TreeOf f a') (hslot : ∀ i, a.slotAt i = a'.slotAt i) : a = a' := by
  have hnode := Arena.node_eq_of_slotAt hslot
  have hcount : leafCount a = leafCount a' := by rw [leafCount, leafCount, hnode]
  have hn := h.size_eq
  have hn' := h'.size_eq
  have hr := h.root_last
  have hr' := h'.root_last
  have hnnodes : a.nnodes = a'.nnodes := BitVec.eq_of_toNat_eq (by omega)
  have hroot : a.root = a'.root := BitVec.eq_of_toNat_eq (by omega)
  cases a
  cases a'
  exact (Arena.mk.injEq ..).mpr ⟨hnode, hnnodes, hroot⟩

end Slots

end Sys2Proof.Safety

namespace Sys2Proof.Machine

section Building

variable {s : State} {a : Arena}

/-- In FINAL and with no error latched, EBUILD leaves the arena TreeBuild answers and enters BUILT (41_tree.md R127). -/
theorem exec_ebuild (he : s.enc.err = .none) (hp : s.enc.phase = .final) (ha : treeBuild s.enc.freq = some a) :
    exec .ebuild s = .next (s.setEnc { s.enc with arena := a, phase := .built }) := by
  have hrun : exec .ebuild s = encFinish s (ebuildBody s.enc) := encGate_run .ebuild s he (decide_eq_true hp)
  rw [hrun, ebuildBody, ha, encFinish]

/-- In LOADED and with no error latched, DBUILD leaves the arena TreeBuild answers, the walker at its root, and enters READY
(R128). -/
theorem exec_dbuild (he : s.dec.err = .none) (hp : s.dec.phase = .loaded) (ha : treeBuild s.dec.freq = some a) :
    exec .dbuild s = .next (s.setDec { s.dec with arena := a, cur := a.root, phase := .ready }) := by
  have hrun : exec .dbuild s = decFinish s (dbuildBody s.dec) := decGate_run .dbuild s he (decide_eq_true hp)
  rw [hrun, dbuildBody, ha, decFinish]

end Building

end Sys2Proof.Machine

open Sys2Proof Sys2Proof.Machine Sys2Proof.Safety

/-- Settles O26: by strong induction on the slot, two arenas agree at every slot, and the slots give the rest. -/
theorem theMergeRulesFixTheTree : Obligations.TheMergeRulesFixTheTree :=
  fun _ _ _ h hb h' hb' => h.arena_ext h' (hb.slotAt_eq h h' hb')

/-- Settles O24: TreeBuild answers such an arena for a table that counts the sentinel. -/
theorem ebuildMergesTheTwoLeastNodes : Obligations.EbuildMergesTheTwoLeastNodes := by
  intro s he hp hs
  obtain ⟨a, ha, htree, hbuilt, hweight⟩ := treeBuild_some s.enc.freq hs
  exact ⟨a, exec_ebuild he hp ha, htree, hbuilt, hweight⟩

/-- Settles O25: both units build what TreeBuild answers for their table. -/
theorem dbuildRebuildsTheEncodersTree : Obligations.DbuildRebuildsTheEncodersTree := by
  intro s he hp hs
  obtain ⟨a, ha, htree, hbuilt, _⟩ := treeBuild_some s.dec.freq hs
  exact ⟨a, exec_dbuild he hp ha, htree, hbuilt, fun s' he' hp' hf => exec_ebuild he' hp' (hf ▸ ha)⟩

end

section
/-! PROOFS. The encoding table (42_codetable.md R140 to R144): EDERIVE records the paths from the root to the leaves, a path ends
at the first leaf it reaches, and the codes of a tree share out the whole of 1, half of it at every branch. -/

namespace Sys2Proof.Machine

section Traversal

variable {s : State} {a : Arena} {n : NodeId} {depth : Nat} {p : Bits} {codes : Table (Option Bits) 257}

/-- In BUILT and with no error latched, EDERIVE leaves the table Derive answers and enters READY (R142). -/
theorem exec_ederive (he : s.enc.err = .none) (hp : s.enc.phase = .built) (hd : derive s.enc.arena = some codes) :
    exec .ederive s = .next (s.setEnc { s.enc with code := codes, phase := .ready }) := by
  have hrun : exec .ederive s = encFinish s (deriveBody s.enc) := encGate_run .ederive s he (decide_eq_true hp)
  rw [hrun, deriveBody, hd, encFinish]

@[simp] theorem get_noCodes (x : Symbol) : noCodes.get x = none := Table.get_fill none x

/-- At a leaf the traversal records the path it came by. -/
theorem derivePaths_leaf {x : Symbol} {c : Count} (hn : a.slot n = leafNode x c) :
    derivePaths a (depth + 1) n p codes = some (codes.set x (some p)) := by
  have hsym : (leafNode x c).sym.toNat = x.val := symbolField_toNat x
  have hlt : (leafNode x c).sym.toNat < 257 := hsym ▸ x.isLt
  have hx : (⟨_, hlt⟩ : Symbol) = x := Fin.ext hsym
  simp only [derivePaths, hn]
  exact (dif_pos hlt).trans (by rw [hx])

/-- At an INTERNAL node it visits the left subtree and then the right one. -/
theorem derivePaths_internal (hn : (a.slot n).kind = .internal) :
    derivePaths a (depth + 1) n p codes =
      (derivePaths a depth (childOf a n false) (p ++ [false]) codes).bind
        (derivePaths a depth (childOf a n true) (p ++ [true])) := by
  simp only [derivePaths, hn]
  change _ = (derivePaths a depth (a.slot n).left (p ++ [false]) codes).bind _
  cases derivePaths a depth (a.slot n).left (p ++ [false]) codes <;> rfl

end Traversal

end Sys2Proof.Machine

namespace Sys2Proof.Safety

open Sys2Proof.Machine

section Leaves

variable {f : Table Count 257} {a : Arena} {codes : Table (Option Bits) 257} {n m k : NodeId} {x y : Symbol} {p q : Bits}

/-- A path leads to one node only. -/
theorem leadsTo_end_unique (hm : LeadsTo a n p m) (hk : LeadsTo a n p k) : m = k := by
  induction p generalizing n with
  | nil => exact Eq.trans (Eq.symm hm) hk
  | cons b bs ih => exact ih hm.2 hk.2

/-- No path goes on past a node that is not INTERNAL. -/
theorem leadsTo_prefix_end (hmk : (a.slot m).kind ≠ .internal) (hm : LeadsTo a n p m) (hk : LeadsTo a n q k)
    (hpq : p <+: q) : m = k := by
  obtain ⟨r, rfl⟩ := hpq
  obtain ⟨m', hm', hr⟩ := leadsTo_append.1 hk
  obtain rfl := leadsTo_end_unique hm hm'
  obtain rfl := leadsTo_leaf_nil hmk hr
  exact hr

/-- A leaf of a tree is known by its symbol (R31, R121). -/
theorem TreeOf.slot_eq_leafNode_iff (h : TreeOf f a) :
    a.slot m = leafNode x (f.get x) ↔ (a.slot m).kind = .leaf ∧ (a.slot m).sym.toNat = x.val := by
  constructor
  · intro hm
    rw [hm]
    exact ⟨rfl, symbolField_toNat x⟩
  · rintro ⟨hkind, hsym⟩
    obtain ⟨y, _, hy⟩ := h.leaf_node m.toNat (h.lt_of_kind hkind) hkind
    have hm : a.slot m = leafNode y (f.get y) := hy
    have hyx : y = x := Fin.ext <| (symbolField_toNat y).symm.trans (by rw [← hsym, hm]; rfl)
    rw [hm, hyx]

/-- A code of a tree's table is the path to its symbol's leaf (R141). -/
theorem TreeOf.code_iff (h : TreeOf f a) (hd : derive a = some codes) :
    codes.get x = some p ↔ ∃ m, LeadsTo a a.root p m ∧ a.slot m = leafNode x (f.get x) := by
  obtain ⟨c, hc, hiff, _⟩ := derive_some h
  obtain rfl : codes = c := Option.some.inj (hd.symm.trans hc)
  exact hiff x p

/-- Of two symbols' codes neither is the beginning of the other (R143). -/
theorem TreeOf.codes_prefix_free (h : TreeOf f a) (hd : derive a = some codes) (hx : codes.get x = some p)
    (hy : codes.get y = some q) (hpq : p <+: q) : x = y := by
  obtain ⟨m, hm, hmx⟩ := (h.code_iff hd).1 hx
  obtain ⟨k, hk, hky⟩ := (h.code_iff hd).1 hy
  have hleaf : (a.slot m).kind ≠ .internal := by rw [hmx]; exact nofun
  obtain rfl := leadsTo_prefix_end hleaf hm hk hpq
  exact leafNode_inj (hmx.symm.trans hky)

end Leaves

section Kraft

variable {f : Table Count 257} {a : Arena} {codes : Table (Option Bits) 257} {x : Symbol}

/-- A code's share of the Kraft sum, in units of 2^-256 (R143). -/
def kraftTerm : Option Bits → Nat
  | none => 0
  | some p => 2 ^ (256 - p.length)

/-- The Kraft sum of an encoding table, in units of 2^-256 (R143). -/
def kraftSum (codes : Table (Option Bits) 257) : Nat :=
  ((List.finRange 257).map fun x => kraftTerm (codes.get x)).sum

@[simp] theorem kraftSum_noCodes : kraftSum noCodes = 0 := by
  simp only [kraftSum, ← Fin.sum_univ_def, get_noCodes, kraftTerm, Finset.sum_const_zero]

/-- A new code adds its share. -/
theorem kraftSum_set (hx : codes.get x = none) (p : Bits) :
    kraftSum (codes.set x (some p)) = kraftSum codes + 2 ^ (256 - p.length) := by
  have hterm (y : Symbol) : kraftTerm ((codes.set x (some p)).get y) =
      kraftTerm (codes.get y) + if x = y then 2 ^ (256 - p.length) else 0 := by
    rw [Table.get_set]
    split
    next hxy => rw [← hxy, hx]; simp only [kraftTerm, Nat.zero_add]
    next => rfl
  simp only [kraftSum, ← Fin.sum_univ_def, hterm, Finset.sum_add_distrib, Finset.sum_ite_eq, Finset.mem_univ, if_true]

/-- The symbols whose leaves are in the subtree at `n` have no code yet. -/
def Uncoded (f : Table Count 257) (a : Arena) (n : NodeId) (codes : Table (Option Bits) 257) : Prop :=
  ∀ x q m, LeadsTo a n q m → a.slot m = leafNode x (f.get x) → codes.get x = none

theorem Uncoded.child {n : NodeId} (hu : Uncoded f a n codes) (hk : (a.slot n).kind = .internal) (b : Bool) :
    Uncoded f a (childOf a n b) codes :=
  fun x q m hq => hu x (b :: q) m ⟨hk, hq⟩

/-- A symbol has one leaf (R129). -/
theorem TreeOf.leaf_id_unique (h : TreeOf f a) {m m' : NodeId} (hm : a.slot m = leafNode x (f.get x))
    (hm' : a.slot m' = leafNode x (f.get x)) : m = m' :=
  BitVec.eq_of_toNat_eq (h.leaf_unique _ _ ((h.slot_eq_leafNode_iff).1 hm).1 (hm.trans hm'.symm))

/-- Visiting the left subtree gives no code to the symbols of the right one. -/
theorem TreeOf.uncoded_right (h : TreeOf f a) {n : NodeId} {p : Bits} {depth : Nat} {codes' : Table (Option Bits) 257}
    (hk : (a.slot n).kind = .internal) (hn : n.toNat < depth + 1) (hu : Uncoded f a n codes)
    (hd : derivePaths a depth (childOf a n false) p codes = some codes') : Uncoded f a (childOf a n true) codes' := by
  intro x q m hq hm
  have hlt := h.child_lt hk false
  have hin := h.internal_lt hk
  obtain ⟨c, hc, _, hkeep⟩ := derivePaths_spec h depth (childOf a n false) p codes (by omega) (by omega)
  obtain rfl : codes' = c := Option.some.inj (hd.symm.trans hc)
  rw [hkeep x fun q' m' hq' hm' => h.subtrees_apart hk hq' (h.leaf_id_unique hm hm' ▸ hq)]
  exact hu.child hk true x q m hq hm

/-- Without a null leaf, the codes of the subtree at the end of a path share out what a code of the path's length would have
(R143): the two subtrees of an INTERNAL node have half of it each. -/
theorem TreeOf.derivePaths_kraft (h : TreeOf f a) (hnull : ∀ i, (a.slotAt i).kind ≠ .nullLeaf) (depth : Nat)
    {n : NodeId} {p : Bits} {codes codes' : Table (Option Bits) 257} (hn : n.toNat < depth)
    (hp : LeadsTo a a.root p n) (hu : Uncoded f a n codes) (hd : derivePaths a depth n p codes = some codes') :
    kraftSum codes' = kraftSum codes + 2 ^ (256 - p.length) := by
  induction depth generalizing n p codes codes' with
  | zero => omega
  | succ depth ih =>
    have hlt := h.leadsTo_lt (h.internal_lt h.root_internal) hp
    cases hk : (a.slot n).kind with
    | empty => exact absurd hk (h.used_below _ hlt)
    | nullLeaf => exact absurd hk (hnull _)
    | leaf =>
      obtain ⟨x, _, hx⟩ := h.leaf_node n.toNat hlt hk
      obtain rfl := Option.some.inj ((derivePaths_leaf hx).symm.trans hd)
      exact kraftSum_set (hu x [] n rfl hx) p
    | internal =>
      have hleft := h.child_lt hk false
      have hright := h.child_lt hk true
      have hpath (b : Bool) : LeadsTo a a.root (p ++ [b]) (childOf a n b) := leadsTo_snoc.2 ⟨n, hp, hk, rfl⟩
      rw [derivePaths_internal hk] at hd
      obtain ⟨mid, hmid, hd⟩ := Option.bind_eq_some_iff.1 hd
      have hl := ih (by omega) (hpath false) (hu.child hk false) hmid
      have hr := ih (by omega) (hpath true) (h.uncoded_right hk hn hu hmid) hd
      have hlen := h.depth_le (hpath true)
      simp only [List.length_append, List.length_singleton] at hl hr hlen
      have hstep : 256 - p.length = 256 - (p.length + 1) + 1 := by omega
      rw [hr, hl, hstep, Nat.pow_succ, Nat.mul_two, Nat.add_assoc]

/-- Without a null leaf the Kraft sum of a tree's codes is 1 (R143). -/
theorem TreeOf.kraftSum_eq (h : TreeOf f a) (hnull : ∀ i, (a.slotAt i).kind ≠ .nullLeaf) (hd : derive a = some codes) :
    kraftSum codes = 2 ^ 256 := by
  have hroot : a.root.toNat < Config.nodeMax := by
    have := h.root_last
    have := h.size_eq
    have := h.leaves_le
    simp only [Config.nodeMax]
    omega
  have hfresh : Uncoded f a a.root noCodes := fun x _ _ _ _ => get_noCodes x
  rw [h.derivePaths_kraft hnull Config.nodeMax (p := []) hroot rfl hfresh hd, kraftSum_noCodes]
  rfl

end Kraft

section NullLeaf

variable {f : Table Count 257} {a : Arena} {codes : Table (Option Bits) 257}

/-- A table with a null leaf counts the sentinel alone (41_tree.md R123). -/
theorem BuiltFrom.eq_sentinel (hb : BuiltFrom f a) (hnull : ∃ i, (a.slotAt i).kind = .nullLeaf) {x : Symbol}
    (hx : f.get x ≠ 0) : x = sentinel := hb.null_iff.1 hnull x hx

/-- Beside a null leaf every other leaf is the sentinel's (R123). -/
theorem TreeOf.slotAt_sentinel (h : TreeOf f a) (hb : BuiltFrom f a) (hnull : ∃ i, (a.slotAt i).kind = .nullLeaf)
    {i : Nat} (hi : i < leafCount a) (h1 : i ≠ 1) :
    f.get sentinel ≠ 0 ∧ a.slotAt i = leafNode sentinel (f.get sentinel) := by
  have hge := h.leaves_ge
  have hsize := h.size_eq
  have hlt : i < a.nnodes.toNat := by omega
  cases hk : (a.slotAt i).kind with
  | empty => exact absurd hk (h.used_below i hlt)
  | nullLeaf => exact absurd (hb.null_second i hk) h1
  | internal => exact absurd ((h.leaves_first i hlt).1 hk) (by omega)
  | leaf =>
    obtain ⟨x, hx, hslot⟩ := h.leaf_node i hlt hk
    obtain rfl := hb.eq_sentinel hnull hx
    exact ⟨hx, hslot⟩

/-- A tree with a null leaf has one other leaf (R123). -/
theorem TreeOf.leafCount_null (h : TreeOf f a) (hb : BuiltFrom f a) (hnull : ∃ i, (a.slotAt i).kind = .nullLeaf) :
    leafCount a = 2 := by
  have hge := h.leaves_ge
  by_contra hne
  obtain ⟨_, h0⟩ := h.slotAt_sentinel hb hnull (i := 0) (by omega) (by decide)
  obtain ⟨_, h2⟩ := h.slotAt_sentinel hb hnull (i := 2) (by omega) (by decide)
  exact absurd (h.leaf_unique 0 2 (by rw [h0]; rfl) (h0.trans h2.symm)) (by decide)

/-- No counted symbol's leaf comes before a null leaf in the queue's order (R122, R123). -/
theorem not_keyBefore_nullLeaf {i j : Nat} {x : Symbol} {c : Count} (hc : c ≠ 0) (hi : a.slotAt i = leafNode x c)
    (hj : a.slotAt j = nullLeafNode) : ¬ KeyBefore a i j := by
  have hweight : (leafNode x c).weight.toNat = c.toNat := BitVec.toNat_setWidth_of_le (by decide)
  have hzero : nullLeafNode.weight.toNat = 0 := rfl
  have hpos : c.toNat ≠ 0 := fun h0 => hc (BitVec.eq_of_toNat_eq h0)
  rw [KeyBefore, hi, hj, hweight, hzero]
  omega

/-- The null leaf is the root's left child, as the least of the queue, and the sentinel's leaf its right child (R123). -/
theorem TreeOf.right_null (h : TreeOf f a) (hb : BuiltFrom f a) (hnull : ∃ i, (a.slotAt i).kind = .nullLeaf) :
    (a.slot a.root).right.toNat = 0 := by
  have hcount := h.leafCount_null hb hnull
  have hsize := h.size_eq
  have hlast := h.root_last
  obtain ⟨hpos, h0⟩ := h.slotAt_sentinel hb hnull (i := 0) (by omega) (by decide)
  obtain ⟨i, hi⟩ := hnull
  obtain rfl := hb.null_second i hi
  have h1 : a.slotAt 1 = nullLeafNode := h.null_node 1 (by omega) hi
  have hlt (b : Bool) := h.child_lt h.root_internal b
  have hleft : (a.slot a.root).left.toNat < a.root.toNat := hlt false
  have hright : (a.slot a.root).right.toNat < a.root.toNat := hlt true
  have hm : MergedLeast a a.root.toNat := hb.merged _ h.root_internal
  by_contra hne
  have hone : (a.slot a.root).right.toNat = 1 := by omega
  have hzero : (a.slot a.root).left.toNat = 0 := by
    have hdiff : (a.slot a.root).left.toNat ≠ (a.slot a.root).right.toNat := fun he =>
      absurd (h.child_inj h.root_internal (b := false) (c := true) (BitVec.eq_of_toNat_eq he)) (by decide)
    omega
  have hwaits : Waiting a a.root.toNat 1 := hone ▸ hm.right_waits
  have hkey : KeyBefore a 0 1 := hzero ▸ hm.left_least 1 hwaits (by rw [← Arena.slot, hzero]; decide)
  exact not_keyBefore_nullLeaf hpos h0 h1 hkey

/-- With a null leaf the only code is the sentinel's, the one bit 1 (R123, R143). -/
theorem TreeOf.derive_null (h : TreeOf f a) (hb : BuiltFrom f a) (hnull : ∃ i, (a.slotAt i).kind = .nullLeaf) :
    derive a = some (noCodes.set sentinel (some [true])) := by
  obtain ⟨codes, hd, _, hsome⟩ := derive_some h
  have hleaf : a.slot (a.slot a.root).right = leafNode sentinel (f.get sentinel) := by
    have h2 := h.leaves_ge
    rw [Arena.slot, h.right_null hb hnull]
    exact (h.slotAt_sentinel hb hnull (by omega) (by decide)).2
  have hcode : codes.get sentinel = some [true] := (h.code_iff hd).2 ⟨_, ⟨h.root_internal, rfl⟩, hleaf⟩
  rw [hd]
  refine congrArg some (Table.ext_get fun x => ?_)
  by_cases hx : x = sentinel
  · rw [hx, hcode, Table.get_set_self]
  · rw [Table.get_set_ne _ (Ne.symm hx), get_noCodes, ← Option.not_isSome_iff_eq_none, hsome]
    exact fun hf => hx (hb.eq_sentinel hnull hf)

end NullLeaf

end Sys2Proof.Safety

open Sys2Proof Sys2Proof.Machine Sys2Proof.Safety

/-- Settles O27: EDERIVE's table is Derive's, whose codes are the paths to the leaves. -/
theorem ederiveRecordsTheRootToLeafPaths : Obligations.EderiveRecordsTheRootToLeafPaths := by
  intro s he hp h
  obtain ⟨codes, hd, hpath, hsome⟩ := derive_some h
  exact ⟨codes, exec_ederive he hp hd,
    fun x p => (hpath x p).trans (exists_congr fun m => and_congr_right fun _ => h.slot_eq_leafNode_iff), hsome⟩

/-- Settles O28: a path ends at the first leaf it reaches, and the subtrees of a node share out its part of the Kraft sum. -/
theorem codesArePrefixFreeAndComplete : Obligations.CodesArePrefixFreeAndComplete := by
  intro s t kraft he hp h hrun hkraft
  obtain ⟨codes, hd, _⟩ := derive_some h
  obtain rfl := Host.Outcome.next.inj ((exec_ederive he hp hd).symm.trans hrun)
  have hsum : kraft = kraftSum codes := hkraft
  refine ⟨fun x p hx => (derive_coded h hd x).2 p hx, fun x y p q hx hy hxy hpq => hxy (h.codes_prefix_free hd hx hy hpq),
    fun hnull => hsum.trans (h.kraftSum_eq hnull hd), fun hb hnull => ?_⟩
  obtain rfl : codes = _ := Option.some.inj (hd.symm.trans (h.derive_null hb hnull))
  refine ⟨?_, Table.get_set_self .., fun x hx => ?_⟩
  · rw [hsum, kraftSum_set (get_noCodes sentinel), kraftSum_noCodes]
    rfl
  · exact (Table.get_set_ne _ (Ne.symm hx) _).trans (get_noCodes x)

end

section
/-! PROOFS. The bit-packer (43_bitwriter.md R160 to R164): EWBIT case by case, ECLOSE and the destination it leaves final, and
the bits a packing holds. -/

namespace Sys2Proof.Safety

open Sys2Proof.Machine

section Packing

variable {c : Bits} {j k : Nat}

/-- Shifting a bit in is a shift by one place and the bit in bit 0 (43_bitwriter.md R160). -/
theorem shiftIn_eq (acc : BitVec 8) (b : Bool) : shiftIn acc b = acc <<< 1 ||| (BitVec.ofBool b).setWidth 8 := by
  refine BitVec.eq_of_getLsbD_eq fun i hi => ?_
  rw [shiftIn_getLsbD acc b hi]
  by_cases h0 : i = 0
  · simp [h0]
  · have hlow : ¬ i < 1 := by omega
    rw [BitVec.getLsbD_or, BitVec.getLsbD_shiftLeft]
    simp [h0, hi, hlow, -BitVec.getLsbD_eq_getElem]

/-- A byte of up to eight bits holds them from bit 7 down, and 0 in the others (R164). -/
theorem msbBit_byteOfBits (hc : c.length ≤ 8) (hk : k < 8) : msbBit (byteOfBits c) k = c.getD k false := by
  have hpad : msbBit (byteOfBits c) k = (c ++ List.replicate (8 - c.length) false).getD k false := by
    rw [← byteBits_byteOfBits c hc, List.getD_eq_getElem?_getD, byteBits_getElem? _ hk, Option.getD_some]
  rw [hpad]
  rcases Nat.lt_or_ge k c.length with h | h
  · rw [List.getD_append _ _ _ _ h]
  · have hin : k - c.length < 8 - c.length := by omega
    rw [List.getD_append_right _ _ _ _ h, List.getD_replicate _ hin, List.getD_eq_default _ _ h]

/-- Byte `j` of a packing holds the bits from number `8j` on, the first in bit 7 (R164). -/
theorem msbBit_packedByte (c : Bits) (j : Nat) (hk : k < 8) : msbBit (packedByte c j) k = c.getD (8 * j + k) false := by
  rw [packedByte, msbBit_byteOfBits (List.length_take_le ..) hk, List.getD_eq_getElem?_getD, List.getElem?_take_of_lt hk,
    List.getElem?_drop, List.getD_eq_getElem?_getD]

@[simp] theorem packBytes_length (c : Bits) : (packBytes c).length = (c.length + 7) / 8 := by simp [packBytes]

theorem packBytes_getD (hj : j < (packBytes c).length) : (packBytes c).getD j 0 = packedByte c j := by
  rw [List.getD_eq_getElem _ _ hj]
  simp [packBytes]

/-- Flush runs through when the write of a held byte does not fail (R161). -/
theorem flush_completes {e : Enc} (hio : e.nbits ≠ 0 → e.port.io.answerAt .enc .write e.port.dst.length 0 = false) :
    ∃ e', flush e = .ok e' () := by
  rw [flush_ok e hio]
  split
  · exact ⟨_, rfl⟩
  · exact ⟨_, rfl⟩

/-- From an empty accumulator, packing a bit string and then flushing appends its packing and holds nothing, no write failing
(R164). -/
theorem emitBits_flush_ok {e : Enc} (he : e.nbits = 0) (hcalm : Calm .enc ((c.length + 7) / 8) e.port.io) :
    ∃ e1 e2, emitBits c e = .ok e1 () ∧ flush e1 = .ok e2 () ∧ e2.port.dst = e.port.dst ++ packBytes c ∧ e2.nbits = 0 := by
  have hstart : e.nbits.toNat = 0 := congrArg BitVec.toNat he
  obtain ⟨e1, hemit, hio⟩ : ∃ e1, emitBits c e = .ok e1 () ∧
      (e1.nbits ≠ 0 → e1.port.io.answerAt .enc .write e1.port.dst.length 0 = false) := by
    obtain ⟨acc, -, hemit⟩ := emitBits_ok c e (hcalm.mono (by omega))
    refine ⟨_, hemit, fun hne => ?_⟩
    rw [hstart, Nat.zero_add] at hne ⊢
    have hmod : c.length % 8 ≠ 0 := fun h => hne (congrArg (BitVec.ofNat 3) h)
    have hone : Calm .enc (c.length / 8 + 1) e.port.io := hcalm.mono (by omega)
    exact hone.after.head _ _
  obtain ⟨e2, hflush⟩ := flush_completes hio
  obtain ⟨hwhole, hleft⟩ := emitBits_done c e e1 hemit
  obtain ⟨hnone, hlast⟩ := flush_done hflush
  rw [hstart, heldBits_zero, List.nil_append] at hwhole hleft
  exact ⟨e1, e2, hemit, hflush, by rw [hlast, hwhole, hleft, packBytes_eq, List.append_assoc], hnone⟩

end Packing

end Sys2Proof.Safety

namespace Sys2Proof.Machine

section Writing

variable {i : Instr} {s t : State}

/-- In every phase but CLOSED and with no error latched, EWBIT is WriteBit (43_bitwriter.md R162). -/
theorem exec_ewbit (b : Bool) (he : s.enc.err = .none) (hp : s.enc.phase ≠ .closed) :
    exec (.ewbit b) s = encFinish s (writeBit b s.enc) :=
  encGate_run (.ewbit b) s he (decide_eq_true hp)

/-- In every phase but CLOSED, also under a latched error, ECLOSE is its pseudocode (R163, 60_exceptions.md R263). -/
theorem exec_eclose (hp : s.enc.phase ≠ .closed) : exec .eclose s = encFinish s (closeBody s.enc) :=
  if_pos (decide_eq_true hp)

/-- A second ECLOSE raises SEQUENCE, or does nothing under a latched error (R163, R263). -/
theorem exec_eclose_closed (hp : s.enc.phase = .closed) :
    exec .eclose s = .next (if s.enc.err = .none then { s with enc := { s.enc with err := .sequence } } else s) := by
  obtain ⟨-, hx⟩ := (execEclose_cases s).resolve_right fun h => h.1 hp
  refine hx.trans (congrArg _ ?_)
  split
  · next he => rw [Enc.latch_of_none _ _ he]; rfl
  · next he => rw [Enc.latch_of_ne _ _ he]; rfl

/-- In CLOSED no command but EINIT changes the destination (R163). -/
theorem exec_dst_of_closed (hp : s.enc.phase = .closed) (hi : i ≠ .einit) (h : exec i s = .next t) :
    t.enc.port.dst = s.enc.port.dst := by
  cases hu : i.unit with
  | enc =>
    obtain ⟨e, c, -, hlegal, rfl⟩ := exec_encChange hu h
    have hout : phaseLegal i s = false := phaseLegal_closed (by rwa [hu]) (by rw [hu]; exact decide_eq_true hp)
    rw [hlegal.resolve_left (Bool.eq_false_iff.1 hout)]
    rfl
  | dec =>
    obtain ⟨d, c, -, -, rfl⟩ := exec_decChange hu h
    rfl

end Writing

end Sys2Proof.Machine

open Sys2Proof Sys2Proof.Machine Sys2Proof.Safety

/-- Settles O29: WriteBit holds the bit, or writes the full byte, or loses it. -/
theorem ewbitPacksOneBit : Obligations.EwbitPacksOneBit := by
  refine ⟨by decide, by decide, fun s b he hp => ?_⟩
  rw [exec_ewbit b he hp]
  refine ⟨fun hn => ?_, fun hn hio => ?_, fun hn hio => ?_⟩
  · have hlt : s.enc.nbits.toNat < 7 := by bv_omega
    rw [writeBit_hold b _ hlt, shiftIn_eq]; rfl
  · rw [writeBit_full b _ (congrArg BitVec.toNat hn) hio, shiftIn_eq]; rfl
  · rw [writeBit_lost b _ (congrArg BitVec.toNat hn) hio, encFinish, Enc.latch_eq_ite, if_pos he]; rfl

/-- Settles O30: in CLOSED no command of ENC but EINIT is in its phases, and in the other phases ECLOSE runs its pseudocode to
the end, whether it has a byte to write or not and whether the write fails or not. -/
theorem ecloseFlushesAndCloses : Obligations.EcloseFlushesAndCloses := by
  refine ⟨by decide, fun s hp => ⟨exec_eclose_closed hp, fun i t => exec_dst_of_closed hp⟩, fun s hp => ?_⟩
  rw [exec_eclose hp]
  rcases closeBody_cases s.enc with ⟨hn, hb⟩ | ⟨hn, hio, hb⟩ | ⟨hn, hio, hb⟩ <;> rw [hb]
  · exact ⟨fun _ => rfl, absurd hn, absurd hn⟩
  · exact ⟨fun h0 => absurd h0 hn, fun _ _ => rfl, fun _ h => absurd (hio.symm.trans h) Bool.false_ne_true⟩
  · exact ⟨fun h0 => absurd h0 hn, fun _ h => absurd (h.symm.trans hio) Bool.false_ne_true, fun _ _ => rfl⟩

/-- Settles O50: WriteBit and Flush append the packing, whose bytes hold the bits in order. -/
theorem packerWritesTheBitsMsbFirst : Obligations.PackerWritesTheBitsMsbFirst := by
  intro e c he hcalm
  obtain ⟨e1, e2, hemit, hflush, hdst, hnone⟩ := emitBits_flush_ok he hcalm
  refine ⟨e1, e2, packBytes c, hemit, hflush, hdst, hnone, packBytes_length c, fun j k hj hk => ?_⟩
  rw [packBytes_getD hj]
  exact msbBit_packedByte c j hk

end

section
/-! PROOFS. The bit-unpacker (44_bitreader.md R180 to R182): DRBIT by what ReadBit answers, and whole bytes read bit by bit, which
undo the packing. -/

namespace Sys2Proof.Machine

section Drbit

variable {s : State} {d : Dec} {b : Bool} {c : ErrCode}

/-- In phase READY and with no error latched, DRBIT is its pseudocode (44_bitreader.md R182). -/
theorem exec_drbit (he : s.dec.err = .none) (hp : s.dec.phase = .ready) :
    exec .drbit s = decFinish s (readBitBody s.dec) :=
  decGate_run .drbit s he (decide_eq_true hp)

/-- DRBIT puts the bit ReadBit returns into LASTBIT (R182). -/
theorem exec_drbit_bit (he : s.dec.err = .none) (hp : s.dec.phase = .ready) (hr : readBit s.dec = .ok d (some b)) :
    exec .drbit s = .next { s with dec := { d with lastBit := b } } := by
  rw [exec_drbit he hp, readBitBody, hr]
  rfl

/-- DRBIT leaves LASTBIT as it is when ReadBit answers EOI (R182). -/
theorem exec_drbit_eoi (he : s.dec.err = .none) (hp : s.dec.phase = .ready) (hr : readBit s.dec = .ok d none) :
    exec .drbit s = .next { s with dec := d } := by
  rw [exec_drbit he hp, readBitBody, hr]
  rfl

/-- DRBIT latches the error ReadBit raises (60_exceptions.md R262). -/
theorem exec_drbit_raised (he : s.dec.err = .none) (hp : s.dec.phase = .ready) (hr : readBit s.dec = .raised d c) :
    exec .drbit s = .next { s with dec := d.latch c } := by
  rw [exec_drbit he hp, readBitBody, hr]
  rfl

end Drbit

/-- A stretch of pseudocode followed by two more is followed by the two as one. -/
theorem Ended.bind_bind {σ α β γ : Type} (x : Ended σ α) (k : σ → α → Ended σ β) (k' : σ → β → Ended σ γ) :
    (x.bind k).bind k' = x.bind fun s a => (k s a).bind k' := by
  cases x <;> rfl

end Sys2Proof.Machine

namespace Sys2Proof.Safety

open Sys2Proof.Machine

section Reading

variable {e e1 e2 : Enc} {c : Bits} {d : Dec} {v : Byte}

/-- From an empty accumulator, a bit string packed and flushed with no error has appended its packing (43_bitwriter.md R164). -/
theorem dst_of_emitBits_flush (he : e.nbits = 0) (hemit : emitBits c e = .ok e1 ()) (hflush : flush e1 = .ok e2 ()) :
    e2.port.dst = e.port.dst ++ packBytes c := by
  obtain ⟨hwhole, hleft⟩ := emitBits_done c e e1 hemit
  obtain ⟨-, hlast⟩ := flush_done hflush
  have hnone : heldBits e.acc e.nbits.toNat = [] := by rw [he]; rfl
  rw [hnone, List.nil_append] at hwhole hleft
  rw [hlast, hwhole, hleft, packBytes_eq, List.append_assoc]

/-- The bits of a byte from number `k` on begin with its bit number `k` (20_memory.md R65). -/
theorem byteBits_drop (v : Byte) {k : Nat} (hk : k < 8) :
    (byteBits v).drop k = msbBit v k :: (byteBits v).drop (k + 1) := by
  obtain ⟨hlt, hget⟩ := List.getElem?_eq_some_iff.1 (byteBits_getElem? v hk)
  rw [List.drop_eq_getElem_cons hlt, hget]

/-- One call of ReadBit that returns a bit, before `n` more. -/
theorem readBits_succ {d' : Dec} {b : Bool} (hr : readBit d = .ok d' (some b)) (n : Nat) :
    readBits (n + 1) d = (readBits n d').bind fun d bs => .ok d (b :: bs) := by
  rw [readBits, hr]
  rfl

/-- ReadBit called for all the bits left in the buffer returns them in order, and makes no access (44_bitreader.md R180). -/
theorem readBits_buffered (n k : Nat) (d : Dec) (hk : d.cnt.val + k = 8) :
    readBits (n + k) d = (readBits n { d with cnt := 8 }).bind fun d' bs => .ok d' ((byteBits d.buf).drop d.cnt.val ++ bs) := by
  induction k generalizing d with
  | zero =>
    have hfull : d.cnt = 8 := Fin.ext hk
    have hsame : { d with cnt := 8 } = d := by rw [← hfull]
    have hnone : (byteBits d.buf).drop d.cnt.val = [] := List.drop_of_length_le (by rw [byteBits_length, hfull]; rfl)
    rw [hsame, hnone]
    cases readBits n d <;> rfl
  | succ k ih =>
    have hlt : d.cnt.val < 8 := by omega
    rw [← Nat.add_assoc, readBits_succ (readBit_buffered d hlt), ih _ (by simp only; omega), Ended.bind_bind,
      byteBits_drop d.buf hlt]
    rfl

/-- With the buffer used up, eight calls of ReadBit return the bits of the next byte, and the buffer is used up again (R180). -/
theorem readBits_byte (hc : d.cnt = 8) (hv : d.port.src[d.port.rp]? = some v)
    (hio : d.port.io.answerAt .dec .read d.port.rp 0 = false) (n : Nat) :
    readBits (n + 8) d =
      (readBits n { d with buf := v, port := { d.port with rp := d.port.rp + 1, io := d.port.io.tick } }).bind
        fun d' bs => .ok d' (byteBits v ++ bs) := by
  rw [readBits_succ (readBit_refill d (congrArg Fin.val hc) hv hio) (n + 7), readBits_buffered n 7 _ rfl, Ended.bind_bind, hc]
  rfl

/-- With the buffer used up and no failing access, as many calls of ReadBit as the next bytes have bits return their bits in
order, each byte's bit 7 first (R180). -/
theorem readBits_bytes {tail : List Byte} (l : List Byte) (d : Dec) (hc : d.cnt = 8)
    (hsrc : d.port.src.drop d.port.rp = l ++ tail) (hcalm : Calm .dec l.length d.port.io) :
    readBits (8 * l.length) d = .ok { d with
      buf := l.getLastD d.buf
      port := { d.port with rp := d.port.rp + l.length, io := ioAfter l.length d.port.io } } (l.flatMap byteBits) := by
  induction l generalizing d with
  | nil => rfl
  | cons v l ih =>
    have hv : d.port.src[d.port.rp]? = some v := by rw [← List.head?_drop, hsrc]; rfl
    have hrest : d.port.src.drop (d.port.rp + 1) = l ++ tail := by rw [← List.tail_drop, hsrc]; rfl
    have hgo := ih { d with buf := v, port := { d.port with rp := d.port.rp + 1, io := d.port.io.tick } } hc hrest hcalm.tick
    rw [List.length_cons, Nat.mul_succ, readBits_byte hc hv (hcalm.head _ _), hgo, Ended.bind_ok]
    simp only [List.getLastD_cons, List.flatMap_cons, ioAfter_tick, Nat.add_assoc, Nat.add_comm 1]

end Reading

end Sys2Proof.Safety

open Sys2Proof Sys2Proof.Machine Sys2Proof.Safety

/-- Settles O38: DRBIT by what ReadBit answers: a buffered bit, EOI, a refill, a failing refill; and the bit it returns is the
next unread one. -/
theorem drbitReadsTheNextBit : Obligations.DrbitReadsTheNextBit := by
  refine ⟨by decide, fun s he hp => ⟨fun hc => ?_, fun hc hend => ?_, fun b hc hb => ⟨fun hio => ?_, fun hio => ?_⟩,
    fun b rest hu hio => ?_⟩⟩
  · exact exec_drbit_bit he hp (readBit_buffered _ hc)
  · exact exec_drbit_eoi he hp (readBit_eoi _ (congrArg Fin.val hc) hend.ge)
  · exact exec_drbit_bit he hp (readBit_refill _ (congrArg Fin.val hc) hb hio)
  · rw [exec_drbit_raised he hp (readBit_fault _ (congrArg Fin.val hc) hb hio), Dec.latch_of_none]
    exact he
  · obtain ⟨buf, cnt, rp, io, hr, hrest, -⟩ := readBit_next s.dec hu hio
    exact ⟨_, exec_drbit_bit he hp hr, rfl, hrest⟩

/-- Settles O43: the bytes appended are the packing of the bits, the reader returns the bits of those bytes, and then its buffer
is used up. -/
theorem readerMirrorsThePacker : Obligations.ReaderMirrorsThePacker := by
  intro e e1 e2 c l tail d he hemit hflush hdst hc _ hsrc hcalm
  obtain rfl : packBytes c = l := List.append_cancel_left ((dst_of_emitBits_flush he hemit hflush).symm.trans hdst)
  have hread := readBits_bytes _ d hc hsrc hcalm
  rw [packBytes_bits _ c rfl] at hread
  have hend (htail : tail = []) : d.port.src.length ≤ d.port.rp + (packBytes c).length := by
    rw [htail, List.append_nil] at hsrc
    rw [← hsrc, List.length_drop]
    omega
  exact ⟨packBytes_length c, _, hread, rfl, fun htail => readBit_eoi _ (congrArg Fin.val hc) (hend htail)⟩

end

section
/-! PROOFS. The encoder's commands one by one (45_encoder.md R200 to R207): EREWIND, the header EHDR writes, and ESYM, ESYMALL and
EEOS as packings of codes that go on from the bits held. -/

namespace Sys2Proof.Machine

open Sys2Proof.Safety

section Header

variable {s : State} {e : Enc} {n : Nat}

/-- A raise with no error latched yet is recorded as it is (60_exceptions.md R262). -/
theorem encFinish_raised {α : Type} {c : ErrCode} (he : e.err = .none) :
    encFinish s (.raised e c : Ended Enc α) = .next (s.setEnc { e with err := c }) := by
  rw [encFinish, Enc.latch_of_none c e he]

/-- In every phase but CLOSED and with no error latched, EREWIND goes back to offset 0 and clears EOI (45_encoder.md R202). -/
theorem exec_erewind (he : s.enc.err = .none) (hp : s.enc.phase ≠ .closed) :
    exec .erewind s = .next (s.setEnc { s.enc with eoi := false, port := { s.enc.port with rp := 0 } }) :=
  encGate_run .erewind s he (decide_eq_true hp)

/-- In READY with no bit held and no error latched, EHDR is its pseudocode (R203). -/
theorem exec_ehdr (he : s.enc.err = .none) (hp : s.enc.phase = .ready) (hn : s.enc.nbits = 0) :
    exec .ehdr s = encFinish s (headerBody s.enc) :=
  encGate_run .ehdr s he (decide_eq_true ⟨hp, hn⟩)

/-- With no failing write the whole header is appended, and the phase is PAYLOAD (R203). -/
theorem headerBody_ok (hcalm : Calm .enc 1028 e.port.io) :
    headerBody e = .ok { e with
      phase := .payload
      port := { e.port with dst := e.port.dst ++ headerBytes e.freq, io := ioAfter 1028 e.port.io } } () := by
  rw [← headerBytes_length e.freq] at hcalm ⊢
  rw [headerBody, Enc.write, writeBytes_ok _ _ _ hcalm]
  rfl

/-- EHDR writes the whole header, as the state it leaves (R203). -/
theorem exec_ehdr_ok (he : s.enc.err = .none) (hp : s.enc.phase = .ready) (hn : s.enc.nbits = 0)
    (hcalm : Calm .enc 1028 s.enc.port.io) :
    exec .ehdr s = .next (s.setEnc { s.enc with
      phase := .payload
      port := { s.enc.port with
        dst := s.enc.port.dst ++ headerBytes s.enc.freq
        io := ioAfter 1028 s.enc.port.io } }) := by
  rw [exec_ehdr he hp hn, headerBody_ok hcalm, encFinish]

/-- A failing write leaves the header's bytes before it, and the phase (R203). -/
theorem headerBody_fault (hn : n < 1028) (hcalm : Calm .enc n e.port.io)
    (hio : e.port.io.answerAt .enc .write (e.port.dst.length + n) n = true) :
    headerBody e = .raised { e with
      port := { e.port with dst := e.port.dst ++ (headerBytes e.freq).take n, io := ioAfter (n + 1) e.port.io } } .io := by
  rw [headerBody, Enc.write, writeBytes_fault _ _ _ n (by rwa [headerBytes_length]) hcalm hio]
  rfl

/-- Byte `k` of a counter is its digit number `3 - k` to the base 256 (20_memory.md R66). -/
theorem countByte_toNat (c : Count) {k : Nat} (hk : k < 4) : (countByte c k).toNat = c.toNat / 256 ^ (3 - k) % 256 := by
  have hpow : 2 ^ (24 - 8 * k) = 256 ^ (3 - k) := by
    rw [show 24 - 8 * k = 8 * (3 - k) by omega, pow_mul]
    rfl
  rw [countByte, BitVec.extractLsb'_toNat, Nat.shiftRight_eq_div_pow, hpow]

/-- Bytes `4x` to `4x + 3` of the header are the counter of `x` (R69). -/
theorem headerBytes_getD (f : Table Count 257) (x : Symbol) {k : Nat} (hk : k < 4) :
    (headerBytes f).getD (4 * x.val + k) 0 = countByte (f.get x) k :=
  flatMap_countBytes x.val k (f.size.symm ▸ x.isLt) hk

end Header

section Symbols

variable {s : State} {e : Enc} {b : Byte}

/-- In PAYLOAD and with no error latched, ESYM is its pseudocode (R205). -/
theorem exec_esym (he : s.enc.err = .none) (hp : s.enc.phase = .payload) : exec .esym s = encFinish s (symBody s.enc) :=
  encGate_run .esym s he (decide_eq_true hp)

/-- In PAYLOAD and with no error latched, ESYMALL is its pseudocode (R206). -/
theorem exec_esymall (he : s.enc.err = .none) (hp : s.enc.phase = .payload) :
    exec .esymall s = encFinish s (symAllBody s.enc) :=
  encGate_run .esymall s he (decide_eq_true hp)

/-- ESYMALL, as the state it leaves when its pseudocode runs through (R206). -/
theorem exec_esymall_ok (he : s.enc.err = .none) (hp : s.enc.phase = .payload) (hall : symAllBody s.enc = .ok e ()) :
    exec .esymall s = .next (s.setEnc e) := by
  rw [exec_esymall he hp, hall, encFinish]

/-- In PAYLOAD and with no error latched, EEOS packs the sentinel's code and enters ENDED (R207). -/
theorem exec_eeos {p : Bits} (he : s.enc.err = .none) (hp : s.enc.phase = .payload)
    (hcode : s.enc.code.get sentinel = some p) :
    exec .eeos s = encFinish s ((emitBits p s.enc).bind fun e _ => .ok { e with phase := .ended } ()) := by
  have hrun : exec .eeos s = encFinish s (eosBody s.enc) := encGate_run .eeos s he (decide_eq_true hp)
  rw [hrun, eosBody, hcode]

/-- EEOS whose code is packed with no failing write, as the state it leaves (R207). -/
theorem exec_eeos_ok {p : Bits} (he : s.enc.err = .none) (hp : s.enc.phase = .payload)
    (hcode : s.enc.code.get sentinel = some p) (hemit : emitBits p s.enc = .ok e ()) :
    exec .eeos s = .next (s.setEnc { e with phase := .ended }) := by
  rw [exec_eeos he hp hcode, hemit, Ended.bind_ok, encFinish]

/-- ENC with its next source byte read (R205). -/
def Enc.taken (e : Enc) : Enc := { e with port := { e.port with rp := e.port.rp + 1, io := e.port.io.tick } }

/-- At the end of the source only EOI is set (R205). -/
theorem symBody_eoi (h : e.port.src.length ≤ e.port.rp) : symBody e = .ok { e with eoi := true } () := by
  simp [symBody, Enc.nextByte, takeByte_eoi _ _ h]

/-- A failing read moves nothing and raises IO (R205). -/
theorem symBody_fault (hb : e.port.src[e.port.rp]? = some b) (hio : e.port.io.answerAt .enc .read e.port.rp 0 = true) :
    symBody e = .raised { e with port := { e.port with io := e.port.io.tick } } .io := by
  simp [symBody, Enc.nextByte, takeByte_fault _ _ hb hio]

/-- A byte without a code is consumed and raises NOCODE (R205). -/
theorem symBody_nocode (hb : e.port.src[e.port.rp]? = some b) (hio : e.port.io.answerAt .enc .read e.port.rp 0 = false)
    (hcode : e.code.get (byteSymbol b) = none) : symBody e = .raised e.taken .nocode := by
  simp [symBody, Enc.nextByte, takeByte_byte _ _ hb hio, hcode, Enc.taken]

/-- A byte with a code is consumed and its code packed (R205). -/
theorem symBody_code {p : Bits} (hb : e.port.src[e.port.rp]? = some b)
    (hio : e.port.io.answerAt .enc .read e.port.rp 0 = false) (hcode : e.code.get (byteSymbol b) = some p) :
    symBody e = emitBits p e.taken := by
  simp [symBody, Enc.nextByte, takeByte_byte _ _ hb hio, hcode, Enc.taken]

end Symbols

section Packs

variable {e e' e'' : Enc} {m n : Nat} {c d : Bits}

/-- ENC once `n` source bytes have been read and the bits `c` packed, no access failing, with `acc` in ACC (R204, R205). -/
def Enc.packed (e : Enc) (n : Nat) (c : Bits) (acc : BitVec 8) : Enc :=
  { e with
    acc := acc
    nbits := BitVec.ofNat 3 ((e.nbits.toNat + c.length) % 8)
    port := { e.port with
      rp := e.port.rp + n
      dst := e.port.dst ++ wholeBytes (heldBits e.acc e.nbits.toNat ++ c)
      io := ioAfter (n + (e.nbits.toNat + c.length) / 8) e.port.io } }

/-- From `e`, reading `n` source bytes and packing the bits `c` leaves `e'`, which holds the bits that fill no byte. -/
def Packs (n : Nat) (c : Bits) (e e' : Enc) : Prop :=
  ∃ acc, heldBits acc ((e.nbits.toNat + c.length) % 8) = leftBits (heldBits e.acc e.nbits.toNat ++ c) ∧
    e' = e.packed n c acc

theorem Packs.nbits (h : Packs n c e e') : e'.nbits.toNat = (e.nbits.toNat + c.length) % 8 := by
  obtain ⟨acc, -, rfl⟩ := h
  exact (BitVec.toNat_ofNat _ _).trans (Nat.mod_mod _ _)

theorem Packs.held (h : Packs n c e e') :
    heldBits e'.acc e'.nbits.toNat = leftBits (heldBits e.acc e.nbits.toNat ++ c) := by
  rw [h.nbits]
  obtain ⟨acc, hacc, rfl⟩ := h
  exact hacc

/-- The accesses that remain calm once `n` bytes have been read and the bits `c` packed. -/
theorem Packs.calm {k : Nat} (h : Packs n c e e') (hcalm : Calm .enc (n + (e.nbits.toNat + c.length) / 8 + k) e.port.io) :
    Calm .enc k e'.port.io := by
  obtain ⟨acc, -, rfl⟩ := h
  exact hcalm.after

/-- Packing nothing changes nothing. -/
theorem packed_nil (e : Enc) (n : Nat) :
    e.packed n [] e.acc = { e with port := { e.port with rp := e.port.rp + n, io := ioAfter n e.port.io } } := by
  have hlt : e.nbits.toNat < 8 := e.nbits.isLt
  have hshort : (heldBits e.acc e.nbits.toNat).length < 8 := by rwa [heldBits_length]
  simp [Enc.packed, wholeBytes_short hshort, Nat.mod_eq_of_lt hlt, Nat.div_eq_of_lt hlt]

/-- Reading `n` bytes and packing nothing. -/
theorem packs_nil (e : Enc) (n : Nat) :
    Packs n [] e { e with port := { e.port with rp := e.port.rp + n, io := ioAfter n e.port.io } } := by
  have hlt : e.nbits.toNat < 8 := e.nbits.isLt
  refine ⟨e.acc, ?_, (packed_nil e n).symm⟩
  rw [List.length_nil, Nat.add_zero, Nat.mod_eq_of_lt hlt, List.append_nil, leftBits_short (by rwa [heldBits_length])]

theorem packs_refl (e : Enc) : Packs 0 [] e e := packs_nil e 0

theorem packs_taken (e : Enc) : Packs 1 [] e e.taken := by
  rw [Enc.taken, tick_eq_ioAfter]
  exact packs_nil e 1

/-- Packing `c` and then `d` is packing the two in a row: the second goes on from the bits the first left over (43_bitwriter.md
R164). -/
theorem Packs.trans (h : Packs m c e e') (h' : Packs n d e' e'') : Packs (m + n) (c ++ d) e e'' := by
  have hlen : (e'.nbits.toNat + d.length) % 8 = (e.nbits.toNat + (c ++ d).length) % 8 := by
    rw [h.nbits, Nat.mod_add_mod, List.length_append, Nat.add_assoc]
  have hbytes : m + (e.nbits.toNat + c.length) / 8 + (n + (e'.nbits.toNat + d.length) / 8) =
      m + n + (e.nbits.toNat + (c ++ d).length) / 8 := by
    rw [h.nbits, List.length_append]
    omega
  have hheld := h.held
  obtain ⟨acc', hacc', rfl⟩ := h'
  refine ⟨acc', ?_, ?_⟩
  · rw [← hlen, hacc', hheld, ← leftBits_append _ _ _ rfl, List.append_assoc]
  · rw [Enc.packed, hlen, hheld]
    obtain ⟨acc, -, rfl⟩ := h
    simp only [Enc.packed] at hbytes ⊢
    rw [ioAfter_ioAfter, hbytes, List.append_assoc, ← wholeBytes_append _ _ _ rfl, List.append_assoc, Nat.add_assoc]

/-- With no failing write, EmitCode runs through and packs the code (R204). -/
theorem emitBits_packs (c : Bits) (e : Enc) (hcalm : Calm .enc ((e.nbits.toNat + c.length) / 8) e.port.io) :
    ∃ e', Packs 0 c e e' ∧ emitBits c e = .ok e' () := by
  obtain ⟨acc, hacc, hemit⟩ := emitBits_ok c e hcalm
  refine ⟨_, ⟨acc, hacc.held, rfl⟩, ?_⟩
  rw [hemit, Enc.packed, Nat.zero_add]
  rfl

/-- With no failing access, ESYM's pseudocode reads a byte that has a code and packs the code (R205). -/
theorem symBody_packs {b : Byte} (hb : e.port.src[e.port.rp]? = some b) (hcode : e.code.get (byteSymbol b) = some c)
    (hcalm : Calm .enc ((e.nbits.toNat + c.length) / 8 + 1) e.port.io) :
    ∃ e', Packs 1 c e e' ∧ symBody e = .ok e' () := by
  obtain ⟨e', hpack, hemit⟩ := emitBits_packs c e.taken hcalm.tick
  exact ⟨e', (packs_taken e).trans hpack, (symBody_code hb (hcalm.head _ _) hcode).trans hemit⟩

/-- The codes of a list of bytes in order (R201, R206). -/
def codeBits (code : Table (Option Bits) 257) (l : List Byte) : Bits :=
  l.flatMap fun b => (code.get (byteSymbol b)).getD []

theorem codeBits_cons {code : Table (Option Bits) 257} {b : Byte} (hcode : code.get (byteSymbol b) = some c)
    (l : List Byte) : codeBits code (b :: l) = c ++ codeBits code l := by
  rw [codeBits, List.flatMap_cons, hcode]
  rfl

/-- With no failing access and a code for every byte left, ESYMALL's pseudocode packs the codes of the rest of the source and ends
with EOI set (R206). -/
theorem symAllBody_packs (n : Nat) : ∀ e : Enc, e.port.rp + n = e.port.src.length → (n ≠ 0 → e.eoi = false) →
    (∀ b ∈ e.port.src.drop e.port.rp, (e.code.get (byteSymbol b)).isSome = true) →
    Calm .enc (n + (e.nbits.toNat + (codeBits e.code (e.port.src.drop e.port.rp)).length) / 8) e.port.io →
    ∃ e', Packs n (codeBits e.code (e.port.src.drop e.port.rp)) e e' ∧ symAllBody e = .ok { e' with eoi := true } () := by
  induction n with
  | zero =>
    intro e hn _ _ _
    have hend : e.port.src.length ≤ e.port.rp := hn.ge
    rw [symAllBody_unfold, symBody_eoi hend, List.drop_eq_nil_of_le hend]
    exact ⟨e, packs_refl e, rfl⟩
  | succ n ih =>
    intro e hn heoi hcoded hcalm
    have hlt : e.port.rp < e.port.src.length := by omega
    have hopen : e.eoi = false := heoi n.succ_ne_zero
    rw [List.drop_eq_getElem_cons hlt] at hcoded hcalm ⊢
    obtain ⟨c, hc⟩ := Option.isSome_iff_exists.1 (hcoded _ List.mem_cons_self)
    rw [codeBits_cons hc] at hcalm ⊢
    rw [List.length_append] at hcalm
    obtain ⟨e1, hpack, hbody⟩ := symBody_packs (List.getElem?_eq_getElem hlt) hc (hcalm.mono (by omega))
    rw [symAllBody_unfold, hbody, Ended.bind_ok]
    have hgo := ih e1
    rw [hpack.nbits] at hgo
    have hio := hpack.calm (k := n + ((e.nbits.toNat + c.length) % 8 +
      (codeBits e.code (e.port.src.drop (e.port.rp + 1))).length) / 8) (hcalm.mono (by omega))
    obtain ⟨acc, -, rfl⟩ := id hpack
    obtain ⟨e2, hpack', hall⟩ := hgo (by simp only [Enc.packed]; omega) (fun _ => hopen)
      (fun b hb => hcoded b (List.mem_cons_of_mem _ hb)) hio
    refine ⟨e2, by rw [Nat.add_comm]; exact hpack.trans hpack', (if_neg (Bool.eq_false_iff.1 hopen)).trans hall⟩

end Packs

end Sys2Proof.Machine

open Sys2Proof Sys2Proof.Machine Sys2Proof.Safety

/-- Settles O9: by INIT's definition. -/
theorem initRestoresTheResetState : Obligations.InitRestoresTheResetState := fun _ => ⟨rfl, rfl⟩

/-- Settles O31: by EREWIND's pseudocode. -/
theorem erewindRewindsTheSource : Obligations.ErewindRewindsTheSource :=
  ⟨by decide, fun _ he hp => exec_erewind he hp⟩

/-- Settles O32: the header's bytes are its counters', and a failing write ends the writing of them. -/
theorem ehdrWritesTheBigEndianHeader : Obligations.EhdrWritesTheBigEndianHeader := by
  refine ⟨by decide, fun s he hp hn => ⟨headerBytes s.enc.freq, headerBytes_length _, fun x k hk => ?_, fun hcalm => ?_,
    fun n hlt hcalm hio => ?_⟩⟩
  · rw [headerBytes_getD _ x hk, countByte_toNat _ hk]
  · exact exec_ehdr_ok he hp hn hcalm
  · rw [exec_ehdr he hp hn, headerBody_fault hlt hcalm hio]; exact encFinish_raised he

/-- Settles O33: ESYM's pseudocode case by case, and in the last case what packing the code does. -/
theorem esymEmitsOneCode : Obligations.EsymEmitsOneCode := by
  refine ⟨by decide, fun s he hp => ?_⟩
  rw [exec_esym he hp]
  refine ⟨fun hend => ?_, fun b hb => ⟨fun hio => ?_, fun hio hnone => ?_, fun p hcode =>
    ⟨fun n hn hcalm hio => ?_, fun hcalm => ?_⟩⟩⟩
  · rw [symBody_eoi hend.ge]; rfl
  · rw [symBody_fault hb hio]; exact encFinish_raised he
  · rw [symBody_nocode hb hio hnone]; exact encFinish_raised he
  · have hfault := emitBits_fault p s.enc.taken n hn hcalm.tick ((IoInput.tick_answerAt ..).trans hio)
    rw [symBody_code hb (hcalm.head _ _) hcode, hfault, ← ioAfter_tick (n + 1)]
    exact encFinish_raised he
  · obtain ⟨_, ⟨acc, hacc, rfl⟩, hbody⟩ := symBody_packs hb hcode hcalm
    refine ⟨acc, hacc, ?_⟩
    rw [hbody, Enc.packed, Nat.add_comm 1 (_ / 8)]
    rfl

/-- Settles O35: what packing the sentinel's code does. -/
theorem eeosEmitsTheSentinelsCode : Obligations.EeosEmitsTheSentinelsCode := by
  refine ⟨by decide, fun s p he hp hcode => ?_⟩
  refine ⟨fun n hn hcalm hio => ?_, fun hcalm => ?_⟩
  · rw [exec_eeos he hp hcode, emitBits_fault p s.enc n hn hcalm hio, Ended.bind_raised]; exact encFinish_raised he
  · obtain ⟨_, ⟨acc, hacc, rfl⟩, hemit⟩ := emitBits_packs p s.enc hcalm
    refine ⟨acc, hacc, (exec_eeos_ok he hp hcode hemit).trans ?_⟩
    rw [Enc.packed, Nat.zero_add]
    rfl

/-- Settles O34: by induction on the bytes left, each code going on from the bits the one before it left over. -/
theorem esymallEmitsTheRestOfTheSource : Obligations.EsymallEmitsTheRestOfTheSource := by
  rintro s _ he hp hrp heoi hcoded rfl hcalm
  have hgoes : s.enc.port.src.length - s.enc.port.rp ≠ 0 → s.enc.eoi = false := fun hne =>
    Bool.eq_false_iff.2 fun h => hne (by rw [heoi h, Nat.sub_self])
  obtain ⟨_, ⟨acc, hacc, rfl⟩, hall⟩ := symAllBody_packs _ s.enc (Nat.add_sub_cancel' hrp) hgoes hcoded hcalm
  refine ⟨acc, hacc, ?_⟩
  rw [exec_esymall_ok he hp hall, Enc.packed, Nat.add_sub_cancel' hrp]
  rfl

end

section
/-! PROOFS. ENCODE (45_encoder.md R201, R208): its commands run one after the other, the first pass builds the tables of the
source's histogram and writes the header, the second packs the codes. -/

namespace Sys2Proof.Machine

open Sys2Proof.Safety

section Running

variable {is js : List Instr} {r s t : State}

/-- The commands `is` run one after the other bring the machine from `s` to `t`. -/
def Runs : List Instr → State → State → Prop
  | [], s, t => s = t
  | i :: is, s, t => ∃ r, exec i s = .next r ∧ Runs is r t

theorem Runs.append (h : Runs is s r) (h' : Runs js r t) : Runs (is ++ js) s t := by
  induction is generalizing s with
  | nil => obtain rfl : s = r := h; exact h'
  | cons i is ih =>
    obtain ⟨q, hq, h⟩ := h
    exact ⟨q, hq, ih h⟩

/-- A host that writes the commands' words runs the commands (30_encoding.md R88). -/
theorem Runs.hostRunFrom (h : Runs is s t) (use : SourceUses) : hostRunFrom use (writeProgram is) s = .next t := by
  induction is generalizing s use with
  | nil => exact congrArg _ h
  | cons i is ih =>
    obtain ⟨r, hr, h⟩ := h
    have hstep : hostStep use (.write (encode i)) s = .next r := (step_putWord_command (decode_encode i) s).trans hr
    exact (hostRunFrom_cons hstep _).trans (ih h _)

end Running

section Histogram

variable {l : List Byte} {b : Byte}

/-- The table the first pass makes of a source: each byte value's count, and 1 for the sentinel (40_frequency.md R105). -/
def histogram (l : List Byte) : Table Count 257 := (addCounts (Table.fill 257 0) l).set sentinel 1

theorem histogram_byteSymbol (h : l.count b ≤ 0xFFFFFFFF) : ((histogram l).get (byteSymbol b)).toNat = l.count b := by
  rw [histogram, Table.get_set_ne _ (sentinel_ne_byteSymbol b).symm, addCounts_byteSymbol, Table.get_fill, zero_add,
    BitVec.toNat_ofNat, Nat.mod_eq_of_lt (by omega)]

theorem histogram_sentinel (l : List Byte) : (histogram l).get sentinel = 1 := Table.get_set_self _ _ _

/-- A byte of the source is counted. -/
theorem histogram_ne_zero (h : l.count b ≤ 0xFFFFFFFF) (hb : b ∈ l) : (histogram l).get (byteSymbol b) ≠ 0 := fun h0 => by
  have hcount := histogram_byteSymbol h
  rw [h0] at hcount
  exact (List.count_pos_iff.2 hb).ne hcount

end Histogram

section FirstPass

variable {s : State} {a : Arena} {codes : Table (Option Bits) 257}

/-- ENC with its source counted and the sentinel's count set (R201, step 1). -/
def Enc.counted (e : Enc) : Enc :=
  { e.init with
    phase := .final
    eoi := true
    freq := histogram e.port.src
    port := { e.port.init with rp := e.port.src.length, io := ioAfter e.port.src.length e.port.io } }

/-- From any state, with no failing read and no count above 0xFFFFFFFF, the first commands of ENCODE make the histogram
(40_frequency.md R105). -/
theorem runs_counting (hcount : ∀ b : Byte, s.enc.port.src.count b ≤ 0xFFFFFFFF)
    (hcalm : Calm .enc s.enc.port.src.length s.enc.port.io) :
    Runs [.einit, .ecountall, .efinal] s (s.setEnc s.enc.counted) := by
  have hfit : CountsFit (Table.fill 257 0) s.enc.port.src := fun b => by
    rw [Table.get_fill]
    exact (Nat.zero_add _).trans_le (hcount b)
  exact ⟨_, rfl, _, exec_ecountall_ok (s := s.setEnc s.enc.init) rfl rfl (Nat.zero_le _) nofun hcalm hfit, _,
    exec_efinal rfl rfl, rfl⟩

/-- ENC at the start of its second pass: the tree and the codes built, the header written, the source rewound (R201, steps 2 to
4). -/
def Enc.secondPass (e : Enc) (a : Arena) (codes : Table (Option Bits) 257) : Enc :=
  { e with
    phase := .payload
    eoi := false
    arena := a
    code := codes
    port := { e.port with rp := 0, dst := e.port.dst ++ headerBytes e.freq, io := ioAfter 1028 e.port.io } }

/-- The destination then holds the header alone. -/
theorem secondPass_dst (e : Enc) (a : Arena) (codes : Table (Option Bits) 257) :
    (e.counted.secondPass a codes).port.dst = headerBytes (histogram e.port.src) := List.nil_append _

/-- With no failing write, the commands between the passes make ENC ready for the second (R201). -/
theorem runs_building (he : s.enc.err = .none) (hp : s.enc.phase = .final) (hn : s.enc.nbits = 0)
    (ha : treeBuild s.enc.freq = some a) (hd : derive a = some codes) (hcalm : Calm .enc 1028 s.enc.port.io) :
    Runs [.ebuild, .ederive, .ehdr, .erewind] s (s.setEnc (s.enc.secondPass a codes)) :=
  ⟨_, exec_ebuild he hp ha, _, exec_ederive he rfl hd, _,
    exec_ehdr_ok he rfl hn hcalm, _, exec_erewind he nofun, rfl⟩

end FirstPass

section SecondPass

variable {s : State} {e e' e'' : Enc} {n : Nat} {c p : Bits}

/-- The machine after an ENCODE of the source `x` that met no error: the destination holds `l`, and DEC is `d` (R201). -/
structure Encoded (d : Dec) (x l : List Byte) (t : State) : Prop where
  dec : t.dec = d
  phase : t.enc.phase = .closed
  err : t.enc.err = .none
  eoi : t.enc.eoi = true
  rp : t.enc.port.rp = x.length
  src : t.enc.port.src = x
  dst : t.enc.port.dst = l

/-- Setting EOI and packing may change places. -/
theorem Packs.setEoi (h : Packs n c e e') (v : Bool) : Packs n c { e with eoi := v } { e' with eoi := v } := by
  obtain ⟨acc, hacc, rfl⟩ := h
  exact ⟨acc, hacc, rfl⟩

/-- With no failing write, ECLOSE's pseudocode closes the unit and appends the held bits, if any (43_bitwriter.md R163). -/
theorem closeBody_ok (hio : e.nbits ≠ 0 → e.port.io.answerAt .enc .write e.port.dst.length 0 = false) :
    ∃ e', closeBody e = .ok e' () ∧ PackFrame { e with phase := .closed } e' ∧ e'.port.dst = e.port.dst ++
      if heldBits e.acc e.nbits.toNat = [] then [] else [byteOfBits (heldBits e.acc e.nbits.toNat)] := by
  obtain ⟨e', hflush⟩ := flush_completes hio
  have hframe := flush_frame e
  rw [hflush] at hframe
  obtain ⟨heq, hdst⟩ := hframe
  refine ⟨{ e' with phase := .closed }, by rw [closeBody, hflush], ⟨?_, hdst⟩, (flush_done hflush).2⟩
  rw [heq]

/-- ECLOSE, as the state it leaves when its pseudocode runs through (R163). -/
theorem exec_eclose_ok (hp : s.enc.phase ≠ .closed) (hclose : closeBody s.enc = .ok e ()) :
    exec .eclose s = .next (s.setEnc e) := by
  rw [exec_eclose hp, hclose, encFinish]

/-- With no failing access, the bits `c` packed from an empty accumulator and the unit closed are the packing of `c` (R164). -/
theorem Packs.close (h : Packs n c e e') (hn : e.nbits = 0) (hcalm : Calm .enc (n + (c.length + 7) / 8) e.port.io)
    (q : EncPhase) : ∃ e'', closeBody { e' with phase := q } = .ok e'' () ∧ PackFrame { e' with phase := .closed } e'' ∧
      e''.port.dst = e.port.dst ++ packBytes c := by
  have hnone : e.nbits.toNat = 0 := congrArg BitVec.toNat hn
  have hheld := h.held
  rw [hnone, heldBits_zero, List.nil_append] at hheld
  have hio (hne : e'.nbits ≠ 0) : e'.port.io.answerAt .enc .write e'.port.dst.length 0 = false := by
    have hmod : c.length % 8 ≠ 0 := fun h0 => hne <| BitVec.eq_of_toNat_eq <| by rw [h.nbits, hnone, Nat.zero_add, h0]; rfl
    exact (h.calm (k := 1) (hcalm.mono (by omega))).head _ _
  obtain ⟨e'', hclose, hframe, hdst⟩ := closeBody_ok (e := { e' with phase := q }) hio
  refine ⟨e'', hclose, hframe, ?_⟩
  rw [hdst, hheld, packBytes_eq, ← List.append_assoc]
  obtain ⟨acc, -, rfl⟩ := h
  rw [Enc.packed, hnone]
  rfl

/-- With no failing access and the codes of all its source's bytes, ENC at the start of its second pass packs those codes and the
sentinel's, and closes (R201). -/
theorem runs_second_pass (he : s.enc.err = .none) (hp : s.enc.phase = .payload) (hn : s.enc.nbits = 0)
    (hrp : s.enc.port.rp = 0) (heoi : s.enc.eoi = false)
    (hcoded : ∀ b ∈ s.enc.port.src, (s.enc.code.get (byteSymbol b)).isSome = true)
    (hsent : s.enc.code.get sentinel = some p)
    (hcalm : Calm .enc (s.enc.port.src.length + ((codeBits s.enc.code s.enc.port.src ++ p).length + 7) / 8) s.enc.port.io) :
    ∃ t, Runs [.esymall, .eeos, .eclose] s t ∧
      Encoded s.dec s.enc.port.src (s.enc.port.dst ++ packBytes (codeBits s.enc.code s.enc.port.src ++ p)) t := by
  have hnone : s.enc.nbits.toNat = 0 := congrArg BitVec.toNat hn
  have hdrop : s.enc.port.src.drop s.enc.port.rp = s.enc.port.src := by rw [hrp, List.drop_zero]
  have hlen := List.length_append (as := codeBits s.enc.code s.enc.port.src) (bs := p)
  obtain ⟨e1, hpack1, hsyms⟩ := symAllBody_packs s.enc.port.src.length s.enc (by omega) (fun _ => heoi) (by rwa [hdrop])
    (by rw [hdrop, hnone]; exact hcalm.mono (by omega))
  rw [hdrop] at hpack1
  have hfirst := hpack1.setEoi true
  obtain ⟨e2, hpack2, hemit⟩ := emitBits_packs p { e1 with eoi := true } <| by
    rw [hfirst.nbits]
    exact hfirst.calm (hcalm.mono (by simp only [hnone]; omega))
  have hpack := hfirst.trans hpack2
  obtain ⟨e3, hclose, ⟨hframe, -⟩, hdst⟩ := hpack.close hn hcalm .ended
  obtain ⟨acc1, -, rfl⟩ := hpack1
  obtain ⟨acc2, -, rfl⟩ := hpack
  refine ⟨s.setEnc e3,
    ⟨_, exec_esymall_ok he hp hsyms, _, exec_eeos_ok he hp hsent hemit, _, exec_eclose_ok nofun hclose, rfl⟩, ?_⟩
  exact {
    dec := rfl
    phase := congrArg (·.phase) hframe
    err := (congrArg (·.err) hframe).trans he
    eoi := congrArg (·.eoi) hframe
    rp := (congrArg (·.port.rp) hframe).trans (by simp only [Enc.packed]; omega)
    src := congrArg (·.port.src) hframe
    dst := hdst }

end SecondPass

section Encode

variable {s : State} {f : Table Count 257} {a : Arena} {codes : Table (Option Bits) 257}

theorem code_length_le (h : Coded f codes) (x : Symbol) : ((codes.get x).getD []).length ≤ 256 := by
  cases hx : codes.get x with
  | none => exact Nat.zero_le _
  | some p => exact ((h x).2 p hx).2

/-- Each byte of a source gives at most 256 bits (42_codetable.md R144). -/
theorem codeBits_length_le (h : Coded f codes) (l : List Byte) : (codeBits codes l).length ≤ 256 * l.length := by
  induction l with
  | nil => exact Nat.zero_le _
  | cons b l ih =>
    have hb := code_length_le h (byteSymbol b)
    rw [codeBits] at ih ⊢
    rw [List.flatMap_cons, List.length_append, List.length_cons]
    omega

/-- The artifact of a source under a table of codes: the header of its histogram and the packing of its bytes' codes and the
sentinel's (20_memory.md R69, R201). -/
def artifact (codes : Table (Option Bits) 257) (x : List Byte) : List Byte :=
  headerBytes (histogram x) ++ packBytes (codeBits codes x ++ (codes.get sentinel).getD [])

/-- From any state, with no failing access and no count above 0xFFFFFFFF, ENCODE's commands write the artifact of the source
under the codes of its histogram's tree, and close (R201). -/
theorem runs_encode (hcount : ∀ b : Byte, s.enc.port.src.count b ≤ 0xFFFFFFFF)
    (hcalm : Calm .enc (34 * s.enc.port.src.length + 1060) s.enc.port.io)
    (ha : treeBuild (histogram s.enc.port.src) = some a) (hd : derive a = some codes)
    (hcoded : Coded (histogram s.enc.port.src) codes) :
    ∃ t, Runs encodeExpansion s t ∧ Encoded s.dec s.enc.port.src (artifact codes s.enc.port.src) t := by
  have hsent : (codes.get sentinel).isSome = true := (hcoded sentinel).1.2 (by rw [histogram_sentinel]; decide)
  obtain ⟨p, hp⟩ := Option.isSome_iff_exists.1 hsent
  have hplen : p.length ≤ 256 := ((hcoded sentinel).2 p hp).2
  have hlen := codeBits_length_le hcoded s.enc.port.src
  have hpass1 : Calm .enc s.enc.port.src.length s.enc.port.io := hcalm.mono (by omega)
  have hheader : Calm .enc 1028 (ioAfter s.enc.port.src.length s.enc.port.io) :=
    Calm.after (hcalm.mono (by omega))
  have hpass2 : Calm .enc (s.enc.port.src.length + ((codeBits codes s.enc.port.src ++ p).length + 7) / 8)
      (ioAfter 1028 (ioAfter s.enc.port.src.length s.enc.port.io)) :=
    Calm.after (Calm.after (hcalm.mono (by rw [List.length_append]; omega)))
  obtain ⟨t, hsecond, ht⟩ := runs_second_pass (s := s.setEnc (s.enc.counted.secondPass a codes)) rfl rfl rfl rfl rfl
    (fun b hb => (hcoded _).1.2 (histogram_ne_zero (hcount b) hb)) hp hpass2
  refine ⟨t, (runs_counting hcount hpass1).append <|
    (runs_building (s := s.setEnc s.enc.counted) rfl rfl rfl ha hd hheader).append hsecond, ?_⟩
  rwa [artifact, hp, ← secondPass_dst s.enc a codes]

end Encode

end Sys2Proof.Machine

open Sys2Proof Sys2Proof.Machine Sys2Proof.Safety

/-- Settles O47: the two passes one after the other, from the tree TreeBuild answers for the histogram. -/
theorem encodeWritesTheArtifact : Obligations.EncodeWritesTheArtifact := by
  intro s hcount hcalm
  obtain ⟨a, ha, htree, hbuilt, -⟩ := treeBuild_some (histogram s.enc.port.src) (by rw [histogram_sentinel]; decide)
  obtain ⟨codes, hd, hpath, hsome⟩ := derive_some htree
  obtain ⟨t, hrun, ht⟩ := runs_encode hcount hcalm ha hd (derive_coded htree hd)
  refine ⟨t, histogram s.enc.port.src, a, fun x => (codes.get x).getD [], hrun.hostRunFrom .idle,
    fun b => histogram_byteSymbol (hcount b), histogram_sentinel _, htree, hbuilt, fun x hx => ?_,
    ht.phase, ht.err, ht.eoi, ht.rp, ht.src, ht.dec, ht.dst⟩
  obtain ⟨p, hp⟩ := Option.isSome_iff_exists.1 ((hsome x).2 hx)
  simpa only [hp, Option.getD_some] using (hpath x p).1 hp

/-- Settles O48: the tree, the codes and so the artifact are functions of the source. -/
theorem encodeIsAFunctionOfTheSource : Obligations.EncodeIsAFunctionOfTheSource := by
  intro s s' hsrc hcount hcalm hcalm'
  obtain ⟨a, ha, htree, -⟩ := treeBuild_some (histogram s.enc.port.src) (by rw [histogram_sentinel]; decide)
  obtain ⟨codes, hd, -⟩ := derive_some htree
  have hcoded := derive_coded htree hd
  obtain ⟨t, hrun, ht⟩ := runs_encode hcount hcalm ha hd hcoded
  rw [← hsrc] at hcount hcalm' ha hcoded
  obtain ⟨t', hrun', ht'⟩ := runs_encode hcount hcalm' ha hd hcoded
  exact ⟨t, t', hrun.hostRunFrom .idle, hrun'.hostRunFrom .idle, by rw [ht'.dst, ht.dst, hsrc]⟩

end

section
/-! PROOFS. The decoder's commands one by one (46_decoder.md R231 to R239): the header DHDR reads, DCLOSE and the destination it
leaves final, and DSTEP by the bit it reads and the node that bit leads to. -/

namespace Sys2Proof.Machine

open Sys2Proof.Safety

section Header

variable {s : State} {d : Dec} {f : Table Count 257}

/-- A raise with no error latched yet is recorded as it is (60_exceptions.md R262). -/
theorem decFinish_raised {α : Type} {c : ErrCode} (he : d.err = .none) :
    decFinish s (.raised d c : Ended Dec α) = .next (s.setDec { d with err := c }) := by
  rw [decFinish, Dec.latch_of_none c d he]

/-- In EMPTY and with no error latched, DHDR is its pseudocode (46_decoder.md R231). -/
theorem exec_dhdr (he : s.dec.err = .none) (hp : s.dec.phase = .empty) : exec .dhdr s = decFinish s (dhdrBody s.dec) :=
  decGate_run .dhdr s he (decide_eq_true hp)

/-- Four bytes are the digits of a counter to the base 256, the first the most significant (R232). -/
theorem countOf_toNat (b0 b1 b2 b3 : Byte) :
    (countOf b0 b1 b2 b3).toNat = b0.toNat * 2 ^ 24 + b1.toNat * 2 ^ 16 + b2.toNat * 2 ^ 8 + b3.toNat := by
  have digit (b : Byte) {k : Nat} (hk : k ≤ 24) : (b.setWidth 32 <<< k).toNat = b.toNat <<< k := by
    have hle : b.toNat * 2 ^ k ≤ 255 * 2 ^ 24 :=
      Nat.mul_le_mul (by have := b.isLt; omega) (Nat.pow_le_pow_right (by decide) hk)
    rw [BitVec.toNat_shiftLeft, BitVec.toNat_setWidth_of_le (by decide), Nat.shiftLeft_eq]
    exact Nat.mod_eq_of_lt (by omega)
  have h0 := b0.isLt
  have h1 := b1.isLt
  have h2 := b2.isLt
  have h3 := b3.isLt
  rw [countOf, BitVec.toNat_or, BitVec.toNat_or, BitVec.toNat_or, digit _ (by decide), digit _ (by decide),
    digit _ (by decide), BitVec.toNat_setWidth_of_le (by decide), Nat.or_assoc, Nat.or_assoc,
    ← Nat.shiftLeft_add_eq_or_of_lt (by omega : b3.toNat < 2 ^ 8),
    ← Nat.shiftLeft_add_eq_or_of_lt (by omega : b2.toNat <<< 8 + b3.toNat < 2 ^ 16),
    ← Nat.shiftLeft_add_eq_or_of_lt (by omega : b1.toNat <<< 16 + (b2.toNat <<< 8 + b3.toNat) < 2 ^ 24)]
  omega

/-- A counter is read back from its four bytes (R232, 20_memory.md R66). -/
theorem countOf_countByte (c : Count) : countOf (countByte c 0) (countByte c 1) (countByte c 2) (countByte c 3) = c := by
  refine BitVec.eq_of_toNat_eq ?_
  have hlt := c.isLt
  rw [countOf_toNat, countByte_toNat c (by decide), countByte_toNat c (by decide), countByte_toNat c (by decide),
    countByte_toNat c (by decide)]
  omega

/-- ParseHeader undoes the header (R232, 45_encoder.md R203). -/
theorem parseHeader_headerBytes (f : Table Count 257) : parseHeader (headerBytes f) = f :=
  Table.ext_get fun x => by
    have h0 := headerBytes_getD f x (k := 0) (by decide)
    rw [Nat.add_zero] at h0
    rw [parseHeader, Table.get_ofFn, h0, headerBytes_getD f x (by decide), headerBytes_getD f x (by decide),
      headerBytes_getD f x (by decide), countOf_countByte]

/-- ParseHeader gives the table whose counters are the big-endian values of the header's bytes (R232). -/
theorem parseHeader_eq {h : List Byte} (hf : ∀ x : Symbol, (f.get x).toNat =
    (h.getD (4 * x.val) 0).toNat * 2 ^ 24 + (h.getD (4 * x.val + 1) 0).toNat * 2 ^ 16 +
      (h.getD (4 * x.val + 2) 0).toNat * 2 ^ 8 + (h.getD (4 * x.val + 3) 0).toNat) : parseHeader h = f :=
  Table.ext_get fun x => BitVec.eq_of_toNat_eq (by rw [parseHeader, Table.get_ofFn, countOf_toNat, hf])

/-- A byte of a piece of a list is a byte of the list. -/
theorem getD_take_drop (l : List Byte) (r : Nat) {n k : Nat} (hk : k < n) :
    ((l.drop r).take n).getD k 0 = l.getD (r + k) 0 := by
  rw [List.getD_eq_getElem?_getD, List.getElem?_take_of_lt hk, List.getElem?_drop, List.getD_eq_getElem?_getD]

/-- With a whole header there and no failing read, DHDR's pseudocode consumes it, and keeps its table if the sentinel's count is
1 (R231). -/
theorem dhdrBody_header (hlen : d.port.rp + 1028 ≤ d.port.src.length) (hcalm : Calm .dec 1028 d.port.io)
    (hf : parseHeader ((d.port.src.drop d.port.rp).take 1028) = f) :
    dhdrBody d = if f.get sentinel = 1
      then .ok { d with
        freq := f
        phase := .loaded
        port := { d.port with rp := d.port.rp + 1028, io := ioAfter 1028 d.port.io } } ()
      else .raised { d with port := { d.port with rp := d.port.rp + 1028, io := ioAfter 1028 d.port.io } } .format := by
  rw [dhdrBody, Config.hdrLen, readHeader_ok 1028 d hlen hcalm, Ended.bind_ok, hf]

/-- DHDR loads the table of a whole header whose sentinel's count is 1, as the state it leaves (R231). -/
theorem exec_dhdr_ok (he : s.dec.err = .none) (hp : s.dec.phase = .empty)
    (hlen : s.dec.port.rp + 1028 ≤ s.dec.port.src.length) (hcalm : Calm .dec 1028 s.dec.port.io)
    (hf : parseHeader ((s.dec.port.src.drop s.dec.port.rp).take 1028) = f) (hone : f.get sentinel = 1) :
    exec .dhdr s = .next (s.setDec { s.dec with
      freq := f
      phase := .loaded
      port := { s.dec.port with rp := s.dec.port.rp + 1028, io := ioAfter 1028 s.dec.port.io } }) := by
  rw [exec_dhdr he hp, dhdrBody_header hlen hcalm hf, if_pos hone, decFinish]

end Header

section Closing

variable {i : Instr} {s t : State}

/-- DCLOSE in any phase but CLOSED, also under a latched error, closes and changes nothing else (R239). -/
theorem exec_dclose (hp : s.dec.phase ≠ .closed) : exec .dclose s = .next { s with dec := { s.dec with phase := .closed } } :=
  ((execDclose_cases s).resolve_left fun h => hp h.1).2

/-- A second DCLOSE raises SEQUENCE, or does nothing under a latched error (R239, 60_exceptions.md R263). -/
theorem exec_dclose_closed (hp : s.dec.phase = .closed) :
    exec .dclose s = .next (if s.dec.err = .none then { s with dec := { s.dec with err := .sequence } } else s) := by
  obtain ⟨-, hx⟩ := (execDclose_cases s).resolve_right fun h => h.1 hp
  refine hx.trans (congrArg _ ?_)
  split
  · next he => rw [Dec.latch_of_none _ _ he]; rfl
  · next he => rw [Dec.latch_of_ne _ _ he]; rfl

/-- In CLOSED no command but DINIT changes the destination (R239). -/
theorem exec_dec_dst_of_closed (hp : s.dec.phase = .closed) (hi : i ≠ .dinit) (h : exec i s = .next t) :
    t.dec.port.dst = s.dec.port.dst := by
  cases hu : i.unit with
  | enc =>
    obtain ⟨e, c, -, -, rfl⟩ := exec_encChange hu h
    rfl
  | dec =>
    obtain ⟨l, hdst, hready⟩ := (exec_decChange hu h).dst hi
    have hnone : l = [] := by_contra fun hl => absurd (hp.symm.trans (hready hl).2) nofun
    rw [hdst, hnone, List.append_nil]

end Closing

section Arriving

variable {s : State} {d d' : Dec} {v : Node} {b : Bool}

/-- The sentinel's symbol field is 256 (10_state.md R31). -/
theorem eq_symbolField_sentinel_iff (f : BitVec 9) : f = symbolField sentinel ↔ f.toNat = 256 := by
  rw [← BitVec.toNat_inj, symbolField_toNat]
  rfl

/-- At an INTERNAL node the walker does no more (46_decoder.md R236). -/
theorem arrive_internal (hv : d.arena.slot d.cur = v) (hk : v.kind = .internal) : arrive d = .ok d false := by
  simp only [arrive, hv, hk]

/-- At the sentinel's leaf the phase is DONE (R236). -/
theorem arrive_sentinel (hv : d.arena.slot d.cur = v) (hk : v.kind = .leaf) (hsym : v.sym.toNat = 256) :
    arrive d = .ok { d with phase := .done } true := by
  simp only [arrive, hv, hk, eq_symbolField_sentinel_iff, if_pos hsym]

/-- At a byte's leaf the byte is appended and the walker goes back to the root (R236). -/
theorem arrive_byte (hv : d.arena.slot d.cur = v) (hk : v.kind = .leaf) (hsym : v.sym.toNat ≠ 256)
    (hio : d.port.io.answerAt .dec .write d.port.dst.length 0 = false) :
    arrive d = .ok { d with
      cur := d.arena.root
      port := { d.port with dst := d.port.dst ++ [v.sym.extractLsb' 0 8], io := d.port.io.tick } } true := by
  simp only [arrive, hv, hk, eq_symbolField_sentinel_iff, if_neg hsym, Dec.write, memWrite_ok _ _ _ hio]
  rfl

/-- A failing write leaves the walker on the byte's leaf (R236). -/
theorem arrive_byte_fault (hv : d.arena.slot d.cur = v) (hk : v.kind = .leaf) (hsym : v.sym.toNat ≠ 256)
    (hio : d.port.io.answerAt .dec .write d.port.dst.length 0 = true) :
    arrive d = .raised { d with port := { d.port with io := d.port.io.tick } } .io := by
  simp only [arrive, hv, hk, eq_symbolField_sentinel_iff, if_neg hsym, Dec.write, memWrite_fault _ _ _ hio]
  rfl

/-- The null leaf raises CORRUPT (R236). -/
theorem arrive_nullLeaf (hv : d.arena.slot d.cur = v) (hk : v.kind = .nullLeaf) : arrive d = .raised d .corrupt := by
  simp only [arrive, hv, hk]

/-- Forgetting a body's result changes nothing of how the command ends. -/
theorem decFinish_unit {α : Type} (x : Ended Dec α) : decFinish s x.unit = decFinish s x := by
  cases x <;> rfl

/-- In READY and with no error latched, DSTEP is its pseudocode (R236). -/
theorem exec_dstep (he : s.dec.err = .none) (hp : s.dec.phase = .ready) : exec .dstep s = decFinish s (stepBody s.dec) :=
  (decGate_run (body := fun d => (stepBody d).unit) .dstep s he (decide_eq_true hp)).trans (decFinish_unit _)

/-- In READY and with no error latched, DSYMBOL is its pseudocode (R237). -/
theorem exec_dsymbol (he : s.dec.err = .none) (hp : s.dec.phase = .ready) :
    exec .dsymbol s = decFinish s (symbolBody s.dec) :=
  (decGate_run (body := fun d => (symbolBody d).unit) .dsymbol s he (decide_eq_true hp)).trans (decFinish_unit _)

/-- In READY and with no error latched, DRUN is its pseudocode (R238). -/
theorem exec_drun (he : s.dec.err = .none) (hp : s.dec.phase = .ready) : exec .drun s = decFinish s (runBody s.dec) :=
  (decGate_run (body := fun d => (runBody d).unit) .drun s he (decide_eq_true hp)).trans (decFinish_unit _)

/-- At the end of the source the walker raises TRUNCATED, with EOI set (R236). -/
theorem stepBody_eoi (hc : d.cnt.val = 8) (hend : d.port.src.length ≤ d.port.rp) :
    stepBody d = .raised { d with eoi := true } .truncated := by
  rw [stepBody, readBit_eoi d hc hend]
  rfl

/-- A failing refill raises IO and moves nothing (R236). -/
theorem stepBody_fault {c : Byte} (hc : d.cnt.val = 8) (hb : d.port.src[d.port.rp]? = some c)
    (hio : d.port.io.answerAt .dec .read d.port.rp 0 = true) :
    stepBody d = .raised { d with port := { d.port with io := d.port.io.tick } } .io := by
  rw [stepBody, readBit_fault d hc hb hio]
  rfl

/-- Reading a bit leaves the tree, the walker and the error as they are (44_bitreader.md R180). -/
theorem readsBit_keeps (h : ReadsBit d d' b) : d'.arena = d.arena ∧ d'.cur = d.cur ∧ d'.err = d.err := by
  obtain ⟨_, _, rfl⟩ | ⟨_, _, _, _, _, rfl⟩ := h
  · exact ⟨rfl, rfl, rfl⟩
  · exact ⟨rfl, rfl, rfl⟩

/-- A bit that is read moves the walker to a child of its node (R236). -/
theorem stepBody_bit (h : ReadsBit d d' b) : stepBody d = arrive { d' with cur := childOf d.arena d.cur b } := by
  obtain ⟨harena, hcur, -⟩ := readsBit_keeps h
  rw [stepBody, readBit_eq_some.2 h, Ended.bind_ok, harena, hcur]

end Arriving

end Sys2Proof.Machine

open Sys2Proof Sys2Proof.Machine Sys2Proof.Safety

/-- Settles O37: byte `k` of the counter number `x` is where ParseHeader reads it, and four bytes give their counter back. -/
theorem headerRoundTrips : Obligations.HeaderRoundTrips := fun f => ⟨headerBytes_length f, parseHeader_headerBytes f⟩

/-- Settles O36: the header is there and read whole, or it ends early, or its read number `n` fails. -/
theorem dhdrReadsAndChecksTheHeader : Obligations.DhdrReadsAndChecksTheHeader := by
  refine ⟨by decide, fun s he hp hrp => ?_⟩
  rw [exec_dhdr he hp]
  refine ⟨fun f hlen hcalm hf => ?_, fun hshort hcalm => ?_, fun n hn hlen hcalm hio => ?_⟩
  · have hparse : parseHeader ((s.dec.port.src.drop s.dec.port.rp).take 1028) = f := parseHeader_eq fun x => by
      have hx := x.isLt
      rw [hf, getD_take_drop _ _ (by omega), getD_take_drop _ _ (by omega), getD_take_drop _ _ (by omega),
        getD_take_drop _ _ (by omega)]
      rfl
    rw [dhdrBody_header hlen hcalm hparse]
    refine ⟨fun hone => ?_, fun hone => ?_⟩
    · rw [if_pos hone]; rfl
    · rw [if_neg hone]; exact decFinish_raised he
  · rw [dhdrBody, Config.hdrLen, readHeader_short 1028 _ hrp hshort hcalm, Ended.bind_raised]; exact decFinish_raised he
  · rw [dhdrBody, Config.hdrLen, readHeader_fault 1028 n _ hn hlen hcalm hio, Ended.bind_raised]; exact decFinish_raised he

/-- Settles O42: in CLOSED no command of DEC but DINIT is in its phases, and in the other phases DCLOSE runs to its end. -/
theorem dcloseCloses : Obligations.DcloseCloses :=
  ⟨by decide, fun _ hp => ⟨exec_dclose_closed hp, fun _ _ => exec_dec_dst_of_closed hp⟩, fun _ hp => exec_dclose hp⟩

/-- Settles O39: DSTEP by what ReadBit answers, and then by the node the bit leads to. -/
theorem dstepMovesTheWalkerOneEdge : Obligations.DstepMovesTheWalkerOneEdge := by
  refine ⟨by decide, fun s he hp => ?_⟩
  rw [exec_dstep he hp]
  refine ⟨fun hc hend => ?_, fun hc hlt hio => ?_, fun b rest hu hio => ?_, fun b d m v hread hm hv => ?_⟩
  · rw [stepBody_eoi (congrArg Fin.val hc) hend.ge]; exact decFinish_raised he
  · rw [stepBody_fault (congrArg Fin.val hc) (List.getElem?_eq_getElem hlt) hio]; exact decFinish_raised he
  · obtain ⟨buf, cnt, rp, io, hr, hrest, hpos, -⟩ := readBit_next s.dec hu hio
    exact ⟨_, readBit_eq_some.1 hr, hrest, hpos⟩
  · obtain ⟨harena, -, herr⟩ := readsBit_keeps hread
    have hstep : stepBody s.dec = arrive { d with cur := m } := hm ▸ stepBody_bit hread
    have hslot : d.arena.slot m = v := by rw [harena, hv]
    have herr' : d.err = .none := herr.trans he
    rw [hstep, ← harena]
    refine ⟨fun hk => ?_, fun hk hsym => ?_, fun hk hsym hio => ?_, fun hk hsym hio => ?_, fun hk => ?_⟩
    · rw [arrive_internal hslot hk]; rfl
    · rw [arrive_sentinel hslot hk hsym]; rfl
    · rw [arrive_byte (d := { d with cur := m }) hslot hk hsym hio]; rfl
    · rw [arrive_byte_fault (d := { d with cur := m }) hslot hk hsym hio]; exact decFinish_raised herr'
    · rw [arrive_nullLeaf hslot hk]; exact decFinish_raised herr'

end

section
/-! PROOFS. The walk (46_decoder.md R234 to R238): what the walker has read and written when it comes to a node, the bits of a
path read up to its end, and whole coded messages. -/

namespace Sys2Proof.Machine

open Sys2Proof.Safety

section Walks

variable {d d' d'' x : Dec} {c c' p rest rest' : Bits} {l l' : List Byte} {m n : Nat} {k : NodeId}

/-- From `d` to `d'` the walker has read the bits `c` and written the bytes `l`: the bits `rest` are left to read, and of the
accesses to come `n` do not fail. -/
structure Walks (d : Dec) (c : Bits) (l : List Byte) (rest : Bits) (n : Nat) (d' : Dec) : Prop where
  phase : d'.phase = d.phase
  err : d'.err = d.err
  arena : d'.arena = d.arena
  dst : d'.port.dst = d.port.dst ++ l
  unread : unread d' = rest
  pos : bitPos d' = bitPos d + c.length
  calm : Calm .dec n d'.port.io

theorem Walks.refl (hu : Safety.unread d = rest) (hcalm : Calm .dec n d.port.io) : Walks d [] [] rest n d where
  phase := rfl
  err := rfl
  arena := rfl
  dst := (List.append_nil _).symm
  unread := hu
  pos := rfl
  calm := hcalm

theorem Walks.trans (h : Walks d c l rest m d') (h' : Walks d' c' l' rest' n d'') :
    Walks d (c ++ c') (l ++ l') rest' n d'' where
  phase := h'.phase.trans h.phase
  err := h'.err.trans h.err
  arena := h'.arena.trans h.arena
  dst := by rw [h'.dst, h.dst, List.append_assoc]
  unread := h'.unread
  pos := by rw [h'.pos, h.pos, List.length_append, Nat.add_assoc]
  calm := h'.calm

/-- One pass of R236 reads a bit, and does what the child it leads to asks. -/
theorem walk_edge {b : Bool} (hu : unread d = b :: rest) (hcalm : Calm .dec (n + 1) d.port.io) :
    ∃ x, stepBody d = arrive x ∧ x.cur = childOf d.arena d.cur b ∧ Walks d [b] [] rest n x := by
  obtain ⟨buf, cnt, rp, io, hx, hcalmx⟩ := step_edge d hu hcalm
  obtain ⟨hstep, hux, hpos⟩ := hx _ rfl
  exact ⟨_, hstep, rfl, rfl, rfl, rfl, (List.append_nil _).symm, hux, hpos, hcalmx⟩

/-- A loop of R236 passes brings the walker along a path to its end, where the last pass does what that node asks. -/
theorem walk_to (loop : Dec → Ended Dec Bool)
    (hloop : ∀ d d', stepBody d = .ok d' false → d'.phase ≠ .done → loop d = loop d') (hp : d.phase ≠ .done)
    (hne : p ≠ []) (hpath : LeadsTo d.arena d.cur p k) (hu : unread d = p ++ rest)
    (hcalm : Calm .dec (n + p.length) d.port.io) :
    ∃ y x, loop d = loop y ∧ stepBody y = arrive x ∧ x.cur = k ∧ Walks d p [] rest n x := by
  obtain ⟨q, b, j, rfl, hq, hj, hchild⟩ := leadsTo_last hne hpath
  rw [List.append_assoc] at hu
  rw [List.length_append, Nat.add_comm q.length, ← Nat.add_assoc] at hcalm
  obtain ⟨y, hy, hcur, huy, hpos, hcalmy, hframe⟩ :=
    walk_path loop hloop q b d k j rest (n + 1) hp hq hj hchild hu hcalm
  have hw : Walks d q [] (b :: rest) (n + 1) y := by
    rw [hframe] at huy hpos hcalmy ⊢
    exact ⟨rfl, rfl, rfl, (List.append_nil _).symm, huy, hpos, hcalmy⟩
  obtain ⟨x, hstep, hx, hedge⟩ := walk_edge hw.unread hw.calm
  exact ⟨y, x, hy, hstep, by rw [hx, hw.arena, hcur, hchild], hw.trans hedge⟩

/-- On a byte's leaf, and with no failing write, the walker writes the byte and goes back to the root (R236). -/
theorem Walks.write (h : Walks d p l rest (n + 1) x) (hk : (d.arena.slot x.cur).kind = .leaf)
    (hsym : (d.arena.slot x.cur).sym.toNat ≠ 256) :
    ∃ d', arrive x = .ok d' true ∧ d'.cur = d.arena.root ∧
      Walks d p (l ++ [(d.arena.slot x.cur).sym.extractLsb' 0 8]) rest n d' := by
  rw [← h.arena] at hk hsym ⊢
  refine ⟨_, arrive_byte rfl hk hsym (h.calm.head _ _), rfl, ?_⟩
  exact {
    phase := h.phase
    err := h.err
    arena := h.arena
    dst := by rw [← List.append_assoc, ← h.dst]
    unread := h.unread
    pos := h.pos
    calm := h.calm.tick }

/-- On the sentinel's leaf the walk ends (R236). -/
theorem Walks.done (h : Walks d p l rest n x) (hk : (d.arena.slot x.cur).kind = .leaf)
    (hsym : (d.arena.slot x.cur).sym.toNat = 256) : arrive x = .ok { x with phase := .done } true := by
  rw [← h.arena] at hk hsym
  exact arrive_sentinel rfl hk hsym

/-- DSYMBOL ends with the pass that reaches a leaf (R237). -/
theorem symbolBody_leaf (h : stepBody d = .ok d' true) : symbolBody d = .ok d' true := by
  rw [symbolBody_unfold, h]
  rfl

/-- DRUN ends with the pass that makes the phase DONE (R238). -/
theorem runBody_done (h : stepBody d = .ok { d' with phase := .done } true) :
    runBody d = .ok { d' with phase := .done } true := by
  rw [runBody_unfold, h]
  rfl

/-- DRUN raises what its first pass raises (R238). -/
theorem runBody_raised {e : ErrCode} (h : stepBody d = .raised d' e) : runBody d = .raised d' e := by
  rw [runBody_unfold, h]
  rfl

end Walks

section Messages

variable {d : Dec} {a : Arena} {c rest : Bits} {code : Symbol → Bits} {b : Byte} {n : Nat}

/-- The bits `c` are the code of the byte `b` in the tree: the path from the root to the leaf of `b` (46_decoder.md R234). -/
def ByteCode (a : Arena) (c : Bits) (b : Byte) : Prop :=
  ∃ k, LeadsTo a a.root c k ∧ (a.slot k).kind = .leaf ∧ (a.slot k).sym.toNat = b.toNat

/-- No leaf is the root, so no code is empty. -/
theorem leadsTo_leaf_ne_nil {m k : NodeId} (hm : (a.slot m).kind = .internal) (hpath : LeadsTo a m c k)
    (hk : (a.slot k).kind = .leaf) : c ≠ [] := by
  rintro rfl
  obtain rfl : m = k := hpath
  exact absurd (hm.symm.trans hk) nofun

/-- DRUN reads the code of a byte from the root, writes the byte, and goes on at the root (R238). -/
theorem runBody_byte (hp : d.phase ≠ .done) (hcur : d.cur = d.arena.root)
    (hroot : (d.arena.slot d.arena.root).kind = .internal) (hcode : ByteCode d.arena c b) (hu : unread d = c ++ rest)
    (hcalm : Calm .dec (n + 1 + c.length) d.port.io) :
    ∃ d', runBody d = runBody d' ∧ d'.cur = d.arena.root ∧ Walks d c [b] rest n d' := by
  obtain ⟨k, hpath, hleaf, hsym⟩ := hcode
  obtain ⟨y, x, hrun, hstep, rfl, hx⟩ := walk_to runBody (fun d d' => runBody_continue d d' false) hp
    (leadsTo_leaf_ne_nil hroot hpath hleaf) (hcur ▸ hpath) hu hcalm
  have hlt := b.isLt
  obtain ⟨d', harrive, hd', hw⟩ := hx.write hleaf (by omega)
  have hbyte : (d.arena.slot x.cur).sym.extractLsb' 0 8 = b := BitVec.eq_of_toNat_eq <| by
    rw [BitVec.extractLsb'_toNat, hsym, Nat.shiftRight_zero, Nat.mod_eq_of_lt hlt]
  rw [hbyte] at hw
  exact ⟨d', hrun.trans (runBody_continue y d' true (hstep.trans harrive) (hw.phase ▸ hp)), hd', hw⟩

/-- DRUN reads the codes of a byte sequence from the root, writes the bytes, and goes on at the root (R238). -/
theorem runBody_message (n : Nat) (msg : List Byte) (d : Dec) (hp : d.phase ≠ .done) (hcur : d.cur = d.arena.root)
    (hroot : (d.arena.slot d.arena.root).kind = .internal)
    (hcode : ∀ b ∈ msg, ByteCode d.arena (code (byteSymbol b)) b)
    (hu : unread d = (msg.flatMap fun b => code (byteSymbol b)) ++ rest)
    (hcalm : Calm .dec (n + (msg.flatMap fun b => code (byteSymbol b)).length + msg.length) d.port.io) :
    ∃ d', runBody d = runBody d' ∧ d'.cur = d.arena.root ∧
      Walks d (msg.flatMap fun b => code (byteSymbol b)) msg rest n d' := by
  induction msg generalizing d with
  | nil => exact ⟨d, rfl, hcur, .refl hu hcalm⟩
  | cons b msg ih =>
    rw [List.flatMap_cons] at hu hcalm ⊢
    rw [List.append_assoc] at hu
    rw [List.length_append, List.length_cons] at hcalm
    obtain ⟨d1, hrun1, hcur1, hw1⟩ := runBody_byte (n := n + (msg.flatMap fun b => code (byteSymbol b)).length + msg.length)
      hp hcur hroot (hcode b (.head _)) hu (hcalm.mono (by omega))
    obtain ⟨d2, hrun2, hcur2, hw2⟩ := ih d1 (hw1.phase ▸ hp) (hcur1.trans (congrArg _ hw1.arena.symm))
      (hw1.arena ▸ hroot) (fun b' hb' => hw1.arena ▸ hcode b' (.tail _ hb')) hw1.unread hw1.calm
    exact ⟨d2, hrun1.trans hrun2, hcur2.trans (congrArg _ hw1.arena), hw1.trans hw2⟩

/-- DRUN at the end of a source that ends inside a code reads to that end and raises TRUNCATED there (R238, R241). -/
theorem runBody_truncated {k : NodeId} (hp : d.phase ≠ .done) (hpath : LeadsTo d.arena d.cur c k)
    (hk : (d.arena.slot k).kind = .internal) (hu : unread d = c) (hcalm : Calm .dec c.length d.port.io) :
    ∃ x, runBody d = .raised { x with eoi := true } .truncated ∧ x.cur = k ∧ Walks d c [] [] 0 x := by
  have hreach : ∃ x, runBody d = runBody x ∧ x.cur = k ∧ Walks d c [] [] 0 x := by
    by_cases hne : c = []
    · subst hne
      exact ⟨d, rfl, hpath, .refl hu hcalm⟩
    · obtain ⟨y, x, hrun, hstep, rfl, hx⟩ := walk_to (n := 0) (rest := []) runBody (fun d d' => runBody_continue d d' false)
        hp hne hpath (by rw [hu, List.append_nil]) (by rwa [Nat.zero_add])
      have hpass : stepBody y = .ok x false := hstep.trans (arrive_internal rfl (hx.arena ▸ hk))
      exact ⟨x, hrun.trans (runBody_continue y x false hpass (hx.phase ▸ hp)), rfl, hx⟩
  obtain ⟨x, hrun, hcur, hx⟩ := hreach
  obtain ⟨hcnt, hend⟩ := unread_nil x hx.unread
  exact ⟨x, hrun.trans (runBody_raised (stepBody_eoi hcnt hend)), hcur, hx⟩

/-- With no failing access, DRUN from the root on the codes of a byte sequence and then the sentinel's writes the bytes, is DONE
on the sentinel's leaf, and reads no further (R238). -/
theorem exec_drun_message {s : State} {msg : List Byte} {m : NodeId} (he : s.dec.err = .none) (hp : s.dec.phase = .ready)
    (hcur : s.dec.cur = s.dec.arena.root) (hroot : (s.dec.arena.slot s.dec.arena.root).kind = .internal)
    (hcode : ∀ b ∈ msg, ByteCode s.dec.arena (code (byteSymbol b)) b) (hpath : LeadsTo s.dec.arena s.dec.arena.root c m)
    (hk : (s.dec.arena.slot m).kind = .leaf) (hsym : (s.dec.arena.slot m).sym.toNat = 256)
    (hu : unread s.dec = (msg.flatMap fun b => code (byteSymbol b)) ++ (c ++ rest))
    (hcalm : Calm .dec ((msg.flatMap fun b => code (byteSymbol b)).length + c.length + msg.length) s.dec.port.io) :
    ∃ t, exec .drun s = .next t ∧ t.dec.err = .none ∧ t.dec.phase = .done ∧ t.dec.cur = m ∧
      t.dec.port.dst = s.dec.port.dst ++ msg ∧ unread t.dec = rest := by
  have hopen : s.dec.phase ≠ .done := by rw [hp]; nofun
  obtain ⟨d, hrun, hd, hw⟩ := runBody_message (n := 0 + c.length) msg s.dec hopen hcur hroot hcode hu (hcalm.mono (by omega))
  obtain ⟨y, x, hrun', hstep, rfl, hx⟩ := walk_to runBody (fun d d' => runBody_continue d d' false) (hw.phase ▸ hopen)
    (leadsTo_leaf_ne_nil hroot hpath hk) (by rw [hw.arena, hd]; exact hpath) hw.unread hw.calm
  have hall := hw.trans hx
  rw [exec_drun he hp, hrun, hrun', runBody_done (hstep.trans (hall.done hk hsym))]
  exact ⟨_, rfl, hall.err.trans he, rfl, rfl, by rw [← List.append_nil msg]; exact hall.dst, hall.unread⟩

end Messages

end Sys2Proof.Machine

open Sys2Proof Sys2Proof.Machine Sys2Proof.Safety

/-- Settles O51: the child the bit leads to is a node of the tree, so it is INTERNAL, or a byte's leaf, or the sentinel's. -/
theorem dstepKeepsTheWalkerInTheTree : Obligations.DstepKeepsTheWalkerInTheTree := by
  intro s f b rest he hp h hcur hu hcalm hnull
  obtain ⟨x, hstep, hx, hw⟩ := walk_edge hu hcalm
  have hlt := (h.child_lt hcur b).trans (h.internal_lt hcur)
  rw [← hx] at hnull hlt
  rw [exec_dstep he hp, hstep]
  cases hk : (s.dec.arena.slot x.cur).kind with
  | empty => exact absurd hk (h.used_below _ hlt)
  | nullLeaf => exact absurd hk hnull
  | internal =>
    have hk' : (x.arena.slot x.cur).kind = .internal := hw.arena ▸ hk
    rw [arrive_internal rfl hk']
    exact ⟨_, rfl, hw.err.trans he, hw.unread, hw.arena, .inl ⟨hw.phase.trans hp, hk'⟩⟩
  | leaf =>
    by_cases hsym : (s.dec.arena.slot x.cur).sym.toNat = 256
    · rw [hw.done hk hsym]
      rw [← hw.arena] at hk hsym
      exact ⟨_, rfl, hw.err.trans he, hw.unread, hw.arena, .inr ⟨rfl, hk, hsym⟩⟩
    · obtain ⟨d, harrive, hroot, hd⟩ := hw.write hk hsym
      have hinternal : (d.arena.slot d.cur).kind = .internal := by rw [hd.arena, hroot]; exact h.root_internal
      rw [harrive]
      exact ⟨_, rfl, hd.err.trans he, hd.unread, hd.arena, .inl ⟨hd.phase.trans hp, hinternal⟩⟩

/-- Settles O40: the walk along the path, and then what its leaf asks. -/
theorem dsymbolDecodesOneSymbol : Obligations.DsymbolDecodesOneSymbol := by
  intro s p rest m he hp hu hne hpath hleaf hcalm
  obtain ⟨y, x, hrun, hstep, rfl, hx⟩ := walk_to (n := 1) symbolBody symbolBody_continue (by rw [hp]; nofun) hne hpath hu
    (by rwa [Nat.add_comm])
  rw [exec_dsymbol he hp, hrun]
  by_cases hsym : (s.dec.arena.slot x.cur).sym.toNat = 256
  · rw [symbolBody_leaf (hstep.trans (hx.done hleaf hsym))]
    exact ⟨_, rfl, hx.err.trans he, hx.unread, hx.pos,
      fun _ => ⟨rfl, rfl, hx.dst.trans (List.append_nil _)⟩, absurd hsym⟩
  · obtain ⟨d', harrive, hroot, hd'⟩ := hx.write hleaf hsym
    rw [symbolBody_leaf (hstep.trans harrive)]
    exact ⟨_, rfl, hd'.err.trans he, hd'.unread, hd'.pos, (absurd · hsym),
      fun _ => ⟨hd'.phase.trans hp, hroot, hd'.dst⟩⟩

/-- Settles O41: after the codes of the bytes DRUN is back at the root, from where it reads the sentinel's code to its leaf, or
the rest of the source to an INTERNAL node. -/
theorem drunDecodesToTheSentinel : Obligations.DrunDecodesToTheSentinel := by
  intro s code msg rest m he hp hcur hroot hcode hu
  have hlen := congrArg List.length hu
  rw [List.length_append] at hlen
  refine ⟨fun more hrest hpath hleaf hsym hcalm => ?_, fun hpath hk hcalm => ?_⟩
  · subst hrest
    rw [List.length_append] at hlen
    exact exec_drun_message he hp hcur hroot hcode hpath hleaf hsym hu (hcalm.mono (by omega))
  · have hopen : s.dec.phase ≠ .done := by rw [hp]; nofun
    obtain ⟨d, hrun, hd, hw⟩ := runBody_message (n := rest.length) msg s.dec hopen hcur hroot hcode hu (hcalm.mono (by omega))
    obtain ⟨x, hrun', rfl, hx⟩ := runBody_truncated (hw.phase ▸ hopen) (by rw [hw.arena, hd]; exact hpath)
      (by rw [hw.arena]; exact hk) hw.unread hw.calm
    have hall := hw.trans hx
    rw [exec_drun he hp, hrun, hrun', decFinish_raised (d := { x with eoi := true }) (hall.err.trans he)]
    exact ⟨_, rfl, rfl, rfl, rfl, by rw [← List.append_nil msg]; exact hall.dst, hall.unread⟩

end

section
/-! PROOFS. DECODE (46_decoder.md R240): from the artifact ENCODE writes, its commands build the encoder's tree, read the codes
back from the root, and close. -/

namespace Sys2Proof.Machine

open Sys2Proof.Safety

section Decode

variable {s : State} {a : Arena} {f : Table Count 257} {codes : Table (Option Bits) 257} {x l : List Byte}

/-- DEC with the table of its source's header and the tree of that table, at the first bit after the header (R231, R233). -/
def Dec.built (d : Dec) (f : Table Count 257) (a : Arena) : Dec :=
  { d.init with
    phase := .ready
    freq := f
    arena := a
    cur := a.root
    port := { d.port.init with rp := 1028, io := ioAfter 1028 d.port.io } }

/-- From any state, with no failing read and a header first in the source, the first commands of DECODE build the tree of the
header's table (R231, 41_tree.md R128). -/
theorem runs_loading (hsrc : s.dec.port.src = headerBytes f ++ l) (hone : f.get sentinel = 1) (ha : treeBuild f = some a)
    (hcalm : Calm .dec 1028 s.dec.port.io) : Runs [.dinit, .dhdr, .dbuild] s (s.setDec (s.dec.built f a)) := by
  have hlen : 0 + 1028 ≤ s.dec.port.src.length := by
    rw [hsrc, List.length_append, headerBytes_length]
    omega
  have hparse : parseHeader ((s.dec.port.src.drop 0).take 1028) = f := by
    rw [List.drop_zero, hsrc, List.take_left' (headerBytes_length f), parseHeader_headerBytes]
  exact ⟨_, rfl, _, exec_dhdr_ok (s := s.setDec s.dec.init) rfl rfl hlen hcalm hparse hone, _, exec_dbuild rfl rfl ha, rfl⟩

/-- The bits unread after the header are those of the bytes after it (44_bitreader.md R180). -/
theorem unread_built (hsrc : s.dec.port.src = headerBytes f ++ l) : unread (s.dec.built f a) = l.flatMap byteBits := by
  have hbuf : (byteBits (s.dec.built f a).buf).drop 8 = [] := List.drop_of_length_le (byteBits_length _).le
  have hrest : s.dec.port.src.drop 1028 = l := by rw [hsrc, List.drop_left' (headerBytes_length f)]
  exact (congrArg₂ _ hbuf (congrArg _ hrest)).trans (List.nil_append _)

/-- The code of a counted byte is the path to its leaf (R234). -/
theorem byteCode_of_coded (htree : TreeOf f a) (hd : derive a = some codes) (hcoded : Coded f codes) {b : Byte}
    (hb : f.get (byteSymbol b) ≠ 0) : ByteCode a ((codes.get (byteSymbol b)).getD []) b := by
  obtain ⟨c, hc⟩ := Option.isSome_iff_exists.1 ((hcoded (byteSymbol b)).1.2 hb)
  obtain ⟨k, hpath, hleaf⟩ := (htree.code_iff hd).1 hc
  obtain ⟨hk, hsym⟩ := htree.slot_eq_leafNode_iff.1 hleaf
  exact ⟨k, by rwa [hc], hk, hsym⟩

/-- DECODE's commands on the artifact of a source, followed by any bytes, give the source back: with no failing access they end
CLOSED with no error, and the destination holds the source (R240). -/
theorem runs_decode (htree : TreeOf (histogram x) a) (ha : treeBuild (histogram x) = some a) (hd : derive a = some codes)
    (hcount : ∀ b : Byte, x.count b ≤ 0xFFFFFFFF) (hsrc : s.dec.port.src = artifact codes x ++ l)
    (hcalm : Calm .dec (257 * x.length + 1284) s.dec.port.io) :
    ∃ u, Runs decodeExpansion s u ∧ u.dec.phase = .closed ∧ u.dec.err = .none ∧ u.dec.port.dst = x := by
  have hcoded := derive_coded htree hd
  obtain ⟨p, hp⟩ := Option.isSome_iff_exists.1 ((hcoded sentinel).1.2 (by rw [histogram_sentinel]; decide))
  obtain ⟨m, hpath, hleaf⟩ := (htree.code_iff hd).1 hp
  obtain ⟨hk, hsym⟩ := htree.slot_eq_leafNode_iff.1 hleaf
  have hplen := ((hcoded sentinel).2 p hp).2
  have hlen := codeBits_length_le hcoded x
  rw [artifact, hp, Option.getD_some, List.append_assoc] at hsrc
  have hload := runs_loading hsrc (histogram_sentinel x) ha (hcalm.mono (by omega))
  have hunread := unread_built (a := a) hsrc
  rw [List.flatMap_append, packBytes_bits _ _ rfl, List.append_assoc, List.append_assoc] at hunread
  have hcodes : ∀ b ∈ x, ByteCode a ((codes.get (byteSymbol b)).getD []) b := fun b hb =>
    byteCode_of_coded htree hd hcoded (histogram_ne_zero (hcount b) hb)
  have hpass : Calm .dec ((codeBits codes x).length + p.length + x.length) (ioAfter 1028 s.dec.port.io) :=
    Calm.after (hcalm.mono (by omega))
  obtain ⟨t, ht, herr, hdone, -, hdst, -⟩ := exec_drun_message (s := s.setDec (s.dec.built (histogram x) a))
    (code := fun y => (codes.get y).getD []) rfl rfl rfl htree.root_internal hcodes hpath hk hsym hunread hpass
  exact ⟨_, hload.append ⟨t, ht, _, exec_dclose (by rw [hdone]; nofun), rfl⟩, rfl, herr, hdst.trans (List.nil_append x)⟩

end Decode

end Sys2Proof.Machine

open Sys2Proof Sys2Proof.Machine Sys2Proof.Safety

/-- Settles O49: both units build the tree of the source's histogram, so DECODE reads back the codes ENCODE packed. -/
theorem decodeOfEncodeIsTheSource : Obligations.DecodeOfEncodeIsTheSource := by
  intro s tail hcount hcalm hcalm'
  obtain ⟨a, ha, htree, -⟩ := treeBuild_some (histogram s.enc.port.src) (by rw [histogram_sentinel]; decide)
  obtain ⟨codes, hd, -⟩ := derive_some htree
  obtain ⟨t, hrun, ht⟩ := runs_encode hcount hcalm ha hd (derive_coded htree hd)
  rw [← ht.dec] at hcalm'
  obtain ⟨u, hrun', hphase, herr, hdst⟩ := runs_decode (s := hostAct (.load .dec (t.enc.port.dst ++ tail)) t) htree ha hd
    hcount (by rw [ht.dst]; rfl) hcalm'
  refine ⟨t, u, hrun.hostRunFrom .idle, ?_, hphase, herr, hdst⟩
  rw [hostRun, hostRunFrom_load (SourceUses.idle_free .dec), hrun'.hostRunFrom]

end

section
/-! PROOFS. The handling of one word (60_exceptions.md R262 to R266, R274): what a step makes of the next word, and what a word
does under a latched error. -/

namespace Sys2Proof.Machine

section Words

variable {s : State} {w : Byte} {rest : List Byte} {i : Instr} {u : UnitId}

/-- With no word written the machine idles (60_exceptions.md R274). -/
theorem step_of_cmd_nil (h : s.cmd = []) : step s = .next s := by
  rw [step, nextWord, h]

/-- A machine whose next word is `w` is the machine with that word taken and then put back. -/
theorem eq_putWord (h : s.cmd = w :: rest) : s = putWord w { s with cmd := rest } := by
  rw [putWord, ← h]

/-- A word that decodes to a command is that command on the machine with the word taken (R264). -/
theorem step_command (h : s.cmd = w :: rest) (hd : decode w = .command i) : step s = exec i { s with cmd := rest } :=
  (congrArg step (eq_putWord h)).trans (step_putWord_command hd _)

/-- An illegal word is ILLEGAL of its unit on the machine with the word taken (R264). -/
theorem step_illegal (h : s.cmd = w :: rest) (hd : decode w = .illegal u) :
    step s = .next (illegalWord u { s with cmd := rest }) :=
  (congrArg step (eq_putWord h)).trans (step_putWord_illegal hd _)

end Words

section Latched

variable {i : Instr} {s t : State}

/-- Under a latched error no command of ENC but EINIT and ECLOSE has an effect (60_exceptions.md R263). -/
theorem exec_enc_latched (hu : i.unit = .enc) (hinit : i ≠ .einit) (hclose : i ≠ .eclose) (he : s.enc.err ≠ .none) :
    exec i s = .next s := by
  cases i with
  | einit => exact absurd rfl hinit
  | eclose => exact absurd rfl hclose
  | ecount | ecountall | efinal | ebuild | ederive | ehdr | erewind | esym | esymall | eeos | ewbit =>
    exact encGate_latched _ s he
  | dinit | dhdr | dbuild | drbit | dstep | dsymbol | drun | dclose => cases hu

/-- Under a latched error no command of DEC but DINIT and DCLOSE has an effect (R263). -/
theorem exec_dec_latched (hu : i.unit = .dec) (hinit : i ≠ .dinit) (hclose : i ≠ .dclose) (he : s.dec.err ≠ .none) :
    exec i s = .next s := by
  cases i with
  | dinit => exact absurd rfl hinit
  | dclose => exact absurd rfl hclose
  | dhdr | dbuild | drbit => exact decGate_latched _ s he
  | dstep => exact decGate_latched (body := fun d => (stepBody d).unit) .dstep s he
  | dsymbol => exact decGate_latched (body := fun d => (symbolBody d).unit) .dsymbol s he
  | drun => exact decGate_latched (body := fun d => (runBody d).unit) .drun s he
  | einit | ecount | ecountall | efinal | ebuild | ederive | ehdr | erewind | esym | esymall | eeos | ewbit | eclose =>
    cases hu

/-- Under a latched error an illegal word of ENC has no effect (R263). -/
theorem illegalWord_enc_latched (he : s.enc.err ≠ .none) : illegalWord .enc s = s := by
  rw [illegalWord, Enc.latch_of_ne _ _ he, State.setEnc]

/-- Under a latched error an illegal word of DEC has no effect (R263). -/
theorem illegalWord_dec_latched (he : s.dec.err ≠ .none) : illegalWord .dec s = s := by
  rw [illegalWord, Dec.latch_of_ne _ _ he, State.setDec]

/-- ECLOSE keeps a latched error: its Flush latches IO only where there is none (60_exceptions.md R262, R263). -/
theorem closeBody_latched {e e' : Enc} (he : e.err ≠ .none) (h : closeBody e = .ok e' ()) :
    e'.phase = .closed ∧ e'.err = e.err := by
  rcases closeBody_cases e with ⟨_, hb⟩ | ⟨_, _, hb⟩ | ⟨_, _, hb⟩ <;> rw [hb] at h <;> cases h
  · exact ⟨rfl, rfl⟩
  · exact ⟨rfl, rfl⟩
  · exact ⟨rfl, if_neg he⟩

theorem exec_eclose_latched (he : s.enc.err ≠ .none) (hp : s.enc.phase ≠ .closed) :
    ∃ t, exec .eclose s = .next t ∧ t.enc.phase = .closed ∧ t.enc.err = s.enc.err := by
  obtain ⟨-, e, hb, hx⟩ := (execEclose_cases s).resolve_left fun h => hp h.1
  exact ⟨_, hx, closeBody_latched he hb⟩

/-- A second ECLOSE has no effect under a latched error (R263). -/
theorem exec_eclose_closed_latched (he : s.enc.err ≠ .none) (hp : s.enc.phase = .closed) :
    exec .eclose s = .next s :=
  (exec_eclose_closed hp).trans (by rw [if_neg he])

/-- A second DCLOSE has no effect under a latched error (R263). -/
theorem exec_dclose_closed_latched (he : s.dec.err ≠ .none) (hp : s.dec.phase = .closed) :
    exec .dclose s = .next s :=
  (exec_dclose_closed hp).trans (by rw [if_neg he])

/-- No command but EINIT changes an error latched in ENC (60_exceptions.md R262, R266). -/
theorem exec_keeps_enc_err (hinit : i ≠ .einit) (he : s.enc.err ≠ .none) (h : exec i s = .next t) :
    t.enc.err = s.enc.err := by
  cases hu : i.unit with
  | dec =>
    obtain ⟨_, _, -, -, rfl⟩ := exec_decChange hu h
    rfl
  | enc =>
    by_cases hclose : i = .eclose
    · subst hclose
      by_cases hp : s.enc.phase = .closed
      · rw [exec_eclose_closed_latched he hp] at h; cases h; rfl
      · obtain ⟨r, hx, -, herr⟩ := exec_eclose_latched he hp
        rw [hx] at h; cases h; exact herr
    · rw [exec_enc_latched hu hinit hclose he] at h; cases h; rfl

/-- No command but DINIT changes an error latched in DEC (R262, R266). -/
theorem exec_keeps_dec_err (hinit : i ≠ .dinit) (he : s.dec.err ≠ .none) (h : exec i s = .next t) :
    t.dec.err = s.dec.err := by
  cases hu : i.unit with
  | enc =>
    obtain ⟨_, _, -, -, rfl⟩ := exec_encChange hu h
    rfl
  | dec =>
    by_cases hclose : i = .dclose
    · subst hclose
      by_cases hp : s.dec.phase = .closed
      · rw [exec_dclose_closed_latched he hp] at h; cases h; rfl
      · rw [exec_dclose hp] at h; cases h; rfl
    · rw [exec_dec_latched hu hinit hclose he] at h; cases h; rfl

end Latched

end Sys2Proof.Machine

open Sys2Proof Sys2Proof.Machine Sys2Proof.Safety

/-- Settles O5: the step takes the word and dispatches the command. -/
theorem stepRunsTheDecodedCommand : Obligations.StepRunsTheDecodedCommand := fun _ _ _ _ h hd => step_command h hd

/-- Settles O6: an empty list of words has no next word. -/
theorem stepWithoutWordChangesNothing : Obligations.StepWithoutWordChangesNothing := fun _ h => step_of_cmd_nil h

/-- Settles O10: the gates of all commands but INIT and CLOSE ask for an error first, and the latch of ILLEGAL, of a second
CLOSE and of ECLOSE's Flush keeps the error that is there. -/
theorem latchedErrorLeavesOnlyInitAndClose : Obligations.LatchedErrorLeavesOnlyInitAndClose := by
  intro s
  refine ⟨fun he => ⟨fun i hu hinit hclose => exec_enc_latched hu hinit hclose he, fun w hw => ?_,
      exec_eclose_closed_latched he, exec_eclose_latched he, _, rfl, rfl⟩,
    fun he => ⟨fun i hu hinit hclose => exec_dec_latched hu hinit hclose he, fun w hw => ?_,
      exec_dclose_closed_latched he, fun hp => ⟨_, exec_dclose hp, rfl, rfl⟩, _, rfl, rfl⟩⟩
  · rw [step_putWord_illegal hw, illegalWord_enc_latched he]
  · rw [step_putWord_illegal hw, illegalWord_dec_latched he]

/-- Settles O12: a command of the other unit leaves this one as it is, CLOSE keeps the error, and the others have no effect. -/
theorem firstErrorIsKept : Obligations.FirstErrorIsKept := fun _ _ _ h =>
  ⟨fun he hi => exec_keeps_enc_err hi he h, fun he hi => exec_keeps_dec_err hi he h⟩

end

section
/-! PROOFS. No step stops the machine (60_exceptions.md R260; log 6): each stretch of pseudocode runs through or raises, in the
states in which the invariant lets its command run. -/

namespace Sys2Proof.Machine

open Sys2Proof.Safety

section Completing

variable {σ τ α β : Type} {x : Ended σ α}

/-- A stretch of pseudocode ends in a state, by running through or by a raise: it meets no state without an effect. -/
def Ended.Completes (x : Ended σ α) : Prop := ∀ f, x ≠ .stuck f

theorem Ended.Completes.bind {k : σ → α → Ended σ β} (hx : x.Completes)
    (hk : ∀ s a, x = .ok s a → (k s a).Completes) : (x.bind k).Completes := by
  cases x with
  | ok s a => exact hk s a rfl
  | raised s c => exact nofun
  | stuck f => exact absurd rfl (hx f)

theorem Ended.Completes.into {put : σ → τ} (hx : x.Completes) : (x.into put).Completes := by
  cases x with
  | ok s a => exact nofun
  | raised s c => exact nofun
  | stuck f => exact absurd rfl (hx f)

theorem Ended.Completes.unit (hx : x.Completes) : x.unit.Completes := hx.bind fun _ _ _ => nofun

/-- Where pseudocode that leaves `P` has run through, `P` holds. -/
theorem Ended.Meets.of_ok {P : σ → α → Prop} {Q : σ → ErrCode → Prop} {s : σ} {a : α} (hx : x.Meets P Q)
    (h : x = .ok s a) : P s a := by
  rw [h] at hx; exact hx

end Completing

section Encoder

variable {e : Enc}

theorem writeBytes_completes (u : UnitId) (vs : List Byte) (p : Port) : (writeBytes u vs p).Completes := by
  induction vs generalizing p with
  | nil => exact nofun
  | cons v vs ih =>
    rw [writeBytes]
    cases hio : p.io.answerAt u .write p.dst.length 0 with
    | true => rw [memWrite_fault _ _ _ hio]; exact nofun
    | false => rw [memWrite_ok _ _ _ hio]; exact ih _

theorem writeBit_completes (b : Bool) (e : Enc) : (writeBit b e).Completes := by
  rcases writeBit_cases b e with ⟨_, h⟩ | ⟨_, _, h⟩ | ⟨_, _, h⟩ <;> rw [h] <;> exact nofun

theorem emitBits_completes (p : Bits) (e : Enc) : (emitBits p e).Completes := by
  induction p generalizing e with
  | nil => exact nofun
  | cons b bs ih => exact (writeBit_completes b e).bind fun e' _ _ => ih e'

theorem countBody_completes (e : Enc) : (countBody e).Completes := by
  rcases countBody_cases e with ⟨_, h⟩ | ⟨_, _, _, h⟩ | ⟨_, _, _, _, h⟩ | ⟨_, _, _, _, h⟩ <;> rw [h] <;>
    exact nofun

theorem symBody_completes (e : Enc) : (symBody e).Completes := by
  rcases symBody_cases e with ⟨_, h⟩ | ⟨_, _, _, h⟩ | ⟨_, _, _, _, h⟩ | ⟨_, p, _, _, _, h⟩ <;> rw [h]
  · exact nofun
  · exact nofun
  · exact nofun
  · exact emitBits_completes p _

/-- A bulk command of ENC never uses its bound up, since each repetition that goes on has moved past a source byte
(40_frequency.md R102, 45_encoder.md R206). -/
theorem repeatUntil_eoi_completes {body : Enc → Ended Enc Unit} (hbody : ∀ e, (body e).Completes)
    (hm : ∀ e e' a, body e = .ok e' a → e'.eoi = false →
      e'.port.src.length - e'.port.rp < e.port.src.length - e.port.rp) (e : Enc) :
    (repeatUntil body (fun e _ => e.eoi) (sourceFuel e.port) e).Completes :=
  repeatUntil_ne_stuck (P := fun _ => True) (fun e => e.port.src.length - e.port.rp) hm (fun _ _ _ _ _ _ => trivial)
    (fun e f _ => hbody e f) _ e trivial (Nat.lt_succ_self _)

theorem headerBody_completes (e : Enc) : (headerBody e).Completes :=
  (writeBytes_completes .enc _ e.port).into.bind fun _ _ _ => nofun

end Encoder

section Decoder

variable {d : Dec}

theorem readHeader_completes (n : Nat) (d : Dec) : (readHeader n d).Completes := by
  induction n generalizing d with
  | zero => exact nofun
  | succ n ih =>
    rw [readHeader]
    rcases d.nextByte_cases with ⟨_, h⟩ | ⟨_, _, _, h⟩ | ⟨_, _, _, h⟩ <;> rw [h]
    · exact nofun
    · exact (ih _).bind fun _ _ _ => nofun
    · exact nofun

theorem dhdrBody_completes (d : Dec) : (dhdrBody d).Completes :=
  (readHeader_completes Config.hdrLen d).bind fun d' bytes _ => by
    simp only
    split <;> exact nofun

theorem readBit_completes (d : Dec) : (readBit d).Completes := by
  rcases readBit_cases d with ⟨_, h⟩ | ⟨_, _, h⟩ | ⟨_, _, _, _, h⟩ | ⟨_, _, _, _, h⟩ <;> rw [h] <;> exact nofun

theorem readBitBody_completes (d : Dec) : (readBitBody d).Completes :=
  (readBit_completes d).bind fun d' r _ => by cases r <;> exact nofun

/-- At a slot in use R236 has a case for the walker. -/
theorem arrive_completes (h : (d.arena.slot d.cur).kind ≠ .empty) : (arrive d).Completes := by
  unfold arrive
  split
  · exact nofun
  · split
    · exact nofun
    · refine Ended.Completes.bind ?_ fun _ _ _ => nofun
      unfold Dec.write
      cases hio : d.port.io.answerAt .dec .write d.port.dst.length 0 with
      | true => rw [memWrite_fault _ _ _ hio]; exact nofun
      | false => rw [memWrite_ok _ _ _ hio]; exact nofun
  · exact nofun
  · exact absurd ‹_› h

end Decoder

end Sys2Proof.Machine

namespace Sys2Proof.Safety

open Sys2Proof.Machine

section Progress

variable {i : Instr} {s : State} {e : Enc} {d : Dec}

theorem ebuildBody_completes (h : EncInv e) (hp : e.phase = .final) : (ebuildBody e).Completes := by
  obtain ⟨hs, -, -⟩ := (encTables_final hp).1 h.tables
  obtain ⟨a, hbuild, -⟩ := treeBuild_some e.freq (by rw [hs]; decide)
  rw [ebuildBody, hbuild]
  exact nofun

theorem deriveBody_completes (h : EncInv e) (hp : e.phase = .built) : (deriveBody e).Completes := by
  obtain ⟨-, htree, -⟩ := (encTables_built hp).1 h.tables
  obtain ⟨codes, hd, -⟩ := derive_some htree
  rw [deriveBody, hd]
  exact nofun

theorem eosBody_completes (h : EncInv e) (hp : e.phase = .payload) : (eosBody e).Completes := by
  obtain ⟨hs, -, hcoded⟩ := (encTables_coded (.inr (.inl hp))).1 h.tables
  obtain ⟨p, hcode⟩ := Option.isSome_iff_exists.1 ((hcoded sentinel).1.2 (by rw [hs]; decide))
  rw [eosBody, hcode]
  exact (emitBits_completes p e).bind fun _ _ _ => nofun

theorem dbuildBody_completes (h : DecInv d) (hp : d.phase = .loaded) : (dbuildBody d).Completes := by
  obtain ⟨hs, -⟩ := (decTables_loaded hp).1 h.tables
  obtain ⟨a, hbuild, -⟩ := treeBuild_some d.freq (by rw [hs]; decide)
  rw [dbuildBody, hbuild]
  exact nofun

/-- The walker stands on an INTERNAL node, whose children are slots in use (46_decoder.md R235). -/
theorem stepBody_completes (h : DecInv d) (hp : d.phase = .ready) (he : d.err = .none) : (stepBody d).Completes := by
  refine (readBit_completes d).bind fun d' r hr => ?_
  obtain ⟨h', hp', he'⟩ := (readBit_sound h hp he).of_ok hr
  cases r with
  | none => exact nofun
  | some b =>
    obtain ⟨⟨-, htree, hcur⟩, hwalk⟩ := (decTables_ready hp').1 h'.tables
    exact arrive_completes (htree.used_below _ ((htree.child_lt (hwalk he') b).trans hcur))

/-- A loop of R236 that goes on only in phase READY never uses its bound up, since each pass reads a bit (R238). -/
theorem walk_completes {stop : Dec → Bool → Bool}
    (hstop : ∀ d leaf, Walked d leaf → stop d leaf ≠ true → d.phase = .ready) (h : DecInv d) (hp : d.phase = .ready)
    (he : d.err = .none) : (repeatUntil stepBody stop (walkFuel d) d).Completes := by
  refine repeatUntil_ne_stuck (P := fun d => DecInv d ∧ d.phase = .ready ∧ d.err = .none) walkLeft
    (fun d d' a hk _ => stepBody_measure d d' a hk) (fun d d' a ⟨h, hp, he⟩ hk hgo => ?_)
    (fun d f ⟨h, hp, he⟩ => stepBody_completes h hp he f) _ d ⟨h, hp, he⟩ (Nat.lt_succ_self _)
  have hw := (stepBody_sound h hp he).of_ok hk
  exact ⟨hw.1, hstop d' a hw (Bool.eq_false_iff.1 hgo), hw.2.1⟩

theorem symbolBody_completes (h : DecInv d) (hp : d.phase = .ready) (he : d.err = .none) : (symbolBody d).Completes :=
  walk_completes (fun _ _ ⟨_, _, hw⟩ hgo => hw.resolve_right fun hdone => hgo hdone.2) h hp he

theorem runBody_completes (h : DecInv d) (hp : d.phase = .ready) (he : d.err = .none) : (runBody d).Completes :=
  walk_completes (fun _ _ ⟨_, _, hw⟩ hgo => hw.resolve_right fun hdone => hgo (decide_eq_true hdone.1)) h hp he

/-- From a state that meets the invariant of ENC every command of ENC has a next state. -/
theorem exec_enc_total (hu : i.unit = .enc) (h : EncInv s.enc) : ∃ t, exec i s = .next t := by
  cases i with
  | einit => exact ⟨_, rfl⟩
  | ecount => exact encGate_total _ s fun _ _ => countBody_completes _
  | ecountall => exact encGate_total _ s fun _ _ => repeatUntil_eoi_completes countBody_completes countBody_measure _
  | efinal => exact encGate_total (body := finalBody) _ s fun _ _ => nofun
  | ebuild => exact encGate_total _ s fun _ hp => ebuildBody_completes h (of_decide_eq_true hp)
  | ederive => exact encGate_total _ s fun _ hp => deriveBody_completes h (of_decide_eq_true hp)
  | ehdr => exact encGate_total _ s fun _ _ => headerBody_completes _
  | erewind => exact encGate_total (body := rewindBody) _ s fun _ _ => nofun
  | esym => exact encGate_total _ s fun _ _ => symBody_completes _
  | esymall => exact encGate_total _ s fun _ _ => repeatUntil_eoi_completes symBody_completes symBody_measure _
  | eeos => exact encGate_total _ s fun _ hp => eosBody_completes h (of_decide_eq_true hp)
  | ewbit b => exact encGate_total _ s fun _ _ => writeBit_completes b _
  | eclose =>
    rcases execEclose_cases s with ⟨_, hx⟩ | ⟨_, e, _, hx⟩
    · exact ⟨_, hx⟩
    · exact ⟨_, hx⟩
  | dinit | dhdr | dbuild | drbit | dstep | dsymbol | drun | dclose => cases hu

/-- From a state that meets the invariant of DEC every command of DEC has a next state. -/
theorem exec_dec_total (hu : i.unit = .dec) (h : DecInv s.dec) : ∃ t, exec i s = .next t := by
  cases i with
  | dinit => exact ⟨_, rfl⟩
  | dhdr => exact decGate_total _ s fun _ _ => dhdrBody_completes _
  | dbuild => exact decGate_total _ s fun _ hp => dbuildBody_completes h (of_decide_eq_true hp)
  | drbit => exact decGate_total _ s fun _ _ => readBitBody_completes _
  | dstep =>
    exact decGate_total (body := fun d => (stepBody d).unit) .dstep s fun he hp =>
      (stepBody_completes h (of_decide_eq_true hp) he).unit
  | dsymbol =>
    exact decGate_total (body := fun d => (symbolBody d).unit) .dsymbol s fun he hp =>
      (symbolBody_completes h (of_decide_eq_true hp) he).unit
  | drun =>
    exact decGate_total (body := fun d => (runBody d).unit) .drun s fun he hp =>
      (runBody_completes h (of_decide_eq_true hp) he).unit
  | dclose =>
    rcases execDclose_cases s with ⟨_, hx⟩ | ⟨_, hx⟩
    · exact ⟨_, hx⟩
    · exact ⟨_, hx⟩
  | einit | ecount | ecountall | efinal | ebuild | ederive | ehdr | erewind | esym | esymall | eeos | ewbit | eclose =>
    cases hu

/-- From a state that meets the invariant every command has a next state. -/
theorem exec_total (i : Instr) (h : Inv s) : ∃ t, exec i s = .next t := by
  cases hu : i.unit with
  | enc => exact exec_enc_total hu h.enc
  | dec => exact exec_dec_total hu h.dec

end Progress

end Sys2Proof.Safety

open Sys2Proof Sys2Proof.Machine Sys2Proof.Safety

/-- Settles O46: the invariant gives each pseudocode that could meet a state without an effect the table, the tree, the code or
the INTERNAL node it needs, and the loops' bounds are never used up. -/
theorem noStepStopsTheMachine : Obligations.NoStepStopsTheMachine := by
  intro s h
  cases hc : s.cmd with
  | nil => exact ⟨s, step_of_cmd_nil hc⟩
  | cons w rest =>
    cases hd : decode w with
    | command i => rw [step_command hc hd]; exact exec_total i (s := { s with cmd := rest }) ⟨h.enc, h.dec⟩
    | illegal u => exact ⟨_, step_illegal hc hd⟩

end

section
/-! The reset input and the reset state (70_reset_and_hazards.md R300). -/

namespace Sys2Proof.Machine

@[simp] theorem Arena.clear_node_get (i : Fin 513) : Arena.clear.node.get i = Node.unused := Table.get_fill _ i

@[simp] theorem Enc.reset_freq_get (s : Symbol) : Enc.reset.freq.get s = 0 := Table.get_fill _ s

@[simp] theorem Enc.reset_code_get (s : Symbol) : Enc.reset.code.get s = none := Table.get_fill _ s

@[simp] theorem Dec.reset_freq_get (s : Symbol) : Dec.reset.freq.get s = 0 := Table.get_fill _ s

/-- The reset input is a step from every state and under every use of the sources. -/
theorem hostStep_reset (use : SourceUses) (s : State) : hostStep use .reset s = .next (resetUnits s) := rfl

end Sys2Proof.Machine

open Sys2Proof Sys2Proof.Machine Sys2Proof.Safety

/-- Settles O8: the table cells are those of filled tables, the other fields stand in the reset state as R300 lists them, and
the reset input writes that state whatever the machine held. -/
theorem resetGivesEveryFieldItsValue : Obligations.ResetGivesEveryFieldItsValue := by
  refine ⟨?flags, ?tables, ?slots, ?trees, ?buffers, ?ports, ?input⟩
  case flags => exact ⟨rfl, rfl, rfl, rfl, rfl, rfl, rfl, rfl, rfl⟩
  case tables => exact fun s => ⟨Enc.reset_freq_get s, Dec.reset_freq_get s, Enc.reset_code_get s⟩
  case slots => exact fun i => ⟨Arena.clear_node_get i, Arena.clear_node_get i⟩
  case trees => exact ⟨rfl, rfl, rfl, rfl, rfl⟩
  case buffers => exact ⟨rfl, rfl, rfl, rfl⟩
  case ports => exact ⟨rfl, rfl, rfl, rfl, rfl, rfl⟩
  case input => exact fun use s => ⟨resetUnits s, hostStep_reset use s, rfl, rfl⟩

end
